-- ==== Sys2Proof/Word.lean ====
section
/-! DEFINITION. The widths of the block's data: 32-bit words, bytes, and binary32 patterns (00_scope.md
R10, R11, R12), and the pattern of a NaN, which the spec leaves to a draw (R13). -/

namespace Sys2Proof

/-- A 32-bit word (R10). -/
abbrev Word := BitVec 32

/-- One byte of the byte-addressed view of the register window (20_memory.md R48). -/
abbrev Byte := BitVec 8

/-- An IEEE 754 binary32 value, held as its bit pattern (R11, R12). -/
abbrev F32 := BitVec 32

/-- What the spec leaves open of a NaN result: its sign and its nonzero fraction (R13, log entry 4).
`fracPred` is the fraction less one, so every value of this type is a NaN and every NaN is such a value. -/
structure NaNPattern where
  sign     : Bool
  fracPred : Fin 8388607
  deriving DecidableEq, Repr, Inhabited

end Sys2Proof
end

