-- ==== Sys2Proof/Machine/Float.lean ====
section
/-! DEFINITION. IEEE 754 binary32 arithmetic as 00_scope.md R11 to R16 fix it: roundTiesToEven, one rounding an
operation, subnormals kept, no flags and no traps. A finite value is read as an exact integer count of
units of 2^-149 (the least subnormal); an operation computes exactly on those and narrows once.
An operation whose result is NaN gives the pattern it is handed (R13: the pattern is a draw). -/

namespace Sys2Proof

/-! ### The layout (R12) -/

/-- Bit 31. -/
def F32.sign (x : F32) : Bool := x.getLsbD 31

/-- Bits 30:23, the biased exponent. -/
def F32.expo (x : F32) : Nat := (x.extractLsb' 23 8).toNat

/-- Bits 22:0, the fraction. -/
def F32.frac (x : F32) : Nat := (x.extractLsb' 0 23).toNat

def F32.isNaN (x : F32) : Bool := F32.expo x == 255 && F32.frac x != 0

def F32.isInf (x : F32) : Bool := F32.expo x == 255 && F32.frac x == 0

def F32.isFinite (x : F32) : Bool := F32.expo x != 255

/-- The magnitude in units of 2^-149: exact for a finite value. An infinity reads as 2^277 units, more than
every finite value, so that comparisons need no case for it. -/
def F32.units (x : F32) : Nat :=
  if F32.expo x = 0 then F32.frac x else (2 ^ 23 + F32.frac x) * 2 ^ (F32.expo x - 1)

/-- The value in units of 2^-149; both zeros read as 0. -/
def F32.val (x : F32) : Int := if F32.sign x then -(F32.units x : Int) else F32.units x

/-- A pattern from its sign and its low 31 bits. -/
def F32.pack (sign : Bool) (mag : Nat) : F32 :=
  BitVec.ofNat 32 (mag + if sign then 2 ^ 31 else 0)

/-- The NaN a draw names (R13). -/
def NaNPattern.bits (p : NaNPattern) : F32 :=
  F32.pack p.sign (0x7F800000 + (p.fracPred.val + 1))

/-! ### Rounding (R11: roundTiesToEven) -/

/-- The integer nearest to num/den, ties to the even one. -/
def F32.roundEven (num den : Nat) : Nat :=
  let q := num / den
  let r := num % den
  if 2 * r > den || (2 * r == den && q % 2 == 1) then q + 1 else q

/-- How far above the least subnormal the last place of a value of `q` whole units stands. -/
def F32.lastPlace (q : Nat) : Nat := q.log2 - 23

/-- The low 31 bits of the binary32 nearest to num/den units of 2^-149. A carry out of the fraction
moves into the exponent by itself; from 2^128 on it is the infinity. -/
def F32.roundMag (num den : Nat) : Nat :=
  let e := F32.lastPlace (num / den)
  min (F32.roundEven num (den * 2 ^ e) + e * 2 ^ 23) 0x7F800000

/-! ### Sign and comparison (R13) -/

/-- Negation flips bit 31 and is exact, for a NaN too. -/
def F32.neg (x : F32) : F32 := x ^^^ 0x80000000#32

/-- IEEE ≤: false with a NaN operand; the two zeros are equal. -/
def F32.le (a b : F32) : Bool := !F32.isNaN a && !F32.isNaN b && decide (F32.val a ≤ F32.val b)

/-- IEEE <: false with a NaN operand. -/
def F32.lt (a b : F32) : Bool := !F32.isNaN a && !F32.isNaN b && decide (F32.val a < F32.val b)

/-! ### Arithmetic (R11). `none` stands for a NaN result; the operations with a draw fill it in. -/

/-- The exact integer `k` of units, rounded; `zeroSign` is the sign an exact zero takes. -/
def F32.ofUnits (zeroSign : Bool) (k : Int) : F32 :=
  if k = 0 then F32.pack zeroSign 0 else F32.pack (decide (k < 0)) (F32.roundMag k.natAbs 1)

def F32.add? (a b : F32) : Option F32 :=
  if F32.isNaN a || F32.isNaN b then none
  else if F32.isInf a then
    if F32.isInf b && F32.sign a != F32.sign b then none else some a
  else if F32.isInf b then some b
  else some (F32.ofUnits (F32.sign a && F32.sign b) (F32.val a + F32.val b))

def F32.mul? (a b : F32) : Option F32 :=
  let sgn := F32.sign a != F32.sign b
  if F32.isNaN a || F32.isNaN b then none
  else if F32.isInf a || F32.isInf b then
    if F32.units a = 0 || F32.units b = 0 then none else some (F32.pack sgn 0x7F800000)
  else some (F32.pack sgn (F32.roundMag (F32.units a * F32.units b) (2 ^ 149)))

def F32.div? (a b : F32) : Option F32 :=
  let sgn := F32.sign a != F32.sign b
  if F32.isNaN a || F32.isNaN b then none
  else if F32.isInf a then
    if F32.isInf b then none else some (F32.pack sgn 0x7F800000)
  else if F32.isInf b then some (F32.pack sgn 0)
  else if F32.units b = 0 then
    if F32.units a = 0 then none else some (F32.pack sgn 0x7F800000)
  else some (F32.pack sgn (F32.roundMag (F32.units a * 2 ^ 149) (F32.units b)))

/-- `a +f b`. -/
def F32.add (nan : NaNPattern) (a b : F32) : F32 := (F32.add? a b).getD nan.bits

/-- `a −f b`. -/
def F32.sub (nan : NaNPattern) (a b : F32) : F32 := F32.add nan a (F32.neg b)

/-- `a ×f b`. -/
def F32.mul (nan : NaNPattern) (a b : F32) : F32 := (F32.mul? a b).getD nan.bits

/-- `a /f b`. -/
def F32.div (nan : NaNPattern) (a b : F32) : F32 := (F32.div? a b).getD nan.bits

/-! ### Integral roundings and conversions (R14, R15) -/

/-- The float of an integer, in units: `n` is `n * 2^149` units. -/
def F32.ofWhole (zeroSign : Bool) (n : Int) : F32 := F32.ofUnits zeroSign (n * 2 ^ 149)

/-- roundToIntegralTowardZero, float-valued: an infinity unchanged, the sign of zero kept (R14). -/
def F32.trunc (nan : NaNPattern) (x : F32) : F32 :=
  if F32.isNaN x then nan.bits
  else if F32.isInf x then x
  else F32.ofWhole (F32.sign x) ((F32.val x).tdiv (2 ^ 149))

/-- roundToIntegralTowardNegative, float-valued (R14). -/
def F32.floor (nan : NaNPattern) (x : F32) : F32 :=
  if F32.isNaN x then nan.bits
  else if F32.isInf x then x
  else F32.ofWhole (F32.sign x) ((F32.val x).fdiv (2 ^ 149))

/-- Float to integer: 0 for a NaN, saturating at the i32 range, else the integer of trunc (R15). -/
def F32.toInt (x : F32) : Int :=
  if F32.isNaN x then 0
  else max (-(2 ^ 31)) (min (2 ^ 31 - 1) ((F32.val x).tdiv (2 ^ 149)))

/-- `float(n)`: the f32 nearest to the integer n, ties to even (R15). -/
def F32.ofInt (n : Int) : F32 := F32.ofWhole false n

/-! ### Constants the rules name -/

def F32.zero : F32 := 0x00000000#32
def F32.one : F32 := 0x3F800000#32
def F32.two : F32 := 0x40000000#32
def F32.n128 : F32 := 0x43000000#32
def F32.pow31 : F32 := 0x4F000000#32
def F32.powNeg31 : F32 := 0x30000000#32

end Sys2Proof
end

