-- ==== Sys2Proof/Config.lean ====
section
/-! DEFINITION. What an implementation fixes and what the spec leaves open (00_scope.md R7 to R9, 10_state.md
R32): the wavetable, the collaborators, the morph scale, the base address, and the free values. Every meaning
is written over an arbitrary `Config`; the machine runs `Config.machine`, whose OPEN parameters are constants
without a body, so a proof about it holds for every choice of them (log entries 1 to 6). -/

namespace Sys2Proof

/-- MIRROR_FRAC (R8): which interpolation weight the mirrored branch uses (40_wavetable_reader.md R80). -/
inductive MirrorFrac where
  | observed
  | recomputed
  deriving DecidableEq, Repr, Inhabited

/-- The floating-point operations of a CYCLE, by the rule they stand in: each occurrence draws its own NaN
pattern (R13). -/
inductive FpSite where
  | acceptSub      -- R86: lfoTarget − lfoCurrent
  | acceptDiv      -- R86: … / float(F)
  | morphAdd       -- R89
  | phaseTrunc     -- R73
  | phaseFrac      -- R73
  | scaleTwo       -- R74: 2 × p
  | scaleN         -- R74: … × 128
  | tableFloor     -- R75
  | weightSub      -- R75
  | bankTrunc      -- R78
  | slopeSub       -- R80: v1 − v0, or v0 − v1
  | weightFlip     -- R80, RECOMPUTED: 1 − fr
  | slopeMul       -- R80
  | lerpAdd        -- R80
  | foldSub        -- R91: 1 − w
  | foldTrunc      -- R91: trunc(w)
  | foldFrac       -- R91: w − trunc(w)
  | shapeMul       -- R94
  | stepAdd        -- R96: phase + phaseInc
  | stepTrunc      -- R96
  | stepFrac       -- R96
  | rampAdd        -- R97
  deriving DecidableEq, Repr

/-- The parameters of R8 and the free values. -/
structure Config where
  /-- BANK_COUNT, at least 1 (OPEN, D10). -/
  bankCount  : Nat
  /-- MORPH_SCALE, the document's scale1 (OPEN, D11). -/
  morphScale : F32
  /-- WAVETABLE: bank, entry 0 to 128 (OPEN, D12). -/
  wavetable  : Nat → Nat → F32
  /-- PITCH_TO_INC: NOTE, FINE (OPEN, D12). -/
  pitchToInc : BitVec 8 → BitVec 8 → F32
  /-- SOFTCLIP (OPEN, D12). -/
  softClip   : F32 → F32
  /-- SINE (OPEN, D12). -/
  sine       : F32 → F32
  /-- MAX_FRAMES, 1 to 4095 (decided 4095, D27). -/
  maxFrames  : Nat
  /-- MIRROR_FRAC (decided OBSERVED, D8). -/
  mirrorFrac : MirrorFrac
  /-- BASE, the window's address in the host's address space (OPEN, D19). -/
  base       : Nat
  /-- Free: the NaN pattern of the n-th drawing step's operation at a site (R13). -/
  nan        : Nat → FpSite → NaNPattern
  /-- Free: the NaN pattern that PARAM of a slot stores for an operand (R13 with R110, log entry 5). -/
  nanParam   : BitVec 8 → F32 → NaNPattern
  /-- Free: the byte at a window offset of OUTBUF that nothing has written since the n-th power-on (R43). -/
  unwritten  : Nat → Nat → Byte

/-- N, the quarter-table resolution (R7). -/
def Config.tableN : Nat := 128

/-- TABLE_LEN = N + 1 (R7). -/
def Config.tableLen : Nat := 129

/-- BANK_COUNT − 1 ≤ MORPH_SCALE < BANK_COUNT, in exact arithmetic (R8, D11). With one bank a scale of −0.0 meets
it as well (log entry 3). -/
def Config.scaleInRange (bankCount : Nat) (scale : F32) : Bool :=
  F32.isFinite scale
    && decide (((bankCount : Int) - 1) * 2 ^ 149 ≤ F32.val scale)
    && decide (F32.val scale < (bankCount : Int) * 2 ^ 149)

/-- The bounds R8 puts on the parameters. -/
structure Config.Valid (c : Config) : Prop where
  bankCount_pos  : 1 ≤ c.bankCount
  morphScale_ok  : Config.scaleInRange c.bankCount c.morphScale = true
  maxFrames_pos  : 1 ≤ c.maxFrames
  maxFrames_le   : c.maxFrames ≤ 4095

/-- IncFiniteNonNeg (R9): PITCH_TO_INC returns a finite value ≥ 0. Never assumed, only named. -/
def Config.IncFiniteNonNeg (c : Config) : Prop :=
  ∀ note fine, F32.isFinite (c.pitchToInc note fine) = true ∧ 0 ≤ F32.val (c.pitchToInc note fine)

/-- TableFinite (R9): every WAVETABLE entry is finite. Never assumed, only named. -/
def Config.TableFinite (c : Config) : Prop :=
  ∀ b i, b < c.bankCount → i ≤ Config.tableN → F32.isFinite (c.wavetable b i) = true

/-- ClipFinite (R9): SOFTCLIP maps finite inputs to finite outputs. Never assumed, only named. -/
def Config.ClipFinite (c : Config) : Prop :=
  ∀ v, F32.isFinite v = true → F32.isFinite (c.softClip v) = true

/-! ### The OPEN parameters and the free values: constants nothing can evaluate -/

/-- BANK_COUNT and MORPH_SCALE, before the bound of R8 is imposed on the pair. -/
opaque Config.rawBanks : Nat × F32
opaque Config.openWavetable : Nat → Nat → F32
opaque Config.openPitchToInc : BitVec 8 → BitVec 8 → F32
opaque Config.openSoftClip : F32 → F32
opaque Config.openSine : F32 → F32
opaque Config.openBase : Nat
opaque Config.freeNaN : Nat → FpSite → NaNPattern
opaque Config.freeParamNaN : BitVec 8 → F32 → NaNPattern
opaque Config.freeByte : Nat → Nat → Byte

/-- BANK_COUNT and MORPH_SCALE: any pair that meets R8's bound, and only such a pair. -/
def Config.banks : Nat × F32 :=
  if Config.scaleInRange (Config.rawBanks.1 + 1) Config.rawBanks.2 then
    (Config.rawBanks.1 + 1, Config.rawBanks.2)
  else (1, F32.zero)

/-- The configuration the machine runs with. -/
def Config.machine : Config where
  bankCount  := Config.banks.1
  morphScale := Config.banks.2
  wavetable  := Config.openWavetable
  pitchToInc := Config.openPitchToInc
  softClip   := Config.openSoftClip
  sine       := Config.openSine
  maxFrames  := 4095
  mirrorFrac := .observed
  base       := Config.openBase
  nan        := Config.freeNaN
  nanParam   := Config.freeParamNaN
  unwritten  := Config.freeByte

end Sys2Proof
end

