-- ==== Sys2Proof/Machine/State.lean ====
section
/-! DEFINITION. The block's state as plain data (10_state.md, 20_memory.md), the host's pending accesses and the
schedule (20_memory.md R53), the reasons a step can stop, and the state after power-on reset (10_state.md R33,
70_reset_and_hazards.md R132). -/

namespace Sys2Proof.Machine

/-- The six state registers, the document's OscillatorState (10_state.md R20). -/
structure Osc where
  phaseInc   : F32
  phase      : F32
  lfoTarget  : F32
  lfoCurrent : F32
  morph      : F32
  shape      : F32
  deriving DecidableEq, Repr

/-- Every register +0.0 (10_state.md R33). -/
def Osc.zero : Osc := ⟨F32.zero, F32.zero, F32.zero, F32.zero, F32.zero, F32.zero⟩

/-- The hidden registers of a CYCLE in flight: C.F, C.i and C.step (10_state.md R29). -/
structure InFlight where
  frames : Nat
  index  : Nat
  step   : F32
  deriving DecidableEq, Repr

/-- Bytes by window offset, offsets strictly rising; an unlisted byte holds no written value. -/
abbrev Memory := List Host.Cell

/-- The width of a host access: only `word` is defined (20_memory.md R47). -/
inductive AccessSize where
  | byte
  | half
  | word
  deriving DecidableEq, Repr

/-- What the host may do next: WR, RD and WAIT of 30_encoding.md R70, and switching the power on anew
(70_reset_and_hazards.md R132; log entry 10). -/
inductive HostOp where
  | write (size : AccessSize) (offset : Nat) (data : Word)
  | read (size : AccessSize) (offset : Nat)
  | wait
  | powerOn
  deriving DecidableEq, Repr

/-- The two agents of 20_memory.md R53. -/
inductive Agent where
  | host
  | sequencer
  deriving DecidableEq, Repr

/-- One word a read returned to the host. -/
structure ReadData where
  offset : Nat
  data   : Word
  deriving DecidableEq, Repr

structure State where
  /-- The six state registers (R20). -/
  osc      : Osc
  /-- STATUS.ERR (R26). -/
  err      : Bool
  /-- ARG (R27). -/
  arg      : Word
  /-- The CYCLE in flight, with its hidden registers (R29); STATUS.BUSY is whether there is one (R26). -/
  cyc      : Option InFlight
  /-- The OUTBUF words that CYCLEs have written, by byte (20_memory.md R42, R43, R48). -/
  outbuf   : Memory
  /-- The host's accesses not performed yet, in the host's own order (R53). -/
  pending  : List HostOp
  /-- Which agent moves where both can, next first; the sequencer once the list is used up (log entry 8). -/
  turns    : List Agent
  /-- What the host's reads returned, latest first. -/
  reads    : List ReadData
  /-- The model's own: how many steps have drawn NaN patterns (log entry 4). -/
  draws    : Nat
  /-- The model's own: how often the power came on again (log entry 7). -/
  powerUps : Nat
  deriving DecidableEq, Repr

/-- Why the machine stops with a fault. -/
inductive Fault where
  /-- Raised by a sample step whose C.i is no index of OUTBUF (20_memory.md R42). Safe: no state that meets
  `State.Inv` raises it, and every step keeps `State.Inv`. -/
  | outbufIndex (index : Nat)
  deriving DecidableEq, Repr

/-- Why a step has no move to make. -/
inductive Refusal where
  /-- Raised by an arm of exec whose instruction has no meaning yet. Safe. -/
  | notModelled (mnemonic : String)
  /-- Raised by a host access that is not an aligned 32-bit access: 20_memory.md R47, "a model gives it no move (it
  refuses it)". Safe. -/
  | notAlignedWord (size : AccessSize) (offset : Nat)
  /-- Raised by a host access at an offset beyond the 0x5000 bytes of the window, where the block is not
  addressed (20_memory.md R44, R51). Safe. -/
  | outsideWindow (offset : Nat)
  deriving DecidableEq, Repr

/-- The state right after power-on reset (R33, R132): idle, nothing written to OUTBUF, no access pending. -/
def State.reset : State where
  osc      := Osc.zero
  err      := false
  arg      := 0#32
  cyc      := none
  outbuf   := []
  pending  := []
  turns    := []
  reads    := []
  draws    := 0
  powerUps := 0

end Sys2Proof.Machine
end

