-- ==== Sys2Proof/Machine/Operands.lean ====
section
/-! DEFINITION. The conversions of operands and results: FROM_FIXED (41_block_generator.md R87), TO_FIXED (R98)
and float(F) (R86), and the reading of ARG at acceptance (30_encoding.md R59). -/

namespace Sys2Proof.Machine

/-- The operand of CYCLE and PARAM: ARG as it stands when the command is accepted (R59). A PARAM value is this
word read as an f32 pattern, which is the identity (R63, R65). -/
def State.operand (s : State) : Word := s.arg

/-- FROM_FIXED(q) = float(q as i32) × 2^-31 (R87). The product is never a NaN, so the default is not used. -/
def fromFixed (q : Word) : F32 :=
  (F32.mul? (F32.ofInt q.toInt) F32.powNeg31).getD F32.zero

/-- TO_FIXED (R98): NaN to 0, saturation at 2^31 and -2^31, else truncation toward zero. `s ×f 2^31` is a NaN
only when s is. -/
def toFixed (s : F32) : Word :=
  match F32.mul? s F32.pow31 with
  | none => 0x00000000#32
  | some v =>
    if F32.le F32.pow31 v then 0x7FFFFFFF#32
    else if F32.le v (F32.neg F32.pow31) then 0x80000000#32
    else BitVec.ofInt 32 (F32.toInt v)

end Sys2Proof.Machine
end

