-- ==== Sys2Proof/Machine/Fields.lean ====
section
/-! DEFINITION. The fields of a command word (30_encoding.md R58, R62 to R65) and the illegal words (R66). -/

namespace Sys2Proof

/-- OP = CMD[3:0]. -/
def Word.op (w : Word) : BitVec 4 := w.extractLsb' 0 4

/-- FRAMES = CMD[15:4]. -/
def Word.frames (w : Word) : BitVec 12 := w.extractLsb' 4 12

/-- SLOT = CMD[11:4]. -/
def Word.slot (w : Word) : BitVec 8 := w.extractLsb' 4 8

/-- FINE = CMD[23:16]. -/
def Word.fine (w : Word) : BitVec 8 := w.extractLsb' 16 8

/-- NOTE = CMD[31:24]. -/
def Word.note (w : Word) : BitVec 8 := w.extractLsb' 24 8

/-- R66, cases (a) to (e). -/
def Word.isIllegal (maxFrames : Nat) (w : Word) : Bool :=
  (Word.op w == 0x0#4 || decide (0x6#4 ≤ Word.op w))
    || (Word.op w == 0x1#4 && w.extractLsb' 4 28 != 0#28)
    || (Word.op w == 0x3#4 && w.extractLsb' 12 20 != 0#20)
    || ((Word.op w == 0x4#4 || Word.op w == 0x5#4) && w.extractLsb' 4 12 != 0#12)
    || (Word.op w == 0x2#4 && decide (maxFrames < (Word.frames w).toNat))

/-- Byte k of a word, least significant first (20_memory.md R48). -/
def Word.byte (w : Word) (k : Nat) : Byte := w.extractLsb' (8 * k) 8

/-- The word whose bytes, least significant first, are b0 to b3 (20_memory.md R48). -/
def Word.ofBytes (b0 b1 b2 b3 : Byte) : Word := b3 ++ b2 ++ b1 ++ b0

end Sys2Proof
end

