-- ==== Sys2Proof/Syntax.lean ====
section
/-! DEFINITION. The command set: one constructor per row of spec/opcode_table.json (30_encoding.md R58, R61).
The 32-bit operand of CYCLE and PARAM is not part of the word: it is taken from ARG at acceptance (R59). -/

namespace Sys2Proof

/-- A command word, decoded. -/
inductive Instr where
  /-- INIT (R112). -/
  | init
  /-- CYCLE NOTE, FINE, FRAMES (R84); the LFO word is in ARG. -/
  | cycle (note fine : BitVec 8) (frames : BitVec 12)
  /-- PARAM, SLOT 0 (R106); the value is in ARG. -/
  | paramMorph
  /-- PARAM, SLOT 1 (R107); the value is in ARG. -/
  | paramShape
  /-- PARAM, SLOT 2 to 255 (R108). -/
  | paramNop (slot : BitVec 8)
  /-- NOTE_ON NOTE, FINE (R113). -/
  | noteOn (note fine : BitVec 8)
  /-- NOTE_OFF NOTE, FINE (R114). -/
  | noteOff (note fine : BitVec 8)
  /-- Any word that R66 calls illegal (R115). -/
  | illegal (word : Word)
  deriving DecidableEq, Repr

end Sys2Proof
end

