-- ==== Sys2Proof/WellFormed.lean ====
section
/-! DEFINITION. Which terms of `Instr` a command word can stand for: FRAMES ≤ MAX_FRAMES (30_encoding.md R66 e), a
no-effect slot is 2 to 255 (R68), and an illegal command carries a word that R66 calls illegal. -/

namespace Sys2Proof

/-- Well-formed for a block with the given MAX_FRAMES. -/
def Instr.wfWith (maxFrames : Nat) : Instr → Bool
  | .init => true
  | .cycle _ _ frames => decide (frames.toNat ≤ maxFrames)
  | .paramMorph => true
  | .paramShape => true
  | .paramNop slot => decide (2#8 ≤ slot)
  | .noteOn _ _ => true
  | .noteOff _ _ => true
  | .illegal word => Word.isIllegal maxFrames word

/-- Well-formed for the machine. -/
def Instr.wf (i : Instr) : Bool := Instr.wfWith Config.machine.maxFrames i

end Sys2Proof
end

