-- ==== Sys2Proof/Decode.lean ====
section
/-! DEFINITION. Decoding and encoding of command words (30_encoding.md R57 to R68). Every 32-bit word decodes: a
word that R66 calls illegal decodes to `.illegal`, since R115 gives it an effect. A byte sequence too short to
hold a word is rejected by name. -/

namespace Sys2Proof

/-- Why a byte sequence is no command. -/
inductive DecodeError where
  /-- Fewer than the four bytes of a command word (R57). -/
  | truncated
  deriving DecidableEq, Repr

/-- R68: the illegal cases first, then OP, then SLOT. -/
def decodeWith (maxFrames : Nat) (w : Word) : Instr :=
  if Word.isIllegal maxFrames w then .illegal w
  else if Word.op w = 0x1#4 then .init
  else if Word.op w = 0x2#4 then .cycle (Word.note w) (Word.fine w) (Word.frames w)
  else if Word.op w = 0x3#4 then
    if Word.slot w = 0#8 then .paramMorph
    else if Word.slot w = 1#8 then .paramShape
    else .paramNop (Word.slot w)
  else if Word.op w = 0x4#4 then .noteOn (Word.note w) (Word.fine w)
  else if Word.op w = 0x5#4 then .noteOff (Word.note w) (Word.fine w)
  else .illegal w

/-- The machine's decoder. -/
def decode (w : Word) : Instr := decodeWith Config.machine.maxFrames w

/-- The command at the head of a byte sequence laid out as R48 says, and the bytes after it. -/
def decodeBytes : List Byte → Except DecodeError (Instr × List Byte)
  | b0 :: b1 :: b2 :: b3 :: rest => .ok (decode (Word.ofBytes b0 b1 b2 b3), rest)
  | _ => .error .truncated

/-- R58, R61, R69: the word of a command. -/
def encode : Instr → Word
  | .init => 0x00000001#32
  | .cycle note fine frames => note ++ fine ++ frames ++ 0x2#4
  | .paramMorph => 0#20 ++ 0#8 ++ 0x3#4
  | .paramShape => 0#20 ++ 1#8 ++ 0x3#4
  | .paramNop slot => 0#20 ++ slot ++ 0x3#4
  | .noteOn note fine => note ++ fine ++ 0#12 ++ 0x4#4
  | .noteOff note fine => note ++ fine ++ 0#12 ++ 0x5#4
  | .illegal word => word

/-- The bytes of a word as R48 lays them out. -/
def wordBytes (w : Word) : List Byte := [Word.byte w 0, Word.byte w 1, Word.byte w 2, Word.byte w 3]

/-- The command read from the word whose table bits are `w`; the bits above `nbits` are 0. -/
def decodeTableWord (nbits w : Nat) : Option Instr :=
  match decodeBytes (wordBytes (BitVec.ofNat 32 (w % 2 ^ nbits))) with
  | .ok (i, _) => some i
  | .error _ => none

end Sys2Proof
end

