-- ==== Sys2Proof/Machine/Flags.lean ====
section
/-! DEFINITION. STATUS and its two flags (10_state.md R26, R30). -/

namespace Sys2Proof.Machine

/-- STATUS.BUSY: a CYCLE is in flight (R26, R29). -/
def State.busy (s : State) : Bool := s.cyc.isSome

/-- The STATUS word: bit 0 BUSY, bit 1 ERR, bits 31:2 zero (R26). -/
def State.status (s : State) : Word := 0#30 ++ BitVec.ofBool s.err ++ BitVec.ofBool s.busy

end Sys2Proof.Machine
end

