-- ==== Sys2Proof/Machine/Memory.lean ====
section
/-! DEFINITION. OUTBUF's storage: bytes in one canonical form, and the word store and load built on them in
little-endian order (20_memory.md R42, R43, R48). -/

namespace Sys2Proof.Machine

/-- The canonical form: offsets strictly rising. An unlisted byte reads as no written value, so no entry can
equal what an unlisted offset reads as. -/
abbrev Memory.wf (m : Memory) : Prop := (m.map Prod.fst).Pairwise (· < ·)

/-- The byte written last at an offset, if any. -/
def Memory.read : Memory → Nat → Option Byte
  | [], _ => none
  | (a, b) :: m, k => if a = k then some b else Memory.read m k

/-- Store one byte, keeping the offsets rising. -/
def Memory.write : Memory → Nat → Byte → Memory
  | [], k, v => [(k, v)]
  | (a, b) :: m, k, v =>
    if k < a then (k, v) :: (a, b) :: m
    else if a = k then (k, v) :: m
    else (a, b) :: Memory.write m k v

/-- Store a word at the four bytes from an offset, least significant first (R48). -/
def Memory.writeWord (m : Memory) (k : Nat) (w : Word) : Memory :=
  Memory.write (Memory.write (Memory.write (Memory.write m k (Word.byte w 0)) (k + 1) (Word.byte w 1))
    (k + 2) (Word.byte w 2)) (k + 3) (Word.byte w 3)

/-- Load a word from the four bytes from an offset; a byte nothing has written reads as `free` says (R43). -/
def Memory.readWord (free : Nat → Byte) (m : Memory) (k : Nat) : Word :=
  Word.ofBytes ((Memory.read m k).getD (free k)) ((Memory.read m (k + 1)).getD (free (k + 1)))
    ((Memory.read m (k + 2)).getD (free (k + 2))) ((Memory.read m (k + 3)).getD (free (k + 3)))

end Sys2Proof.Machine
end

