-- ==== Sys2Proof/Machine/Ops.lean ====
section
/-! DEFINITION. The operations the meanings share: the error event, the stall, OUTBUF's access, the register
window's offsets. The block has no trap entry and no trap return (60_exceptions.md R124, R125): its one exception,
`signal IllegalCommand`, only sets STATUS.ERR (R122). -/

namespace Sys2Proof.Machine

/-! ### Offsets of the register window (20_memory.md R44) -/

def offCmd : Nat := 0x000
def offArg : Nat := 0x004
def offStatus : Nat := 0x008
def offPhaseInc : Nat := 0x010
def offPhase : Nat := 0x014
def offLfoTarget : Nat := 0x018
def offLfoCurrent : Nat := 0x01C
def offMorph : Nat := 0x020
def offShape : Nat := 0x024
def offOutbuf : Nat := 0x1000
def windowBytes : Nat := 0x5000

/-- The offset of OUTBUF[i] (R44). -/
def outbufOffset (i : Nat) : Nat := offOutbuf + 4 * i

/-- OutWrite(i, w) (00_scope.md R17, 20_memory.md R42). -/
def outWrite (m : Memory) (i : Nat) (w : Word) : Memory := Memory.writeWord m (outbufOffset i) w

/-- OUTBUF[i] as the host reads it; bytes never written since power-on are free (20_memory.md R43). -/
def State.outWord (c : Config) (s : State) (i : Nat) : Word :=
  Memory.readWord (c.unwritten s.powerUps) s.outbuf (outbufOffset i)

/-! ### The error event -/

/-- `signal IllegalCommand`: STATUS.ERR <- 1 and nothing else (60_exceptions.md R122). -/
def signalIllegal (s : State) : State := { s with err := true }

/-! ### The stall -/

/-- The host's write of a command word. -/
def cmdWrite (w : Word) : HostOp := .write .word offCmd w

/-- A command that may not be accepted yet: its write stays the host's next access, and nothing else changes
(30_encoding.md R60). -/
def State.hold (s : State) (i : Instr) : State := { s with pending := cmdWrite (encode i) :: s.pending }

/-- Accept a command that stalls while a CYCLE is in flight (R60). -/
def whenIdle (i : Instr) (effect : State → State) (s : State) : Host.Outcome State Fault Refusal :=
  if s.busy then .next (s.hold i) else .next (effect s)

end Sys2Proof.Machine
end

