-- ==== Sys2Proof/Machine/Reader.lean ====
section
/-! DEFINITION. The Folded Wavetable Reader, READ(x, m), stage by stage (40_wavetable_reader.md R72 to R82). `nan` gives
the pattern each operation's NaN takes (00_scope.md R13). -/

namespace Sys2Proof.Machine

/-- frac(x) = x −f trunc(x), the two operations drawing at the given sites (00_scope.md R14). -/
def frac (nanTrunc nanSub : NaNPattern) (x : F32) : F32 := F32.sub nanSub x (F32.trunc nanTrunc x)

/-- Stages 1 and 2: x0f = (2 × frac(x)) × 128 (R73, R74). -/
def tablePosition (nan : FpSite → NaNPattern) (x : F32) : F32 :=
  F32.mul (nan .scaleN) (F32.mul (nan .scaleTwo) F32.two (frac (nan .phaseTrunc) (nan .phaseFrac) x)) F32.n128

/-- Stage 3: x0p, the integer part of the table position (R75). -/
def tableIndex (nan : FpSite → NaNPattern) (x0f : F32) : Int := F32.toInt (F32.floor (nan .tableFloor) x0f)

/-- Stage 3: fr = x0f −f floor(x0f) (R75). -/
def tableWeight (nan : FpSite → NaNPattern) (x0f : F32) : F32 :=
  F32.sub (nan .weightSub) x0f (F32.floor (nan .tableFloor) x0f)

/-- Where READ looks: the two entries, and whether the branch is the mirrored one. -/
structure Fold where
  x0  : Nat
  x1  : Nat
  neg : Bool
  deriving DecidableEq, Repr

/-- Stages 4a and 4b: direct for 0 ≤ x0p < N, mirrored otherwise with the Euclidean remainder (R76, R77). -/
def foldIndex (x0p : Int) : Fold :=
  if 0 ≤ x0p ∧ x0p < 128 then ⟨x0p.toNat, x0p.toNat + 1, false⟩
  else ⟨128 - (x0p.emod 128).toNat, 128 - (x0p.emod 128).toNat - 1, true⟩

/-- Stage 5: the bank, toInt(trunc(m)) mod BANK_COUNT (R78). -/
def bankOf (c : Config) (nan : FpSite → NaNPattern) (m : F32) : Nat :=
  ((F32.toInt (F32.trunc (nan .bankTrunc) m)).emod c.bankCount).toNat

/-- WTRead(b, i) (20_memory.md R41). -/
def wtRead (c : Config) (b i : Nat) : F32 := c.wavetable b i

/-- Stage 7: the interpolation, in the form MIRROR_FRAC selects for the branch (R80). -/
def interpolate (c : Config) (nan : FpSite → NaNPattern) (neg : Bool) (fr v0 v1 : F32) : F32 :=
  match neg, c.mirrorFrac with
  | true, .recomputed =>
    F32.add (nan .lerpAdd) v1
      (F32.mul (nan .slopeMul) (F32.sub (nan .weightFlip) F32.one fr) (F32.sub (nan .slopeSub) v0 v1))
  | _, _ =>
    F32.add (nan .lerpAdd) v0 (F32.mul (nan .slopeMul) fr (F32.sub (nan .slopeSub) v1 v0))

/-- READ(x, m) (R82): the lookup of stage 6, the interpolation, and the sign of stage 8 (R79 to R81). -/
def readTable (c : Config) (nan : FpSite → NaNPattern) (x m : F32) : F32 :=
  let x0f := tablePosition nan x
  let f := foldIndex (tableIndex nan x0f)
  let b := bankOf c nan m
  let r := interpolate c nan f.neg (tableWeight nan x0f) (wtRead c b f.x0) (wtRead c b f.x1)
  if f.neg then F32.neg r else r

end Sys2Proof.Machine
end

