-- ==== Sys2Proof/Machine/Sample.lean ====
section
/-! DEFINITION. The sample step, the sequencer's one atomic step (41_block_generator.md R88 to R100). -/

namespace Sys2Proof.Machine

/-- Step a: the wave read and the first soft clip (R89, R90). -/
def rawSample (c : Config) (nan : FpSite → NaNPattern) (o : Osc) : F32 :=
  c.softClip (readTable c nan o.phase (F32.add (nan .morphAdd) o.morph o.lfoCurrent))

/-- Step b: the fold, 1 −f w for w ≤ 0, else the fractional part (R91). -/
def foldSample (nan : FpSite → NaNPattern) (w : F32) : F32 :=
  if F32.le w F32.zero then F32.sub (nan .foldSub) F32.one w
  else frac (nan .foldTrunc) (nan .foldFrac) w

/-- Step c: the sinusoidal remap, the shaping and the second soft clip (R93, R94). -/
def shapeSample (c : Config) (nan : FpSite → NaNPattern) (shape y : F32) : F32 :=
  c.softClip (F32.mul (nan .shapeMul) (c.sine y) shape)

/-- Steps a to d: the word a sample step writes (R89 to R95, R98). -/
def sampleWord (c : Config) (nan : FpSite → NaNPattern) (o : Osc) : Word :=
  toFixed (shapeSample c nan o.shape (foldSample nan (rawSample c nan o)))

/-- Step e: t = phase +f phaseInc, then t −f trunc(t) (R96). -/
def nextPhase (nan : FpSite → NaNPattern) (phase phaseInc : F32) : F32 :=
  frac (nan .stepTrunc) (nan .stepFrac) (F32.add (nan .stepAdd) phase phaseInc)

/-- Step f: the LFO ramp (R97). -/
def nextLfo (nan : FpSite → NaNPattern) (lfo step : F32) : F32 := F32.add (nan .rampAdd) lfo step

/-- The state registers after steps e and f. -/
def Osc.advance (nan : FpSite → NaNPattern) (o : Osc) (step : F32) : Osc :=
  { o with phase := nextPhase nan o.phase o.phaseInc, lfoCurrent := nextLfo nan o.lfoCurrent step }

/-- The completion: C.i + 1, and at C.F the CYCLE ends with BUSY cleared (R99). -/
def InFlight.advance (q : InFlight) : Option InFlight :=
  if q.index + 1 = q.frames then none else some { q with index := q.index + 1 }

/-- The state after one sample step of the CYCLE `q` in flight (R100). -/
def State.afterSample (c : Config) (s : State) (q : InFlight) : State :=
  { s with
    osc := s.osc.advance (c.nan s.draws) q.step
    cyc := q.advance
    outbuf := outWrite s.outbuf q.index (sampleWord c (c.nan s.draws) s.osc)
    draws := s.draws + 1 }

/-- SAMPLE_STEP, enabled while BUSY = 1 (R100); an idle sequencer changes nothing (60_exceptions.md R131). An index
outside OUTBUF, which no reachable state holds, faults. -/
def sampleStep (c : Config) (s : State) : Host.Outcome State Fault Refusal :=
  match s.cyc with
  | none => .next s
  | some q =>
    if q.index < c.maxFrames then .next (s.afterSample c q) else .fault (.outbufIndex q.index)

end Sys2Proof.Machine
end

