-- ==== Sys2Proof/Machine/Cycle.lean ====
section
/-! DEFINITION. The CYCLE command: its acceptance (41_block_generator.md R84 to R87). Its F sample steps are the
sequencer's (Sample.lean). -/

namespace Sys2Proof.Machine

/-- C.step = (lfoTarget −f lfoCurrent) /f float(F) (R86). -/
def rampStep (nan : FpSite → NaNPattern) (target current : F32) (frames : Nat) : F32 :=
  F32.div (nan .acceptDiv) (F32.sub (nan .acceptSub) target current) (F32.ofInt frames)

/-- CYCLE_ACCEPT (R86). -/
def acceptCycle (c : Config) (note fine : BitVec 8) (frames : Nat) (s : State) : State :=
  let target := fromFixed s.operand
  { s with
    osc := { s.osc with phaseInc := c.pitchToInc note fine, lfoTarget := target }
    cyc := some ⟨frames, 0, rampStep (c.nan s.draws) target s.osc.lfoCurrent frames⟩
    draws := s.draws + 1 }

/-- CYCLE on an idle block: nothing for F = 0 (R85), else the acceptance (R86). -/
def cycleEffect (c : Config) (note fine : BitVec 8) (frames : BitVec 12) (s : State) : State :=
  if frames.toNat = 0 then s else acceptCycle c note fine frames.toNat s

/-- CYCLE (R84). A FRAMES above MAX_FRAMES is an illegal word (30_encoding.md R66 e); it stalls while BUSY = 1
(R60). -/
def execCycle (note fine : BitVec 8) (frames : BitVec 12) (s : State) : Host.Outcome State Fault Refusal :=
  if Config.machine.maxFrames < frames.toNat then .next (signalIllegal s)
  else whenIdle (.cycle note fine frames) (cycleEffect Config.machine note fine frames) s

end Sys2Proof.Machine
end

