-- ==== Sys2Proof/Machine/HostCommands.lean ====
section
/-! DEFINITION. INIT, the note commands and the illegal words (43_host_commands.md R112 to R115). -/

namespace Sys2Proof.Machine

/-- The six state registers <- +0.0 and ERR <- 0; ARG and OUTBUF unchanged (R112). -/
def initEffect (s : State) : State := { s with osc := Osc.zero, err := false }

/-- INIT (R112); it stalls while BUSY = 1 (30_encoding.md R60). -/
def execInit (s : State) : Host.Outcome State Fault Refusal := whenIdle .init initEffect s

/-- NOTE_ON: accepted at any time, reads neither field, changes nothing (R113). -/
def execNoteOn (_note _fine : BitVec 8) (s : State) : Host.Outcome State Fault Refusal := .next s

/-- NOTE_OFF: as NOTE_ON (R114). -/
def execNoteOff (_note _fine : BitVec 8) (s : State) : Host.Outcome State Fault Refusal := .next s

/-- An illegal word: signal IllegalCommand, at any time; a CYCLE in flight is not disturbed (R115). -/
def execIllegal (_word : Word) (s : State) : Host.Outcome State Fault Refusal := .next (signalIllegal s)

end Sys2Proof.Machine
end

