-- ==== Sys2Proof/Machine/Params.lean ====
section
/-! DEFINITION. The Parameter Store (42_parameter_store.md R105 to R111). Each PARAM is one atomic step, accepted at
any time; no value is checked (R109). The NaN pattern a PARAM stores depends on the slot and the operand alone, so
that repeating it changes nothing (R110, log entry 5). -/

namespace Sys2Proof.Machine

/-- The value PARAM_MORPH stores: MORPH_SCALE ×f v (R106). -/
def morphValue (c : Config) (v : F32) : F32 := F32.mul (c.nanParam 0#8 v) c.morphScale v

/-- The value PARAM_SHAPE stores: 1.0 +f v (R107). -/
def shapeValue (c : Config) (v : F32) : F32 := F32.add (c.nanParam 1#8 v) F32.one v

/-- S.morph <- MORPH_SCALE ×f v (R106). -/
def setMorph (c : Config) (s : State) : State :=
  { s with osc := { s.osc with morph := morphValue c s.operand } }

/-- S.shape <- 1.0 +f v (R107). -/
def setShape (c : Config) (s : State) : State :=
  { s with osc := { s.osc with shape := shapeValue c s.operand } }

/-- PARAM_MORPH (R106). -/
def execParamMorph (s : State) : Host.Outcome State Fault Refusal := .next (setMorph Config.machine s)

/-- PARAM_SHAPE (R107). -/
def execParamShape (s : State) : Host.Outcome State Fault Refusal := .next (setShape Config.machine s)

/-- PARAM_NOP: no state change, no error, whatever the slot and ARG hold (R108). -/
def execParamNop (_slot : BitVec 8) (s : State) : Host.Outcome State Fault Refusal := .next s

end Sys2Proof.Machine
end

