-- ==== Sys2Proof/Machine/Dispatch.lean ====
section
/-! DEFINITION. One arm per command: the effect of a command word in the step that accepts it. -/

namespace Sys2Proof.Machine

/-- What a command does when the host's write of it is performed (30_encoding.md R60, R61). -/
def exec (i : Instr) (s : State) : Host.Outcome State Fault Refusal :=
  match i with
  | .init => Sys2Proof.Machine.execInit s
  | .cycle note fine frames => Sys2Proof.Machine.execCycle note fine frames s
  | .paramMorph => Sys2Proof.Machine.execParamMorph s
  | .paramShape => Sys2Proof.Machine.execParamShape s
  | .paramNop slot => Sys2Proof.Machine.execParamNop slot s
  | .noteOn note fine => Sys2Proof.Machine.execNoteOn note fine s
  | .noteOff note fine => Sys2Proof.Machine.execNoteOff note fine s
  | .illegal word => Sys2Proof.Machine.execIllegal word s

end Sys2Proof.Machine
end

