-- ==== Sys2Proof/Machine/Port.lean ====
section
/-! DEFINITION. The host's side of the register window (20_memory.md R44 to R52), the host's step, and which agent
moves next (R53, 30_encoding.md R60, 70_reset_and_hazards.md R137 to R141). -/

namespace Sys2Proof.Machine

/-! ### The register window -/

/-- The window offset of an address of the host's space, where the window holds it (R44, R51). -/
def windowOffset (c : Config) (address : Nat) : Option Nat :=
  if c.base ≤ address ∧ address < c.base + windowBytes then some (address - c.base) else none

/-- Whether an offset lies in OUTBUF's range (R44). -/
def inOutbuf (c : Config) (offset : Nat) : Bool :=
  decide (offOutbuf ≤ offset) && decide (offset < offOutbuf + 4 * c.maxFrames)

/-- The word at a word-aligned offset of the window: CMD and the reserved offsets read as 0 (R44 to R46). -/
def readReg (c : Config) (s : State) (offset : Nat) : Word :=
  if offset = offArg then s.arg
  else if offset = offStatus then s.status
  else if offset = offPhaseInc then s.osc.phaseInc
  else if offset = offPhase then s.osc.phase
  else if offset = offLfoTarget then s.osc.lfoTarget
  else if offset = offLfoCurrent then s.osc.lfoCurrent
  else if offset = offMorph then s.osc.morph
  else if offset = offShape then s.osc.shape
  else if inOutbuf c offset then s.outWord c ((offset - offOutbuf) / 4)
  else 0#32

/-- The window as a byte-addressed bus shows it: byte `offset` of the register that holds it, least significant
byte first (R48). The host accesses whole words only (R47). -/
def windowByte (c : Config) (s : State) (offset : Nat) : Byte :=
  Word.byte (readReg c s (offset - offset % 4)) (offset % 4)

/-- A write at a word-aligned offset: CMD issues the command, ARG takes the word, every other write is ignored
(R44, R46, R50). -/
def writeReg (offset : Nat) (data : Word) (s : State) : Host.Outcome State Fault Refusal :=
  if offset = offCmd then Sys2Proof.Machine.exec (decode data) s
  else if offset = offArg then .next { s with arg := data }
  else .next s

/-- A read returns the word to the host and changes nothing of the block (R50). -/
def State.logRead (c : Config) (s : State) (offset : Nat) : State :=
  { s with reads := ⟨offset, readReg c s offset⟩ :: s.reads }

/-- Whether the block defines an access: 32 bits wide, word-aligned, inside the window (R44, R47). -/
def accessCheck (size : AccessSize) (offset : Nat) : Option Refusal :=
  if size = .word ∧ offset % 4 = 0 then
    if offset < windowBytes then none else some (.outsideWindow offset)
  else some (.notAlignedWord size offset)

/-! ### The host's step -/

/-- One poll of WAIT: read STATUS, and stay in WAIT while bit 0 is 1 (30_encoding.md R70). -/
def pollStatus (c : Config) (s : State) : State :=
  let t := s.logRead c offStatus
  if s.busy then { t with pending := .wait :: t.pending } else t

/-- Power-on reset: the block at its reset state, its OUTBUF unspecified anew; the host's own side goes on
(70_reset_and_hazards.md R132). -/
def State.powerOn (s : State) : State :=
  { State.reset with
    pending := s.pending, turns := s.turns, reads := s.reads, draws := s.draws, powerUps := s.powerUps + 1 }

/-- Perform one host operation, already taken from the pending ones. -/
def hostOp (op : HostOp) (s : State) : Host.Outcome State Fault Refusal :=
  match op with
  | .write size offset data =>
    match accessCheck size offset with
    | some r => .refused r
    | none => writeReg offset data s
  | .read size offset =>
    match accessCheck size offset with
    | some r => .refused r
    | none => .next (s.logRead Config.machine offset)
  | .wait => .next (pollStatus Config.machine s)
  | .powerOn => .next s.powerOn

/-- The host performs its next operation; with none pending nothing happens. -/
def hostStep (s : State) : Host.Outcome State Fault Refusal :=
  match s.pending with
  | [] => .next s
  | op :: rest => hostOp op { s with pending := rest }

/-! ### Which agent moves -/

/-- The commands that wait for BUSY = 0: a legal INIT and a legal CYCLE (30_encoding.md R60). -/
def waitsForIdle (i : Instr) : Bool :=
  match i with
  | .init => true
  | .cycle _ _ _ => true
  | .paramMorph => false
  | .paramShape => false
  | .paramNop _ => false
  | .noteOn _ _ => false
  | .noteOff _ _ => false
  | .illegal _ => false

/-- Whether an operation is a stalled write of INIT or CYCLE (R60). -/
def State.stalls (s : State) (op : HostOp) : Bool :=
  match op with
  | .write size offset data => s.busy && size == .word && offset == offCmd && waitsForIdle (decode data)
  | .read _ _ => false
  | .wait => false
  | .powerOn => false

/-- The host's step is enabled: it has an operation, and that does not stall. -/
def State.hostReady (s : State) : Bool :=
  match s.pending with
  | [] => false
  | op :: _ => !s.stalls op

/-- The agent that moves and the schedule left over. Where both can move the schedule decides; once it is used
up the sequencer moves, so that every CYCLE completes (R53, R141). -/
def State.nextAgent (s : State) : Option (Agent × List Agent) :=
  match s.hostReady, s.busy with
  | false, false => none
  | true, false => some (.host, s.turns)
  | false, true => some (.sequencer, s.turns)
  | true, true =>
    match s.turns with
    | [] => some (.sequencer, [])
    | a :: rest => some (a, rest)

/-- The agent's step. -/
def agentStep (a : Agent) (s : State) : Host.Outcome State Fault Refusal :=
  match a with
  | .host => hostStep s
  | .sequencer => sampleStep Config.machine s

/-- Place the host's write of a command word so that it is the next step's. -/
def State.placeCommand (s : State) (w : Word) : State :=
  { s with
    pending := cmdWrite w :: s.pending
    turns := if s.busy then .host :: s.turns else s.turns }

end Sys2Proof.Machine
end

