-- ==== Sys2Proof/Machine/Step.lean ====
section
/-! DEFINITION. One step of the block with its host: a host access, with the acceptance of a command it may be, or one
sample step (20_memory.md R53). An idle block whose host has nothing left to do stays as it is (60_exceptions.md
R131, 70_reset_and_hazards.md R142). -/

namespace Sys2Proof.Machine

/-- The step. -/
def step (s : State) : Host.Outcome State Fault Refusal :=
  match s.nextAgent with
  | none => .next s
  | some (a, rest) => agentStep a { s with turns := rest }

/-- The state whose next step is the host's write of the command word with table bits `w` to CMD: the block
fetches nothing, so this stands for the host that issues the word (10_state.md R28, log entry 9). In a state with
a CYCLE in flight, a legal INIT or CYCLE still stalls (30_encoding.md R60). -/
def State.withFetchWord (s : State) (nbits w : Nat) : State :=
  s.placeCommand (BitVec.ofNat 32 (w % 2 ^ nbits))

end Sys2Proof.Machine
end

