-- ==== Sys2Proof/Machine/Assemble.lean ====
section
/-! DEFINITION. The assembler's lines and the host accesses they stand for (30_encoding.md R69, R70). -/

namespace Sys2Proof.Machine

/-- A line of a host program: the commands, the host primitives and the pseudo-instructions. -/
inductive AsmLine where
  | init
  | cycle (note fine : BitVec 8) (frames : BitVec 12) (q31 : Word)
  | param (slot : BitVec 8) (value : F32)
  | noteOn (note fine : BitVec 8)
  | noteOff (note fine : BitVec 8)
  | wr (offset : Nat) (word : Word)
  | rd (offset : Nat)
  | wait
  | setMorph (value : F32)
  | setShape (value : F32)
  | run (note fine : BitVec 8) (frames : BitVec 12) (q31 : Word)
  deriving DecidableEq, Repr

/-- An `<f32>` literal: the f32 nearest to ±num/den, ties to even (R69). -/
def f32Literal (neg : Bool) (num den : Nat) : F32 := F32.pack neg (F32.roundMag (num * 2 ^ 149) den)

/-- A command with an operand: WR ARG, then WR CMD (R70). -/
def issueWith (operand cmd : Word) : List HostOp := [.write .word offArg operand, cmdWrite cmd]

/-- The PARAM word of a slot (R69). -/
def paramWord (slot : BitVec 8) : Word := 0#20 ++ slot ++ 0x3#4

/-- The host accesses of a line, in order (R69, R70). -/
def assembleLine (l : AsmLine) : List HostOp :=
  match l with
  | .init => [cmdWrite (encode .init)]
  | .cycle note fine frames q31 => issueWith q31 (encode (.cycle note fine frames))
  | .param slot value => issueWith value (paramWord slot)
  | .noteOn note fine => [cmdWrite (encode (.noteOn note fine))]
  | .noteOff note fine => [cmdWrite (encode (.noteOff note fine))]
  | .wr offset word => [.write .word offset word]
  | .rd offset => [.read .word offset]
  | .wait => [.wait]
  | .setMorph value => issueWith value (paramWord 0#8)
  | .setShape value => issueWith value (paramWord 1#8)
  | .run note fine frames q31 => issueWith q31 (encode (.cycle note fine frames)) ++ [.wait]

/-- The host accesses of a program. -/
def assemble (p : List AsmLine) : List HostOp := p.flatMap assembleLine

end Sys2Proof.Machine
end

