-- ==== Sys2Proof/Safety.lean ====
section
/-! DEFINITION. What claims are stated in: the invariant of the states a run meets, the value ranges the rules name,
and what it means for a pattern to be an exact result correctly rounded. -/

namespace Sys2Proof

/-! ### Values, in units of 2^-149 -/

/-- 1.0 in units. -/
abbrev F32.unitOne : Int := 2 ^ 149

/-- `lo ≤ x ≤ hi` in units, for a finite x. -/
abbrev F32.Between (lo hi : Int) (x : F32) : Prop := F32.isFinite x = true ∧ lo ≤ F32.val x ∧ F32.val x ≤ hi

/-- `lo ≤ x < hi` in units, for a finite x. -/
abbrev F32.InRange (lo hi : Int) (x : F32) : Prop := F32.isFinite x = true ∧ lo ≤ F32.val x ∧ F32.val x < hi

/-- `r` is a finite value nearest to num/den units, and of two such values the one with an even fraction
(00_scope.md R11, roundTiesToEven). -/
def F32.NearestEven (num : Int) (den : Nat) (r : F32) : Prop :=
  F32.isFinite r = true ∧
    ∀ y, F32.isFinite y = true →
      |F32.val r * den - num| ≤ |F32.val y * den - num| ∧
      (|F32.val r * den - num| = |F32.val y * den - num| → F32.val y ≠ F32.val r → F32.frac r % 2 = 0)

/-- Half a last place above the greatest finite value, in units: from here on a result overflows. -/
abbrev F32.overflowBound : Int := (2 ^ 25 - 1) * 2 ^ 252

/-- `r` is num/den units rounded once: the infinity of its sign on overflow, else the nearest value (R11). -/
def F32.RoundsTo (num : Int) (den : Nat) (r : F32) : Prop :=
  if F32.overflowBound * den ≤ |num| then
    F32.isInf r = true ∧ (F32.sign r = true ↔ num < 0)
  else F32.NearestEven num den r

namespace Machine

/-! ### The invariant -/

/-- Whether a word of OUTBUF has been written since power-on. -/
abbrev State.wordWritten (s : State) (i : Nat) : Prop :=
  ∀ k, k < 4 → (Memory.read s.outbuf (outbufOffset i + k)).isSome = true

/-- What every state of a run meets: OUTBUF's storage is canonical, lies in OUTBUF, and holds whole words; a CYCLE
in flight has 0 ≤ C.i < C.F ≤ MAX_FRAMES and has written its words below C.i. -/
structure State.Inv (s : State) : Prop where
  canonical : Memory.wf s.outbuf
  inBuffer  : ∀ a, (Memory.read s.outbuf a).isSome = true →
                offOutbuf ≤ a ∧ a < outbufOffset Config.machine.maxFrames
  wholeWord : ∀ i k, k < 4 → (Memory.read s.outbuf (outbufOffset i + k)).isSome = true → s.wordWritten i
  inFlight  : ∀ q, s.cyc = some q → q.index < q.frames ∧ q.frames ≤ Config.machine.maxFrames
  produced  : ∀ q, s.cyc = some q → ∀ i, i < q.index → s.wordWritten i

/-- The document's phase invariant, 0 ≤ phase < 1 (10_state.md R24, 41_block_generator.md R103). -/
abbrev State.PhaseInUnit (s : State) : Prop := F32.InRange 0 F32.unitOne s.osc.phase

/-- A phase increment that is finite and not below zero (R103). -/
abbrev State.IncNonNeg (s : State) : Prop := F32.isFinite s.osc.phaseInc = true ∧ 0 ≤ F32.val s.osc.phaseInc

/-- The document's morph invariant, 0 ≤ morph < BANK_COUNT (10_state.md R24). -/
abbrev State.MorphInBanks (c : Config) (s : State) : Prop :=
  F32.InRange 0 ((c.bankCount : Int) * F32.unitOne) s.osc.morph

/-- The next step is the host's, and it performs `op` (20_memory.md R53): an operation that stalls or only waits
its turn is not performed. -/
def State.hostPerforms (s : State) (op : HostOp) : Prop :=
  (∃ rest, s.pending = op :: rest) ∧ ∃ turns, s.nextAgent = some (.host, turns)

/-- The next step accepts the command `i` (30_encoding.md R60). -/
def State.accepts (s : State) (i : Instr) : Prop := ∃ w, s.hostPerforms (cmdWrite w) ∧ decode w = i

/-- `n` sample steps of the sequencer alone (41_block_generator.md R88). -/
def sampleRun (c : Config) : Nat → State → Host.Outcome State Fault Refusal
  | 0, s => .next s
  | n + 1, s =>
    match sampleStep c s with
    | .next t => sampleRun c n t
    | .fault r => .fault r
    | .refused r => .refused r

/-- `n` steps of the block with its host. -/
def stepRun : Nat → State → Host.Outcome State Fault Refusal
  | 0, s => .next s
  | n + 1, s =>
    match step s with
    | .next t => stepRun n t
    | .fault r => .fault r
    | .refused r => .refused r

/-- The LFO value after n additions of the step (R102); `nan` gives each addition's pattern. -/
def lfoAfter (nan : Nat → NaNPattern) (a d : F32) : Nat → F32
  | 0 => a
  | n + 1 => F32.add (nan n) (lfoAfter nan a d n) d

end Machine
end Sys2Proof
end

