-- ==== Sys2Proof/Certificates/Slice0/Obligations.lean ====
section
/-! DEFINITION. The statements about the model. Values are in units of 2^-149 (F32.val), so 1.0 is F32.unitOne. A
statement over a configuration or a NaN pattern holds for every one. -/

open Sys2Proof Sys2Proof.Machine

/-! ### Encoding -/

/-- 30_encoding.md R58, R61, R68: the decoder gives every well-formed command back from its word, for every MAX_FRAMES,
and from the word's bytes as R48 lays them out. -/
def Obligations.DecodeOfEncodeGivesTheCommandBack : Prop :=
  (∀ maxFrames i, Instr.wfWith maxFrames i = true → decodeWith maxFrames (encode i) = i) ∧
  (∀ i rest, Instr.wf i = true → decodeBytes (wordBytes (encode i) ++ rest) = .ok (i, rest))

/-- 30_encoding.md R57, R68: every 32-bit word stands for one well-formed command, whose word it is. -/
def Obligations.EveryWordIsTheWordOfItsCommand : Prop :=
  ∀ maxFrames w, encode (decodeWith maxFrames w) = w ∧ Instr.wfWith maxFrames (decodeWith maxFrames w) = true

/-- 30_encoding.md R66: the illegal words are those of cases (a) to (e); one signals IllegalCommand and has no other
effect; case (e) needs MAX_FRAMES < 4095. -/
def Obligations.IllegalWordsAreTheFiveCases : Prop :=
  (∀ maxFrames w, decodeWith maxFrames w = .illegal w ↔
    (w.toNat % 16 = 0 ∨ 6 ≤ w.toNat % 16) ∨
    (w.toNat % 16 = 1 ∧ w.toNat / 2 ^ 4 ≠ 0) ∨
    (w.toNat % 16 = 3 ∧ w.toNat / 2 ^ 12 ≠ 0) ∨
    ((w.toNat % 16 = 4 ∨ w.toNat % 16 = 5) ∧ w.toNat / 2 ^ 4 % 2 ^ 12 ≠ 0) ∨
    (w.toNat % 16 = 2 ∧ maxFrames < w.toNat / 2 ^ 4 % 2 ^ 12)) ∧
  (∀ w s, decode w = .illegal w → exec (decode w) s = .next { s with err := true }) ∧
  (∀ maxFrames (w : Word), maxFrames < w.toNat / 2 ^ 4 % 2 ^ 12 → maxFrames < 4095)

/-- 30_encoding.md R68: the illegal cases first, then OP, then for OP = 0x3 SLOT. -/
def Obligations.DecoderSelectsByOpThenSlot : Prop :=
  ∀ w : Word,
    (Word.isIllegal Config.machine.maxFrames w = true → decode w = .illegal w) ∧
    (Word.isIllegal Config.machine.maxFrames w = false →
      (w.toNat % 16 = 1 → decode w = .init) ∧
      (w.toNat % 16 = 2 → ∃ note fine frames, decode w = .cycle note fine frames ∧
        note.toNat = w.toNat / 2 ^ 24 ∧ fine.toNat = w.toNat / 2 ^ 16 % 2 ^ 8 ∧
        frames.toNat = w.toNat / 2 ^ 4 % 2 ^ 12) ∧
      (w.toNat % 16 = 3 →
        (w.toNat / 2 ^ 4 % 2 ^ 8 = 0 → decode w = .paramMorph) ∧
        (w.toNat / 2 ^ 4 % 2 ^ 8 = 1 → decode w = .paramShape) ∧
        (2 ≤ w.toNat / 2 ^ 4 % 2 ^ 8 → ∃ slot, decode w = .paramNop slot ∧ slot.toNat = w.toNat / 2 ^ 4 % 2 ^ 8)) ∧
      (w.toNat % 16 = 4 → ∃ note fine, decode w = .noteOn note fine ∧
        note.toNat = w.toNat / 2 ^ 24 ∧ fine.toNat = w.toNat / 2 ^ 16 % 2 ^ 8) ∧
      (w.toNat % 16 = 5 → ∃ note fine, decode w = .noteOff note fine ∧
        note.toNat = w.toNat / 2 ^ 24 ∧ fine.toNat = w.toNat / 2 ^ 16 % 2 ^ 8))

/-- Words written out from 30_encoding.md R58 and R61 stand for their commands. -/
def Obligations.WrittenOutWordsDecode : Prop :=
  decode 0x00000001#32 = .init ∧
  decode 0x3C80FFF2#32 = .cycle 60#8 128#8 4095#12 ∧
  decode 0x00000003#32 = .paramMorph ∧
  decode 0x00000013#32 = .paramShape ∧
  decode 0x00000FF3#32 = .paramNop 255#8 ∧
  decode 0x3C000004#32 = .noteOn 60#8 0#8 ∧
  decode 0x3C000005#32 = .noteOff 60#8 0#8 ∧
  decode 0x00001003#32 = .illegal 0x00001003#32

/-! ### A step runs the command the host writes -/

/-- 30_encoding.md R60, 20_memory.md R53: where the host moves and its next access is the write of a command word, the
step is exec of the decoded command on the state with that access taken; that is so on an idle block, and
with a CYCLE in flight when the schedule names the host and the command does not wait for BUSY = 0. The word
placed by withFetchWord is run by the very next step of an idle block. The schedule and the pending accesses are the
model's form of R53 (log entries 8 and 9, DESIGN CHOICE). -/
def Obligations.StepRunsTheDecodedCommand : Prop :=
  (∀ s w rest, s.pending = cmdWrite w :: rest → s.busy = false →
    step s = exec (decode w) { s with pending := rest }) ∧
  (∀ s w rest turns, s.pending = cmdWrite w :: rest → s.busy = true → s.turns = .host :: turns →
    decode w ≠ .init → (∀ note fine frames, decode w ≠ .cycle note fine frames) →
    step s = exec (decode w) { s with pending := rest, turns := turns }) ∧
  (∀ s w, s.busy = false → w < 2 ^ 32 → step (s.withFetchWord 32 w) = exec (decode (BitVec.ofNat 32 w)) s)

/-- 30_encoding.md R60: a legal INIT or CYCLE written while BUSY = 1 is not performed; the sequencer moves, the write
stays the host's next access. The last clause is the model's own choice and no rule of the spec (log entry 9, DESIGN
CHOICE): exec of such a command in a busy state only puts the write back at the head of the pending accesses. -/
def Obligations.InitAndCycleStallWhileBusy : Prop :=
  (∀ s w rest, s.pending = cmdWrite w :: rest → s.busy = true →
    (decode w = .init ∨ ∃ note fine frames, decode w = .cycle note fine frames) →
    step s = sampleStep Config.machine s ∧ ∀ t, step s = .next t → t.pending = s.pending) ∧
  (∀ s, s.busy = true →
    exec .init s = .next { s with pending := cmdWrite (encode .init) :: s.pending } ∧
    ∀ note fine frames, exec (.cycle note fine frames) s =
      .next { s with pending := cmdWrite (encode (.cycle note fine frames)) :: s.pending })

/-! ### The commands: what each does, and that it completes -/

/-- 43_host_commands.md R112: on an idle block INIT sets the six registers to +0.0 and clears ERR, leaves everything
else, and a second INIT changes nothing more. -/
def Obligations.InitZeroesTheRegistersAndClearsErr : Prop :=
  ∀ s, s.busy = false → ∃ t, exec .init s = .next t ∧
    t = { s with osc := ⟨0#32, 0#32, 0#32, 0#32, 0#32, 0#32⟩, err := false } ∧ exec .init t = .next t

/-- 41_block_generator.md R85: a CYCLE with F = 0 has no effect. -/
def Obligations.CycleOfNoFramesHasNoEffect : Prop :=
  ∀ note fine s, s.busy = false → exec (.cycle note fine 0#12) s = .next s

/-- 41_block_generator.md R86: the acceptance of a CYCLE with F ≥ 1, in the spec's order, with the new lfoTarget and
the old lfoCurrent; float(F) is exact. The NaN patterns are the free draws of 00_scope.md R13. -/
def Obligations.CycleAcceptance : Prop :=
  ∀ note fine frames s, s.busy = false → frames ≠ 0#12 →
    exec (.cycle note fine frames) s = .next { s with
      osc := { s.osc with
        phaseInc := Config.machine.pitchToInc note fine
        lfoTarget := fromFixed s.arg }
      cyc := some {
        frames := frames.toNat
        index := 0
        step := F32.div (Config.machine.nan s.draws .acceptDiv)
          (F32.sub (Config.machine.nan s.draws .acceptSub) (fromFixed s.arg) s.osc.lfoCurrent)
          (F32.ofInt frames.toNat) }
      draws := s.draws + 1 } ∧
    F32.isFinite (F32.ofInt frames.toNat) = true ∧ F32.val (F32.ofInt frames.toNat) = frames.toNat * F32.unitOne

/-- 42_parameter_store.md R106: PARAM_MORPH stores MORPH_SCALE ×f v, whatever v and BUSY are; with v in [0, 1] the
result is in [0, BANK_COUNT); the corner cases and the worked example. R106's corner case v = 0.0 is stated for a
scale without the sign bit: the scale −0.0, which R8 admits for one bank, gives −0.0 by the formula (log entry 3,
DEDUCED). -/
def Obligations.ParamMorphStoresTheScaledValue : Prop :=
  (∀ s, exec .paramMorph s = .next { s with osc := { s.osc with
    morph := F32.mul (Config.machine.nanParam 0#8 s.arg) Config.machine.morphScale s.arg } }) ∧
  (∀ c v, c.Valid → F32.Between 0 F32.unitOne v →
    F32.InRange 0 ((c.bankCount : Int) * F32.unitOne) (morphValue c v)) ∧
  (∀ c, c.Valid → F32.sign c.morphScale = false → morphValue c 0x00000000#32 = 0x00000000#32) ∧
  (∀ c, c.morphScale = 0x80000000#32 → morphValue c 0x00000000#32 = 0x80000000#32) ∧
  (∀ c, c.Valid → 0 < F32.val c.morphScale → morphValue c 0x80000000#32 = 0x80000000#32) ∧
  (∀ c v, F32.isNaN v = true → F32.isNaN (morphValue c v) = true) ∧
  (∀ c, c.morphScale = 0x3FC00000#32 →
    morphValue c 0x3F000000#32 = 0x3F400000#32 ∧ morphValue c 0x40000000#32 = 0x40400000#32) ∧
  (∀ c nan m, 1 ≤ c.bankCount → bankOf c nan m < c.bankCount)

/-- 42_parameter_store.md R107: PARAM_SHAPE stores 1.0 +f v; v in [0, 1] gives a value in [1, 2]; the corner cases. -/
def Obligations.ParamShapeAddsOne : Prop :=
  (∀ s, exec .paramShape s = .next { s with osc := { s.osc with
    shape := F32.add (Config.machine.nanParam 1#8 s.arg) 0x3F800000#32 s.arg } }) ∧
  (∀ c v, F32.Between 0 F32.unitOne v → F32.Between F32.unitOne (2 * F32.unitOne) (shapeValue c v)) ∧
  (∀ c, shapeValue c 0x00000000#32 = 0x3F800000#32 ∧ shapeValue c 0x3F800000#32 = 0x40000000#32 ∧
    shapeValue c 0x33800000#32 = 0x3F800000#32 ∧ shapeValue c 0xBF800000#32 = 0x00000000#32) ∧
  (∀ c v, F32.isNaN v = true → F32.isNaN (shapeValue c v) = true)

/-- 42_parameter_store.md R108: a PARAM of a slot from 2 to 255 is accepted, changes nothing and sets no error. -/
def Obligations.ParamNopChangesNothing : Prop :=
  (∀ slot s, exec (.paramNop slot) s = .next s) ∧
  (∀ w : Word, w.toNat % 16 = 3 → w.toNat / 2 ^ 12 = 0 → 2 ≤ w.toNat / 2 ^ 4 → ∀ s, exec (decode w) s = .next s) ∧
  (∀ s, exec (decode 0x00000073#32) s = .next s)

/-- 43_host_commands.md R113, R114: the note commands are accepted at any time and change no state, whatever NOTE and
FINE are; a word of theirs with CMD[15:4] ≠ 0 is illegal. -/
def Obligations.NoteCommandsChangeNothing : Prop :=
  (∀ note fine s, exec (.noteOn note fine) s = .next s ∧ exec (.noteOff note fine) s = .next s) ∧
  (∀ w : Word, (w.toNat % 16 = 4 ∨ w.toNat % 16 = 5) → w.toNat / 2 ^ 4 % 2 ^ 12 ≠ 0 → decode w = .illegal w) ∧
  (∀ s, exec (decode 0x3C000004#32) s = .next s ∧ exec (decode 0x3C000005#32) s = .next s)

/-- 43_host_commands.md R115: an illegal word sets ERR and does nothing else, at any time; it does not disturb a CYCLE in
flight (the sample step before it and after it lead to the same state). -/
def Obligations.IllegalWordOnlySetsErr : Prop :=
  (∀ w s, exec (.illegal w) s = .next { s with err := true }) ∧
  (∀ c w s t, sampleStep c s = .next t →
    ∃ u, exec (.illegal w) s = .next u ∧ ∃ v, sampleStep c u = .next v ∧ exec (.illegal w) t = .next v) ∧
  (∀ s, s.busy = false → ∃ t, exec (decode 0x00000000#32) s = .next t ∧ t.status = 0x00000002#32)

/-- 42_parameter_store.md R110: a second PARAM with the same slot and the same ARG word writes the same pattern. -/
def Obligations.ParamIsIdempotent : Prop :=
  ∀ s u, u.arg = s.arg →
    (∃ t v, exec .paramMorph s = .next t ∧ exec .paramMorph u = .next v ∧ v.osc.morph = t.osc.morph ∧
      exec .paramMorph t = .next t) ∧
    (∃ t v, exec .paramShape s = .next t ∧ exec .paramShape u = .next v ∧ v.osc.shape = t.osc.shape ∧
      exec .paramShape t = .next t)

/-! ### Frames -/

/-- No command stores to OUTBUF, changes ARG, what reads returned, or the schedule (20_memory.md R42,
10_state.md R27). -/
def Obligations.CommandsLeaveOutbufAndArgAlone : Prop :=
  ∀ i s t, exec i s = .next t →
    (∀ a, Memory.read t.outbuf a = Memory.read s.outbuf a) ∧ t.arg = s.arg ∧ t.reads = s.reads ∧
    t.turns = s.turns ∧ t.powerUps = s.powerUps

/-- The frame of each command that is accepted: the registers and flags it does not write (10_state.md R20). -/
def Obligations.CommandsWriteOnlyTheirRegisters : Prop :=
  (∀ s t, exec .paramMorph s = .next t →
    t = { s with osc := { s.osc with morph := t.osc.morph } }) ∧
  (∀ s t, exec .paramShape s = .next t →
    t = { s with osc := { s.osc with shape := t.osc.shape } }) ∧
  (∀ s t, s.busy = false → exec .init s = .next t →
    t.cyc = none ∧ t.outbuf = s.outbuf ∧ t.pending = s.pending ∧ t.draws = s.draws ∧ t.arg = s.arg) ∧
  (∀ note fine frames s t, s.busy = false → exec (.cycle note fine frames) s = .next t →
    t.osc.phase = s.osc.phase ∧ t.osc.lfoCurrent = s.osc.lfoCurrent ∧ t.osc.morph = s.osc.morph ∧
    t.osc.shape = s.osc.shape ∧ t.err = s.err ∧ t.outbuf = s.outbuf ∧ t.pending = s.pending) ∧
  (∀ i s t, exec i s = .next t → i ≠ .init → (∀ w, i ≠ .illegal w) → t.err = s.err) ∧
  (∀ i s t, exec i s = .next t → (∀ note fine frames, i ≠ .cycle note fine frames) → t.cyc = s.cyc)

/-- 41_block_generator.md R100: SAMPLE_STEP whole, and everything it leaves alone. -/
def Obligations.SampleStepFollowsTheSpec : Prop :=
  ∀ c s q, s.cyc = some q → q.index < c.maxFrames →
    let nan := c.nan s.draws
    let m := F32.add (nan .morphAdd) s.osc.morph s.osc.lfoCurrent
    let w := c.softClip (readTable c nan s.osc.phase m)
    let y := if F32.le w 0x00000000#32 = true then F32.sub (nan .foldSub) 0x3F800000#32 w
      else F32.sub (nan .foldFrac) w (F32.trunc (nan .foldTrunc) w)
    let out := c.softClip (F32.mul (nan .shapeMul) (c.sine y) s.osc.shape)
    let t := F32.add (nan .stepAdd) s.osc.phase s.osc.phaseInc
    ∃ s', sampleStep c s = .next s' ∧
      s'.outWord c q.index = toFixed out ∧
      (∀ a, a < outbufOffset q.index ∨ outbufOffset q.index + 4 ≤ a →
        Memory.read s'.outbuf a = Memory.read s.outbuf a) ∧
      s'.osc.phase = F32.sub (nan .stepFrac) t (F32.trunc (nan .stepTrunc) t) ∧
      s'.osc.lfoCurrent = F32.add (nan .rampAdd) s.osc.lfoCurrent q.step ∧
      s'.cyc = (if q.index + 1 = q.frames then none else some { q with index := q.index + 1 }) ∧
      s'.osc.phaseInc = s.osc.phaseInc ∧ s'.osc.lfoTarget = s.osc.lfoTarget ∧ s'.osc.morph = s.osc.morph ∧
      s'.osc.shape = s.osc.shape ∧ s'.err = s.err ∧ s'.arg = s.arg ∧ s'.pending = s.pending ∧
      s'.turns = s.turns ∧ s'.reads = s.reads ∧ s'.powerUps = s.powerUps

/-- 42_parameter_store.md R111: PARAM never writes the four block registers, no CYCLE step writes morph or shape, and over
every step each state register has one writer apart from INIT and power-on reset: PARAM_MORPH and PARAM_SHAPE for their
own, the acceptance of a CYCLE for phaseInc and lfoTarget, a sample step for phase and lfoCurrent. Only the
acceptance of INIT and power-on itself are left out: a step at which INIT stalls, or at which either waits its turn,
is covered. -/
def Obligations.EachRegisterHasOneWriter : Prop :=
  (∀ s t, (exec .paramMorph s = .next t ∨ exec .paramShape s = .next t ∨ ∃ slot, exec (.paramNop slot) s = .next t) →
    t.osc.phaseInc = s.osc.phaseInc ∧ t.osc.phase = s.osc.phase ∧ t.osc.lfoTarget = s.osc.lfoTarget ∧
    t.osc.lfoCurrent = s.osc.lfoCurrent) ∧
  (∀ s t, ((∃ note fine frames, exec (.cycle note fine frames) s = .next t) ∨ ∃ c, sampleStep c s = .next t) →
    t.osc.morph = s.osc.morph ∧ t.osc.shape = s.osc.shape) ∧
  (∀ s t, step s = .next t → ¬ s.accepts .init → ¬ s.hostPerforms .powerOn →
    (t.osc.morph ≠ s.osc.morph → s.accepts .paramMorph) ∧
    (t.osc.shape ≠ s.osc.shape → s.accepts .paramShape) ∧
    (t.osc.phaseInc ≠ s.osc.phaseInc ∨ t.osc.lfoTarget ≠ s.osc.lfoTarget →
      ∃ note fine frames, s.accepts (.cycle note fine frames)) ∧
    (t.osc.phase ≠ s.osc.phase ∨ t.osc.lfoCurrent ≠ s.osc.lfoCurrent →
      ∃ q rest, s.cyc = some q ∧ s.nextAgent = some (.sequencer, rest) ∧
        t = ({ s with turns := rest } : State).afterSample Config.machine q))

/-! ### Floating point -/

/-- 00_scope.md R11: each operation on finite operands is its exact result rounded once, to nearest with ties to even,
an infinity of its sign on overflow; an invalid operation gives a NaN, an infinite operand or a zero divisor the
infinity or the zero of IEEE 754's default handling. The signs of zeros, and of the infinities of a product or a
quotient, are the standard's and not in R11's words (log entry 16, PRESUMED). -/
def Obligations.ArithmeticIsCorrectlyRounded : Prop :=
  (∀ p a b, F32.isFinite a = true → F32.isFinite b = true →
    F32.RoundsTo (F32.val a + F32.val b) 1 (F32.add p a b) ∧
    F32.RoundsTo (F32.val a - F32.val b) 1 (F32.sub p a b) ∧
    F32.RoundsTo (F32.val a * F32.val b) (2 ^ 149) (F32.mul p a b) ∧
    (F32.val b ≠ 0 →
      F32.RoundsTo (F32.val a * 2 ^ 149 * (F32.val b).sign) (F32.val b).natAbs (F32.div p a b)) ∧
    (F32.val a + F32.val b = 0 →
      F32.add p a b = if F32.sign a && F32.sign b then 0x80000000#32 else 0x00000000#32) ∧
    (F32.val b = 0 → F32.val a = 0 → F32.isNaN (F32.div p a b) = true) ∧
    (F32.val b = 0 → F32.val a ≠ 0 → F32.isInf (F32.div p a b) = true)) ∧
  (∀ p a b, F32.isNaN a = true ∨ F32.isNaN b = true →
    F32.isNaN (F32.add p a b) = true ∧ F32.isNaN (F32.sub p a b) = true ∧
    F32.isNaN (F32.mul p a b) = true ∧ F32.isNaN (F32.div p a b) = true) ∧
  (∀ p a b, F32.isInf a = true → F32.isInf b = true →
    (F32.sign a = F32.sign b → F32.add p a b = a ∧ F32.isNaN (F32.sub p a b) = true) ∧
    (F32.sign a ≠ F32.sign b → F32.isNaN (F32.add p a b) = true ∧ F32.sub p a b = a) ∧
    F32.isInf (F32.mul p a b) = true ∧ F32.isNaN (F32.div p a b) = true) ∧
  (∀ p a b, F32.isInf a = true → F32.isFinite b = true →
    F32.add p a b = a ∧ F32.add p b a = a ∧ F32.sub p a b = a ∧ F32.sub p b a = F32.neg a ∧
    (F32.val b = 0 → F32.isNaN (F32.mul p a b) = true ∧ F32.isNaN (F32.mul p b a) = true) ∧
    (F32.val b ≠ 0 → F32.isInf (F32.mul p a b) = true ∧ F32.isInf (F32.mul p b a) = true) ∧
    F32.isInf (F32.div p a b) = true ∧ F32.isFinite (F32.div p b a) = true ∧ F32.val (F32.div p b a) = 0) ∧
  (∀ p a b,
    (F32.isNaN (F32.mul p a b) = false → F32.sign (F32.mul p a b) = (F32.sign a ^^ F32.sign b)) ∧
    (F32.isNaN (F32.div p a b) = false → F32.sign (F32.div p a b) = (F32.sign a ^^ F32.sign b)))

/-- 00_scope.md R13: the NaNs are exactly what a draw can be; a NaN result is the draw, and whether a result is NaN does
not depend on it; negation flips bit 31 of every pattern; a comparison with a NaN is false. -/
def Obligations.NaNResultsAreDraws : Prop :=
  (∀ x, F32.isNaN x = true ↔ ∃ p : NaNPattern, p.bits = x) ∧
  (∀ p q a b,
    (F32.isNaN (F32.add p a b) = F32.isNaN (F32.add q a b) ∧ (F32.isNaN (F32.add p a b) = true → F32.add p a b = p.bits)) ∧
    (F32.isNaN (F32.sub p a b) = F32.isNaN (F32.sub q a b) ∧ (F32.isNaN (F32.sub p a b) = true → F32.sub p a b = p.bits)) ∧
    (F32.isNaN (F32.mul p a b) = F32.isNaN (F32.mul q a b) ∧ (F32.isNaN (F32.mul p a b) = true → F32.mul p a b = p.bits)) ∧
    (F32.isNaN (F32.div p a b) = F32.isNaN (F32.div q a b) ∧ (F32.isNaN (F32.div p a b) = true → F32.div p a b = p.bits)) ∧
    (F32.isNaN (F32.trunc p a) = F32.isNaN (F32.trunc q a) ∧ (F32.isNaN (F32.trunc p a) = true → F32.trunc p a = p.bits)) ∧
    (F32.isNaN (F32.floor p a) = F32.isNaN (F32.floor q a) ∧ (F32.isNaN (F32.floor p a) = true → F32.floor p a = p.bits))) ∧
  (∀ (x : F32) k, k < 32 → (F32.neg x).getLsbD k = if k = 31 then !x.getLsbD k else x.getLsbD k) ∧
  (∀ a b, F32.isNaN a = true ∨ F32.isNaN b = true → F32.le a b = false ∧ F32.lt a b = false)

/-- 00_scope.md R14: trunc and floor are float-valued, give a NaN for a NaN, an infinity unchanged, and keep the sign of
zero; frac(v) is v −f trunc(v). -/
def Obligations.TruncAndFloorAreIntegralRoundings : Prop :=
  (∀ p x, F32.isNaN x = true → F32.isNaN (F32.trunc p x) = true ∧ F32.isNaN (F32.floor p x) = true) ∧
  (∀ p x, F32.isInf x = true → F32.trunc p x = x ∧ F32.floor p x = x) ∧
  (∀ p x, F32.isFinite x = true →
    F32.isFinite (F32.trunc p x) = true ∧ F32.val (F32.trunc p x) = (F32.val x).tdiv F32.unitOne * F32.unitOne ∧
    F32.sign (F32.trunc p x) = F32.sign x ∧
    F32.isFinite (F32.floor p x) = true ∧ F32.val (F32.floor p x) = (F32.val x).fdiv F32.unitOne * F32.unitOne ∧
    F32.sign (F32.floor p x) = F32.sign x) ∧
  (∀ p, F32.trunc p 0xBF000000#32 = 0x80000000#32) ∧
  (∀ p q x, frac p q x = F32.sub q x (F32.trunc p x))

/-- 00_scope.md R15: toInt gives 0 for a NaN, saturates at the i32 range and else truncates; float(n) is the nearest f32,
ties to even, exact up to 2^24. -/
def Obligations.IntegerConversions : Prop :=
  (∀ x, F32.isNaN x = true → F32.toInt x = 0) ∧
  (∀ x, F32.isNaN x = false →
    (2 ^ 31 * F32.unitOne ≤ F32.val x → F32.toInt x = 2 ^ 31 - 1) ∧
    (F32.val x ≤ -(2 ^ 31 * F32.unitOne) → F32.toInt x = -(2 ^ 31)) ∧
    (-(2 ^ 31 * F32.unitOne) < F32.val x → F32.val x < 2 ^ 31 * F32.unitOne →
      F32.toInt x = (F32.val x).tdiv F32.unitOne)) ∧
  (∀ n : Int, F32.RoundsTo (n * F32.unitOne) 1 (F32.ofInt n)) ∧
  (∀ n : Int, |n| ≤ 2 ^ 24 → F32.isFinite (F32.ofInt n) = true ∧ F32.val (F32.ofInt n) = n * F32.unitOne)

/-- 41_block_generator.md R87: FROM_FIXED is exact but for float(q), lies in [−1.0, 1.0], and is never a NaN, an
infinity or −0.0. -/
def Obligations.FromFixedIsExactAndBounded : Prop :=
  (∀ q : Word, F32.isFinite (fromFixed q) = true ∧ F32.val (fromFixed q) * 2 ^ 31 = F32.val (F32.ofInt q.toInt) ∧
    -F32.unitOne ≤ F32.val (fromFixed q) ∧ F32.val (fromFixed q) ≤ F32.unitOne ∧ fromFixed q ≠ 0x80000000#32) ∧
  fromFixed 0x80000000#32 = 0xBF800000#32 ∧ fromFixed 0x40000000#32 = 0x3F000000#32 ∧
  fromFixed 0x00000000#32 = 0x00000000#32 ∧ fromFixed 0x7FFFFFFF#32 = 0x3F800000#32

/-- 41_block_generator.md R98: TO_FIXED gives 0 for a NaN, saturates from 1.0 and −1.0 on, the infinities included, and
else truncates s × 2^31 toward zero. -/
def Obligations.ToFixedSaturatesAndTruncates : Prop :=
  (∀ x, F32.isNaN x = true → toFixed x = 0x00000000#32) ∧
  (∀ x, F32.isNaN x = false →
    (F32.unitOne ≤ F32.val x → toFixed x = 0x7FFFFFFF#32) ∧
    (F32.val x ≤ -F32.unitOne → toFixed x = 0x80000000#32) ∧
    (-F32.unitOne < F32.val x → F32.val x < F32.unitOne →
      (toFixed x).toInt = (F32.val x * 2 ^ 31).tdiv F32.unitOne)) ∧
  toFixed 0x3F000000#32 = 0x40000000#32 ∧ toFixed 0xBF000000#32 = 0xC0000000#32 ∧
  toFixed 0x3F400000#32 = 0x60000000#32 ∧ toFixed 0xC0400000#32 = 0x80000000#32 ∧
  toFixed 0x2F800000#32 = 0x00000000#32 ∧ toFixed 0xAF800000#32 = 0x00000000#32 ∧
  toFixed 0x7F800000#32 = 0x7FFFFFFF#32 ∧ toFixed 0x80000000#32 = 0x00000000#32

/-! ### The reader -/

/-- 40_wavetable_reader.md R73: the fractional phase is exact, in [0, 1) for x ≥ 0 and in (−1, 0] for x < 0, and a NaN for
an infinity or a NaN. -/
def Obligations.FractionalPhaseIsExact : Prop :=
  (∀ p q x, F32.isFinite x = true → 0 ≤ F32.val x →
    F32.InRange 0 F32.unitOne (frac p q x) ∧ F32.val (frac p q x) = F32.val x % F32.unitOne) ∧
  (∀ p q x, F32.isFinite x = true → F32.val x < 0 →
    F32.isFinite (frac p q x) = true ∧ -F32.unitOne < F32.val (frac p q x) ∧ F32.val (frac p q x) ≤ 0) ∧
  (∀ p q, frac p q 0xBE800000#32 = 0xBE800000#32) ∧
  (∀ p q x, F32.isFinite x = false → F32.isNaN (frac p q x) = true)

/-- 40_wavetable_reader.md R74: x0f = 2·p·N is exact for every finite phase, whichever way the products are grouped, and
lies in (−256, 256); a NaN fraction gives a NaN. -/
def Obligations.TablePositionIsExact : Prop :=
  (∀ nan x, F32.isFinite x = true →
    F32.isFinite (tablePosition nan x) = true ∧
    F32.val (tablePosition nan x) = 256 * F32.val (frac (nan .phaseTrunc) (nan .phaseFrac) x) ∧
    -(256 * F32.unitOne) < F32.val (tablePosition nan x) ∧ F32.val (tablePosition nan x) < 256 * F32.unitOne) ∧
  (∀ p q p' q' v, F32.isFinite v = true → |F32.val v| < F32.unitOne →
    F32.val (F32.mul q (F32.mul p F32.two v) F32.n128) = F32.val (F32.mul q' F32.two (F32.mul p' v F32.n128))) ∧
  (∀ nan x, F32.isFinite x = false → F32.isNaN (tablePosition nan x) = true)

/-- 40_wavetable_reader.md R75: x0p = toInt(floor(x0f)) and fr = x0f −f floor(x0f) for every x0f; x0p is the floor of the
value for −256 < x0f < 256, so a negative x0f has a negative x0p; for 0 ≤ x0f < 256 the weight is exact and in
[0, 1) and x0p is in 0..255; a small negative x0f can round the weight to 1.0; a NaN gives x0p = 0 and a NaN weight. -/
def Obligations.TableIndexAndWeight : Prop :=
  (∀ nan x, tableIndex nan x = F32.toInt (F32.floor (nan .tableFloor) x) ∧
    tableWeight nan x = F32.sub (nan .weightSub) x (F32.floor (nan .tableFloor) x)) ∧
  (∀ nan x, F32.InRange 0 (256 * F32.unitOne) x →
    tableIndex nan x = F32.val x / F32.unitOne ∧ 0 ≤ tableIndex nan x ∧ tableIndex nan x ≤ 255 ∧
    F32.InRange 0 F32.unitOne (tableWeight nan x) ∧ F32.val (tableWeight nan x) = F32.val x % F32.unitOne) ∧
  (∀ nan x, F32.isFinite x = true → -(256 * F32.unitOne) < F32.val x → F32.val x < 0 →
    tableIndex nan x = (F32.val x).fdiv F32.unitOne ∧ -256 ≤ tableIndex nan x ∧ tableIndex nan x ≤ -1 ∧
    F32.Between 0 F32.unitOne (tableWeight nan x)) ∧
  (∀ nan, F32.floor (nan .tableFloor) 0xB0800000#32 = 0xBF800000#32 ∧ tableIndex nan 0xB0800000#32 = -1 ∧
    tableWeight nan 0xB0800000#32 = 0x3F800000#32) ∧
  (∀ nan x, F32.isNaN x = true → tableIndex nan x = 0 ∧ F32.isNaN (tableWeight nan x) = true)

/-- 40_wavetable_reader.md R76, R77: the direct and the mirrored branch, with every index in 0..N for every integer x0p;
a negative x0p is read as the unsigned 32-bit value it wraps to. -/
def Obligations.FoldedIndicesStayInTheTable : Prop :=
  ∀ x0p : Int,
    (0 ≤ x0p ∧ x0p < 128 →
      (foldIndex x0p).x0 = x0p.toNat ∧ (foldIndex x0p).x1 = x0p.toNat + 1 ∧ (foldIndex x0p).neg = false ∧
      (foldIndex x0p).x0 ≤ 127 ∧ 1 ≤ (foldIndex x0p).x1 ∧ (foldIndex x0p).x1 ≤ 128) ∧
    (¬ (0 ≤ x0p ∧ x0p < 128) →
      ((foldIndex x0p).x0 : Int) = 128 - x0p % 128 ∧ ((foldIndex x0p).x1 : Int) = (foldIndex x0p).x0 - 1 ∧
      (foldIndex x0p).neg = true ∧ 1 ≤ (foldIndex x0p).x0 ∧ (foldIndex x0p).x0 ≤ 128 ∧ (foldIndex x0p).x1 ≤ 127) ∧
    x0p % 2 ^ 32 % 128 = x0p % 128

/-- 40_wavetable_reader.md R78: the bank is toInt(trunc(m)) mod BANK_COUNT, so it is always a bank; the examples. -/
def Obligations.BankSelectionIsModular : Prop :=
  (∀ c nan m, 1 ≤ c.bankCount →
    bankOf c nan m < c.bankCount ∧
    (bankOf c nan m : Int) = F32.toInt (F32.trunc (nan .bankTrunc) m) % (c.bankCount : Int)) ∧
  (∀ c nan, c.bankCount = 2 →
    bankOf c nan 0x3FC00000#32 = 1 ∧ bankOf c nan 0xBF000000#32 = 0 ∧ bankOf c nan 0xBFC00000#32 = 1 ∧
    bankOf c nan 0x402CCCCD#32 = 0 ∧ ∀ m, F32.isNaN m = true → bankOf c nan m = 0)

/-- 40_wavetable_reader.md R80: the interpolation of both settings of MIRROR_FRAC, and the operands that tell them
apart. -/
def Obligations.InterpolationFollowsMirrorFrac : Prop :=
  (∀ c nan neg fr v0 v1, c.mirrorFrac = .observed ∨ neg = false →
    interpolate c nan neg fr v0 v1 =
      F32.add (nan .lerpAdd) v0 (F32.mul (nan .slopeMul) fr (F32.sub (nan .slopeSub) v1 v0))) ∧
  (∀ c nan fr v0 v1, c.mirrorFrac = .recomputed →
    interpolate c nan true fr v0 v1 =
      F32.add (nan .lerpAdd) v1
        (F32.mul (nan .slopeMul) (F32.sub (nan .weightFlip) 0x3F800000#32 fr) (F32.sub (nan .slopeSub) v0 v1))) ∧
  (∀ c nan, c.mirrorFrac = .observed →
    interpolate c nan true 0x3F000000#32 0x3DCCCCCD#32 0x3F333333#32 = 0x3ECCCCCC#32) ∧
  (∀ c nan, c.mirrorFrac = .recomputed →
    interpolate c nan true 0x3F000000#32 0x3DCCCCCD#32 0x3F333333#32 = 0x3ECCCCCD#32)

/-- 40_wavetable_reader.md R79, R81, R82: for every x and m, READ is the interpolation, with the weight of the table
position, of the two entries that the folded index names in the bank of m, negated in the mirrored branch; in the
direct branch it is written out. The corner cases: phase +0.0 reads the value of entry 0, and phase 0.5 minus that of entry
128, where the entries and their difference are finite; a phase that is not finite reads a NaN whatever the table
holds; for x ≥ 0 only the fraction of x matters. -/
def Obligations.ReaderCornerCases : Prop :=
  (∀ c nan x m,
    let f := foldIndex (tableIndex nan (tablePosition nan x))
    let fr := tableWeight nan (tablePosition nan x)
    let v0 := c.wavetable (bankOf c nan m) f.x0
    let v1 := c.wavetable (bankOf c nan m) f.x1
    (f.neg = false → readTable c nan x m = interpolate c nan false fr v0 v1 ∧
      readTable c nan x m =
        F32.add (nan .lerpAdd) v0 (F32.mul (nan .slopeMul) fr (F32.sub (nan .slopeSub) v1 v0))) ∧
    (f.neg = true → readTable c nan x m = F32.neg (interpolate c nan true fr v0 v1))) ∧
  (∀ c nan m,
    F32.isFinite (c.wavetable (bankOf c nan m) 0) = true →
    F32.isFinite (F32.sub (nan .slopeSub) (c.wavetable (bankOf c nan m) 1) (c.wavetable (bankOf c nan m) 0)) = true →
    F32.val (readTable c nan 0x00000000#32 m) = F32.val (c.wavetable (bankOf c nan m) 0)) ∧
  (∀ c nan m, c.mirrorFrac = .observed →
    F32.isFinite (c.wavetable (bankOf c nan m) 128) = true →
    F32.isFinite (F32.sub (nan .slopeSub) (c.wavetable (bankOf c nan m) 127) (c.wavetable (bankOf c nan m) 128)) = true →
    F32.val (readTable c nan 0x3F000000#32 m) = -F32.val (c.wavetable (bankOf c nan m) 128)) ∧
  (∀ c nan x m, F32.isFinite x = false → F32.isNaN (readTable c nan x m) = true) ∧
  (∀ c nan p q x m, F32.isFinite x = true → F32.sign x = false →
    readTable c nan x m = readTable c nan (frac p q x) m)

/-! ### The waveshaper, the phase and the ramp -/

/-- 41_block_generator.md R91: the fold's two cases by the IEEE comparison, and its corner cases. -/
def Obligations.FoldOfTheRawSample : Prop :=
  (∀ nan w, F32.isNaN w = false → F32.val w ≤ 0 → foldSample nan w = F32.sub (nan .foldSub) 0x3F800000#32 w) ∧
  (∀ nan w, F32.isNaN w = true ∨ 0 < F32.val w → foldSample nan w = F32.sub (nan .foldFrac) w (F32.trunc (nan .foldTrunc) w)) ∧
  (∀ nan w, F32.isNaN w = true → F32.isNaN (foldSample nan w) = true) ∧
  (∀ nan, foldSample nan 0x00000000#32 = 0x3F800000#32 ∧ foldSample nan 0x80000000#32 = 0x3F800000#32 ∧
    foldSample nan 0xBE800000#32 = 0x3FA00000#32 ∧ foldSample nan 0xBF800000#32 = 0x40000000#32 ∧
    foldSample nan 0x3F000000#32 = 0x3F000000#32 ∧ foldSample nan 0x3F800000#32 = 0x00000000#32 ∧
    foldSample nan 0x3FA00000#32 = 0x3E800000#32 ∧ F32.isNaN (foldSample nan 0x7F800000#32) = true ∧
    foldSample nan 0xFF800000#32 = 0x7F800000#32)

/-- 41_block_generator.md R92: a finite w > 0 folds into [0, 1), and a w in [−1, 0] into [1, 2]. -/
def Obligations.FoldRange : Prop :=
  (∀ nan w, F32.isFinite w = true → 0 < F32.val w → F32.InRange 0 F32.unitOne (foldSample nan w)) ∧
  (∀ nan w, F32.Between (-F32.unitOne) 0 w → F32.Between F32.unitOne (2 * F32.unitOne) (foldSample nan w))

/-- 10_state.md R34: while S.shape = +0.0, a sample whose SINE value is finite writes TO_FIXED(SOFTCLIP(±0.0)). -/
def Obligations.ZeroShapeWritesTheClipOfZero : Prop :=
  State.reset.osc.shape = 0x00000000#32 ∧
  ∀ c nan o, o.shape = 0x00000000#32 → F32.isFinite (c.sine (foldSample nan (rawSample c nan o))) = true →
    sampleWord c nan o = toFixed (c.softClip 0x00000000#32) ∨ sampleWord c nan o = toFixed (c.softClip 0x80000000#32)

/-- 41_block_generator.md R96: step e, its corner cases, and that a NaN stays in S.phase until INIT or reset. -/
def Obligations.PhaseAdvance : Prop :=
  (∀ c s q t, s.cyc = some q → sampleStep c s = .next t →
    t.osc.phase = F32.sub (c.nan s.draws .stepFrac)
      (F32.add (c.nan s.draws .stepAdd) s.osc.phase s.osc.phaseInc)
      (F32.trunc (c.nan s.draws .stepTrunc) (F32.add (c.nan s.draws .stepAdd) s.osc.phase s.osc.phaseInc))) ∧
  (∀ nan,
    nextPhase nan 0x3F600000#32 0x3E000000#32 = 0x00000000#32 ∧
    nextPhase nan 0x3F400000#32 0x3F000000#32 = 0x3E800000#32 ∧
    nextPhase nan 0x3F000000#32 0x40100000#32 = 0x3F400000#32 ∧
    nextPhase nan 0x3F7FFFFF#32 0x33000000#32 = 0x00000000#32 ∧
    F32.trunc (nan .stepTrunc) (F32.add (nan .stepAdd) 0x3DCCCCCD#32 0xBE99999A#32) = 0x80000000#32 ∧
    nextPhase nan 0x3DCCCCCD#32 0xBE99999A#32 = F32.add (nan .stepAdd) 0x3DCCCCCD#32 0xBE99999A#32 ∧
    F32.InRange (-F32.unitOne) 0 (nextPhase nan 0x3DCCCCCD#32 0xBE99999A#32) ∧
    F32.isNaN (nextPhase nan 0x3E800000#32 0x7F800000#32) = true) ∧
  (∀ s t, F32.isNaN s.osc.phase = true → step s = .next t → ¬ s.accepts .init → ¬ s.hostPerforms .powerOn →
    F32.isNaN t.osc.phase = true)

/-- 41_block_generator.md R103: from a phase in [0, 1) and a finite increment ≥ 0, step e leaves the phase in [0, 1), and
what it leaves is exactly the fraction of the rounded sum. -/
def Obligations.PhaseAdvanceStaysInUnitInterval : Prop :=
  ∀ nan phase inc, F32.InRange 0 F32.unitOne phase → F32.isFinite inc = true → 0 ≤ F32.val inc →
    F32.InRange 0 F32.unitOne (nextPhase nan phase inc) ∧
    F32.isFinite (F32.add (nan .stepAdd) phase inc) = true ∧
    F32.val (nextPhase nan phase inc) = F32.val (F32.add (nan .stepAdd) phase inc) % F32.unitOne

/-- 41_block_generator.md R103, 10_state.md R24: every step keeps 0 ≤ phase < 1 while the increment held is finite and not
below zero, whatever the host does; where every CYCLE the step accepts has such an increment, both are kept together;
so under IncFiniteNonNeg (00_scope.md R9) every step keeps both. -/
def Obligations.EveryStepKeepsThePhaseInUnitInterval : Prop :=
  (∀ s t, s.PhaseInUnit → s.IncNonNeg → step s = .next t → t.PhaseInUnit) ∧
  (∀ s t, s.PhaseInUnit → s.IncNonNeg →
    (∀ note fine frames, s.accepts (.cycle note fine frames) →
      F32.isFinite (Config.machine.pitchToInc note fine) = true ∧ 0 ≤ F32.val (Config.machine.pitchToInc note fine)) →
    step s = .next t → t.PhaseInUnit ∧ t.IncNonNeg) ∧
  (Config.machine.IncFiniteNonNeg →
    ∀ s t, s.PhaseInUnit ∧ s.IncNonNeg → step s = .next t → t.PhaseInUnit ∧ t.IncNonNeg)

/-- 41_block_generator.md R102: n sample steps add the step n times; the examples that reach the target and the one that
does not. -/
def Obligations.LfoRampAddsTheStepPerSample : Prop :=
  (∀ c s q n, s.cyc = some q → q.index + n ≤ q.frames → q.frames ≤ c.maxFrames →
    ∃ t, sampleRun c n s = .next t ∧
      t.osc.lfoCurrent = lfoAfter (fun j => c.nan (s.draws + j) .rampAdd) s.osc.lfoCurrent q.step n) ∧
  (∀ nan p, rampStep nan 0x3F000000#32 0x00000000#32 4 = 0x3E000000#32 ∧
    lfoAfter p 0x00000000#32 0x3E000000#32 4 = 0x3F000000#32) ∧
  (∀ nan p, rampStep nan 0x3F800000#32 0x00000000#32 3 = 0x3EAAAAAB#32 ∧
    lfoAfter p 0x00000000#32 0x3EAAAAAB#32 3 = 0x3F800000#32) ∧
  (∀ nan p, rampStep nan 0x3DCCCCCD#32 0x00000000#32 10 = 0x3C23D70A#32 ∧
    lfoAfter p 0x00000000#32 0x3C23D70A#32 10 = 0x3DCCCCCB#32)

/-- 41_block_generator.md R104: where lfoCurrent is FROM_FIXED(ARG) at the acceptance of a CYCLE, C.step is +0.0 and no
sample step of it changes lfoCurrent. So two such CYCLEs of F1 and F2 frames with one NOTE, FINE and ARG and no PARAM
or INIT between them write the words of one CYCLE of F1 + F2 frames, bit for bit, and leave the same registers; for
the NaN patterns, which are draws (00_scope.md R13), that is stated of the runs that draw the same ones sample by
sample (the second acceptance takes a draw number of its own: log entry 4). -/
def Obligations.ReachedTargetGivesAFlatRamp : Prop :=
  (∀ nan nan' (arg : Word) frames, 1 ≤ frames → frames ≤ 4095 →
    rampStep nan (fromFixed arg) (fromFixed arg) frames = 0x00000000#32 ∧
    nextLfo nan' (fromFixed arg) 0x00000000#32 = fromFixed arg) ∧
  (∀ note fine frames s, s.busy = false → frames ≠ 0#12 → s.osc.lfoCurrent = fromFixed s.arg →
    ∃ t, exec (.cycle note fine frames) s = .next t ∧ t.cyc = some ⟨frames.toNat, 0, 0x00000000#32⟩ ∧
      ∀ n, n ≤ frames.toNat → ∃ u, sampleRun Config.machine n t = .next u ∧ u.osc.lfoCurrent = s.osc.lfoCurrent) ∧
  (∀ c note fine nan' s (f1 f2 f : BitVec 12), s.busy = false → s.osc.lfoCurrent = fromFixed s.arg →
    f1 ≠ 0#12 → f2 ≠ 0#12 → f.toNat = f1.toNat + f2.toNat → f.toNat ≤ c.maxFrames →
    (∀ n, n ≤ s.draws + f1.toNat → nan' n = c.nan n) → (∀ n, s.draws + f1.toNat < n → nan' n = c.nan (n + 1)) →
    ∃ a b t, sampleRun c f1.toNat (cycleEffect c note fine f1 s) = .next a ∧
      sampleRun c f2.toNat (cycleEffect c note fine f2 a) = .next b ∧
      sampleRun { c with nan := nan' } f.toNat (cycleEffect { c with nan := nan' } note fine f s) = .next t ∧
      (∀ k, k < f1.toNat → a.outWord c k = t.outWord c k) ∧
      (∀ k, k < f2.toNat → b.outWord c k = t.outWord c (f1.toNat + k)) ∧
      a.busy = false ∧ b.busy = false ∧ t.busy = false ∧ b.osc = t.osc)

/-! ### The run of a CYCLE -/

/-- 41_block_generator.md R88, R99, 70_reset_and_hazards.md R141: with no host access left, a CYCLE in flight runs for
exactly C.F − C.i steps, C.i going up by one a step, and then BUSY is 0. -/
def Obligations.CycleCompletesAfterExactlyItsSamples : Prop :=
  ∀ s q, s.Inv → s.pending = [] → s.cyc = some q →
    (∀ n, n < q.frames - q.index → ∃ u, stepRun n s = .next u ∧ u.cyc = some { q with index := q.index + n }) ∧
    ∃ t, stepRun (q.frames - q.index) s = .next t ∧ t.busy = false

/-- 70_reset_and_hazards.md R141, 41_block_generator.md R88: whatever the host has pending and whatever the schedule, a
CYCLE in flight ends after exactly its remaining sample steps, within as many steps as those and the schedule's
entries together, unless the power comes on again or the host makes an access the block does not define. While a
CYCLE is in flight only sample steps raise the counter `draws`, so it counts them. The schedule as a finite list is
the model's form of R53 and R141 (log entry 8, DESIGN CHOICE). -/
def Obligations.EveryCycleCompletesUnderAnySchedule : Prop :=
  ∀ s q, s.Inv → s.cyc = some q →
    (∃ n r, n ≤ s.turns.length + (q.frames - q.index) ∧ stepRun n s = .refused r) ∨
    ∃ n u t, n < s.turns.length + (q.frames - q.index) ∧ stepRun n s = .next u ∧ u.busy = true ∧
      step u = .next t ∧ t.busy = false ∧
      (u.hostPerforms .powerOn ∨ t.draws = s.draws + (q.frames - q.index))

/-- 20_memory.md R42, R43, R54: an accepted CYCLE of F ≥ 1 frames writes word k from the registers its k-th sample step
finds, for every k < F; when BUSY is 0 again all F words stand, and every byte outside them is as before. -/
def Obligations.CycleWritesItsWordsAndNoOthers : Prop :=
  ∀ note fine frames s, s.busy = false → frames ≠ 0#12 →
    ∃ u : Nat → State,
      exec (.cycle note fine frames) s = .next (u 0) ∧
      (∀ k, k < frames.toNat → (u k).busy = true ∧ sampleStep Config.machine (u k) = .next (u (k + 1))) ∧
      (u frames.toNat).busy = false ∧
      (∀ k, k < frames.toNat →
        (u frames.toNat).outWord Config.machine k =
          sampleWord Config.machine (Config.machine.nan (u k).draws) (u k).osc) ∧
      (∀ a, a < outbufOffset 0 ∨ outbufOffset frames.toNat ≤ a →
        Memory.read (u frames.toNat).outbuf a = Memory.read s.outbuf a)

/-- 70_reset_and_hazards.md R137: a PARAM_MORPH or PARAM_SHAPE that races a CYCLE may land after any number k of its
remaining samples; the k samples before it keep the old values of morph and shape, and it takes effect whole in the
next step. The list `turns` that says where it lands is the model's form of the interleaving (log entry 8, DESIGN
CHOICE). -/
def Obligations.ParamMayLandAfterAnyNumberOfSamples : Prop :=
  ∀ s q k w rest turns, s.Inv → s.cyc = some q → k ≤ q.frames - q.index →
    decode w = .paramMorph ∨ decode w = .paramShape →
    s.pending = cmdWrite w :: rest → s.turns = List.replicate k .sequencer ++ .host :: turns →
    ∃ u, stepRun k s = .next u ∧ u.osc.morph = s.osc.morph ∧ u.osc.shape = s.osc.shape ∧ u.pending = s.pending ∧
      u.cyc = (if q.index + k = q.frames then none else some { q with index := q.index + k }) ∧
      ∃ t, step u = .next t ∧ t.cyc = u.cyc ∧ t.pending = rest ∧
        (decode w = .paramMorph → t.osc = { u.osc with morph := morphValue Config.machine s.arg }) ∧
        (decode w = .paramShape → t.osc = { u.osc with shape := shapeValue Config.machine s.arg })

/-! ### The register window -/

/-- 10_state.md R26: STATUS is BUSY, ERR and zeros; a write to it is ignored; BUSY rises only by a CYCLE and falls only
by its last sample step or by reset; ERR rises only by an illegal word. -/
def Obligations.StatusRegister : Prop :=
  (∀ s : State, s.status.getLsbD 0 = s.busy ∧ s.status.getLsbD 1 = s.err ∧ s.status.toNat / 4 = 0) ∧
  (∀ s w, hostOp (.write .word 0x008 w) s = .next s) ∧
  (∀ s t, step s = .next t → s.busy = false → t.busy = true →
    ∃ note fine frames, s.accepts (.cycle note fine frames)) ∧
  (∀ s t, step s = .next t → s.busy = true → t.busy = false →
    s.hostPerforms .powerOn ∨ ∃ q rest, s.cyc = some q ∧ q.index + 1 = q.frames ∧
      t = ({ s with turns := rest } : State).afterSample Config.machine q) ∧
  (∀ s t, step s = .next t → s.err = false → t.err = true → ∃ w, s.accepts (.illegal w)) ∧
  (∀ s t, step s = .next t → s.err = true → t.err = false → s.accepts .init ∨ s.hostPerforms .powerOn)

/-- 10_state.md R27: a write to ARG stores the word and a read returns it; CYCLE and PARAM take their operand from ARG
as it stands at acceptance; only that write and reset change ARG, so INIT does not; reset makes it 0. -/
def Obligations.ArgRegister : Prop :=
  (∀ s w, hostOp (.write .word 0x004 w) s = .next { s with arg := w }) ∧
  (∀ c s, readReg c s 0x004 = s.arg) ∧
  (∀ s t, exec .paramMorph s = .next t → t.osc.morph = morphValue Config.machine s.arg) ∧
  (∀ s t, exec .paramShape s = .next t → t.osc.shape = shapeValue Config.machine s.arg) ∧
  (∀ note fine frames s t, s.busy = false → frames ≠ 0#12 → exec (.cycle note fine frames) s = .next t →
    t.osc.lfoTarget = fromFixed s.arg) ∧
  (∀ s t, step s = .next t → t.arg ≠ s.arg →
    s.hostPerforms .powerOn ∨ ∃ w, s.hostPerforms (.write .word 0x004 w) ∧ t.arg = w) ∧
  State.reset.arg = 0x00000000#32 ∧ ∀ s : State, s.powerOn.arg = 0x00000000#32

/-- 20_memory.md R44, R45, R51: what each readable register of the window returns; the window is the 0x5000 bytes from
BASE. -/
def Obligations.WindowReadsTheRegisters : Prop :=
  (∀ c address o, windowOffset c address = some o ↔ address = c.base + o ∧ o < 0x5000) ∧
  ∀ c s,
    readReg c s 0x008 = s.status ∧ readReg c s 0x010 = s.osc.phaseInc ∧ readReg c s 0x014 = s.osc.phase ∧
    readReg c s 0x018 = s.osc.lfoTarget ∧ readReg c s 0x01C = s.osc.lfoCurrent ∧
    readReg c s 0x020 = s.osc.morph ∧ readReg c s 0x024 = s.osc.shape ∧
    ∀ i, i < c.maxFrames → readReg c s (0x1000 + 4 * i) = s.outWord c i

/-- 20_memory.md R46: reserved offsets and CMD read as 0; a write to a reserved offset or to a read-only register changes
nothing. -/
def Obligations.ReservedAndReadOnlyOffsets : Prop :=
  (∀ s o, o % 4 = 0 → o < 0x5000 →
    (o = 0x000 ∨ o = 0x00C ∨ (0x028 ≤ o ∧ o < 0x1000) ∨ 0x1000 + 4 * 4095 ≤ o) →
    hostOp (.read .word o) s = .next { s with reads := ⟨o, 0x00000000#32⟩ :: s.reads }) ∧
  (∀ s o w, o % 4 = 0 → o < 0x5000 → o ≠ 0x000 → o ≠ 0x004 → hostOp (.write .word o w) s = .next s)

/-- 20_memory.md R50: a write to CMD issues a command, a write to ARG stores; a read changes nothing but what the host
holds, and a second read returns the same word. -/
def Obligations.ReadsHaveNoSideEffects : Prop :=
  (∀ s w, hostOp (.write .word 0x000 w) s = exec (decode w) s) ∧
  (∀ s w, hostOp (.write .word 0x004 w) s = .next { s with arg := w }) ∧
  (∀ s o, o % 4 = 0 → o < 0x5000 → ∃ d,
    hostOp (.read .word o) s = .next { s with reads := ⟨o, d⟩ :: s.reads } ∧
    hostOp (.read .word o) { s with reads := ⟨o, d⟩ :: s.reads } =
      .next { s with reads := ⟨o, d⟩ :: ⟨o, d⟩ :: s.reads })

/-- 20_memory.md R47: an access that is not an aligned 32-bit one has no move; and a step is refused only for such an
access, or one beyond the window, which is refused under a name of its own. The refusal beyond the window, and that
the width and the alignment are judged before the offset, are the model's choice (log entry 13, DESIGN CHOICE). -/
def Obligations.OnlyUndefinedAccessesAreRefused : Prop :=
  (∀ s size o w, size ≠ .word ∨ o % 4 ≠ 0 →
    hostOp (.write size o w) s = .refused (.notAlignedWord size o) ∧
    hostOp (.read size o) s = .refused (.notAlignedWord size o)) ∧
  (∀ s o w, o % 4 = 0 → 0x5000 ≤ o →
    hostOp (.write .word o w) s = .refused (.outsideWindow o) ∧ hostOp (.read .word o) s = .refused (.outsideWindow o)) ∧
  (∀ s r, step s = .refused r →
    ∃ size o rest, (s.pending = .read size o :: rest ∨ ∃ w, s.pending = .write size o w :: rest) ∧
      (size ≠ .word ∨ o % 4 ≠ 0 ∨ 0x5000 ≤ o))

/-- 20_memory.md R42, R48: OutWrite puts the word at its four bytes, least significant first, keeps the canonical form,
and leaves every other byte alone; the word then reads back. -/
def Obligations.OutbufStoreThenLoad : Prop :=
  ∀ c (s : State) i w, Memory.wf s.outbuf →
    Memory.wf (outWrite s.outbuf i w) ∧
    ({ s with outbuf := outWrite s.outbuf i w } : State).outWord c i = w ∧
    (∀ j, j ≠ i → ({ s with outbuf := outWrite s.outbuf i w } : State).outWord c j = s.outWord c j) ∧
    (∀ k, k < 4 → (Memory.read (outWrite s.outbuf i w) (0x1000 + 4 * i + k)).map BitVec.toNat =
      some (w.toNat / 2 ^ (8 * k) % 256)) ∧
    (∀ a, a < 0x1000 + 4 * i ∨ 0x1000 + 4 * i + 4 ≤ a →
      Memory.read (outWrite s.outbuf i w) a = Memory.read s.outbuf a)

/-- 30_encoding.md R69, R70: a command with an operand is WR ARG and then WR CMD, one without is WR CMD alone; the host
primitives WR, RD and WAIT are one operation each; the pseudo-instructions; a program is its lines' accesses in
order. WAIT polls STATUS: it ends where bit 0 is 0 and stays the host's next operation where bit 0 is 1 (that each
poll is one step whose word is kept in `reads` is log entry 12, DESIGN CHOICE). -/
def Obligations.AssemblerExpansions : Prop :=
  (∀ note fine frames q, assembleLine (.cycle note fine frames q) =
    [.write .word 0x004 q, .write .word 0x000 (encode (.cycle note fine frames))]) ∧
  (∀ slot v, assembleLine (.param slot v) = [.write .word 0x004 v, .write .word 0x000 (paramWord slot)]) ∧
  (∀ v, assembleLine (.setMorph v) = assembleLine (.param 0#8 v) ∧ assembleLine (.setShape v) = assembleLine (.param 1#8 v)) ∧
  (∀ note fine frames q, assembleLine (.run note fine frames q) = assembleLine (.cycle note fine frames q) ++ [.wait]) ∧
  assembleLine .init = [.write .word 0x000 0x00000001#32] ∧
  (∀ note fine, assembleLine (.noteOn note fine) = [.write .word 0x000 (encode (.noteOn note fine))] ∧
    assembleLine (.noteOff note fine) = [.write .word 0x000 (encode (.noteOff note fine))]) ∧
  (∀ offset w, assembleLine (.wr offset w) = [.write .word offset w] ∧ assembleLine (.rd offset) = [.read .word offset]) ∧
  assembleLine .wait = [.wait] ∧
  (∀ slot, (2#8 ≤ slot → decode (paramWord slot) = .paramNop slot) ∧
    (slot = 0#8 → decode (paramWord slot) = .paramMorph) ∧ (slot = 1#8 → decode (paramWord slot) = .paramShape)) ∧
  (assemble [] = [] ∧ ∀ l p, assemble (l :: p) = assembleLine l ++ assemble p) ∧
  ∀ s : State,
    (s.status.getLsbD 0 = false → hostOp .wait s = .next { s with reads := ⟨0x008, s.status⟩ :: s.reads }) ∧
    (s.status.getLsbD 0 = true →
      hostOp .wait s = .next { s with reads := ⟨0x008, s.status⟩ :: s.reads, pending := .wait :: s.pending })

/-! ### Reset, idleness and invariants -/

/-- 70_reset_and_hazards.md R132: what power-on reset sets, as the state a run starts from. Two further clauses are the
model's choice and no rule of the spec: an unwritten OUTBUF byte reads as a free byte of the power-on (log entry 7,
DESIGN CHOICE), and the power can come on again as a host operation in any state, which does the same to the block (log
entry 10, DESIGN CHOICE). -/
def Obligations.PowerOnResetState : Prop :=
  State.reset.osc = ⟨0#32, 0#32, 0#32, 0#32, 0#32, 0#32⟩ ∧ State.reset.status = 0x00000000#32 ∧
  State.reset.arg = 0x00000000#32 ∧ State.reset.cyc = none ∧
  (∀ c i, State.reset.outWord c i = Memory.readWord (c.unwritten 0) [] (outbufOffset i)) ∧
  ∀ s : State, hostOp .powerOn s = .next s.powerOn ∧ s.powerOn.osc = State.reset.osc ∧
    s.powerOn.status = 0x00000000#32 ∧ s.powerOn.arg = 0x00000000#32 ∧ s.powerOn.cyc = none ∧
    s.powerOn.outbuf = State.reset.outbuf

/-- 60_exceptions.md R131: while idle, with no host access left, the block changes no state. That the model takes a step
there at all, and repeats the state, is its own choice (log entry 15, DESIGN CHOICE). -/
def Obligations.IdleBlockChangesNothing : Prop :=
  ∀ s, s.busy = false → s.pending = [] → step s = .next s

/-- The state after reset meets the invariants: the storage and the CYCLE in flight, the phase and its increment, the
morph, the LFO target. -/
def Obligations.ResetMeetsTheStateInvariant : Prop :=
  State.reset.Inv ∧ State.reset.PhaseInUnit ∧ State.reset.IncNonNeg ∧ State.reset.MorphInBanks Config.machine ∧
  F32.Between (-F32.unitOne) F32.unitOne State.reset.osc.lfoTarget

/-- Every step keeps the invariant: OUTBUF's storage canonical, inside OUTBUF and in whole words, 0 ≤ C.i < C.F ≤
MAX_FRAMES, and the words below C.i written (20_memory.md R42, 10_state.md R29). -/
def Obligations.EveryStepKeepsTheStateInvariant : Prop :=
  ∀ s t, s.Inv → step s = .next t → t.Inv

/-- 60_exceptions.md R120: no step of a state that meets the invariant faults. -/
def Obligations.NoStepFaults : Prop := ∀ s r, s.Inv → step s ≠ .fault r

/-- 10_state.md R24: every step keeps 0 ≤ morph < BANK_COUNT, but for a PARAM_MORPH whose value is not in [0, 1]. -/
def Obligations.EveryStepKeepsTheMorphInBanks : Prop :=
  ∀ s t, s.MorphInBanks Config.machine →
    (s.accepts .paramMorph → F32.Between 0 F32.unitOne s.arg) →
    step s = .next t → t.MorphInBanks Config.machine

/-- 10_state.md R21, 41_block_generator.md R87: every step keeps lfoTarget in [−1, 1]. -/
def Obligations.EveryStepKeepsTheLfoTargetBounded : Prop :=
  ∀ s t, F32.Between (-F32.unitOne) F32.unitOne s.osc.lfoTarget → step s = .next t →
    F32.Between (-F32.unitOne) F32.unitOne t.osc.lfoTarget
end

