-- ==== Sys2Proof/Laws/Config.lean ====
section
/-! SUPPORT. The machine's configuration meets the bounds of 00_scope.md R8, whatever the OPEN parameters are. -/

namespace Sys2Proof

@[simp] theorem Config.machine_maxFrames : Config.machine.maxFrames = 4095 := rfl

@[simp] theorem Config.machine_mirrorFrac : Config.machine.mirrorFrac = .observed := rfl

theorem Config.banks_ok : 1 ≤ Config.banks.1 ∧ Config.scaleInRange Config.banks.1 Config.banks.2 = true := by
  unfold Config.banks
  split
  · rename_i h; exact ⟨Nat.succ_le_succ (Nat.zero_le _), h⟩
  · exact ⟨le_rfl, by decide⟩

theorem Config.machine_valid : Config.machine.Valid where
  bankCount_pos := Config.banks_ok.1
  morphScale_ok := Config.banks_ok.2
  maxFrames_pos := by decide
  maxFrames_le  := le_rfl

end Sys2Proof
end

