-- ==== Sys2Proof/Laws/Decode.lean ====
section
/-! SUPPORT. The fields of a word and of an encoded command in numbers, so that facts about encodings are
arithmetic. -/

namespace Sys2Proof

theorem toNat_append' {n m : Nat} (x : BitVec n) (y : BitVec m) : (x ++ y).toNat = x.toNat * 2 ^ m + y.toNat := by
  rw [BitVec.toNat_append, ← Nat.shiftLeft_add_eq_or_of_lt y.isLt, Nat.shiftLeft_eq]

theorem Word.toNat_op (w : Word) : (Word.op w).toNat = w.toNat % 16 := by
  simp [Word.op, BitVec.extractLsb'_toNat]

theorem Word.toNat_frames (w : Word) : (Word.frames w).toNat = w.toNat / 16 % 4096 := by
  simp [Word.frames, BitVec.extractLsb'_toNat, Nat.shiftRight_eq_div_pow]

theorem Word.toNat_slot (w : Word) : (Word.slot w).toNat = w.toNat / 16 % 256 := by
  simp [Word.slot, BitVec.extractLsb'_toNat, Nat.shiftRight_eq_div_pow]

theorem Word.toNat_fine (w : Word) : (Word.fine w).toNat = w.toNat / 65536 % 256 := by
  simp [Word.fine, BitVec.extractLsb'_toNat, Nat.shiftRight_eq_div_pow]

theorem Word.toNat_note (w : Word) : (Word.note w).toNat = w.toNat / 16777216 := by
  have := w.isLt
  simp only [Word.note, BitVec.extractLsb'_toNat, Nat.shiftRight_eq_div_pow]
  omega

/-- The illegal words in numbers (30_encoding.md R66). -/
theorem Word.isIllegal_iff (maxFrames : Nat) (w : Word) :
    Word.isIllegal maxFrames w = true ↔
      (w.toNat % 16 = 0 ∨ 6 ≤ w.toNat % 16) ∨ (w.toNat % 16 = 1 ∧ w.toNat / 16 ≠ 0) ∨
      (w.toNat % 16 = 3 ∧ w.toNat / 4096 ≠ 0) ∨
      ((w.toNat % 16 = 4 ∨ w.toNat % 16 = 5) ∧ w.toNat / 16 % 4096 ≠ 0) ∨
      (w.toNat % 16 = 2 ∧ maxFrames < w.toNat / 16 % 4096) := by
  have := w.isLt
  simp only [Word.isIllegal, Bool.or_eq_true, Bool.and_eq_true, beq_iff_eq, bne_iff_ne, decide_eq_true_eq,
    ← BitVec.toNat_inj, BitVec.le_def, Word.toNat_op, Word.toNat_frames, BitVec.extractLsb'_toNat,
    Nat.shiftRight_eq_div_pow, BitVec.toNat_ofNat, ne_eq]
  omega

theorem toNat_encode_cycle (note fine : BitVec 8) (frames : BitVec 12) :
    (encode (.cycle note fine frames)).toNat = note.toNat * 16777216 + fine.toNat * 65536 + frames.toNat * 16 + 2 := by
  simp only [encode, toNat_append', BitVec.toNat_ofNat]
  omega

theorem toNat_encode_paramNop (slot : BitVec 8) : (encode (.paramNop slot)).toNat = slot.toNat * 16 + 3 := by
  simp only [encode, toNat_append', BitVec.toNat_ofNat]
  omega

theorem toNat_encode_noteOn (note fine : BitVec 8) :
    (encode (.noteOn note fine)).toNat = note.toNat * 16777216 + fine.toNat * 65536 + 4 := by
  simp only [encode, toNat_append', BitVec.toNat_ofNat]
  omega

theorem toNat_encode_noteOff (note fine : BitVec 8) :
    (encode (.noteOff note fine)).toNat = note.toNat * 16777216 + fine.toNat * 65536 + 5 := by
  simp only [encode, toNat_append', BitVec.toNat_ofNat]
  omega

/-- A word is its four bytes, least significant first (20_memory.md R48). -/
theorem Word.ofBytes_byte (w : Word) :
    Word.ofBytes (Word.byte w 0) (Word.byte w 1) (Word.byte w 2) (Word.byte w 3) = w := by
  apply BitVec.eq_of_toNat_eq
  have := w.isLt
  simp only [Word.ofBytes, Word.byte, toNat_append', BitVec.extractLsb'_toNat, Nat.shiftRight_eq_div_pow]
  omega

end Sys2Proof
end

