-- ==== Sys2Proof/Laws/Float.lean ====
section
/-! SUPPORT. What the binary32 operations do, said once: the layout in numbers, the value of a packed pattern, and
that rounding answers the nearest value, keeps order and is exact on representable values. -/

namespace Sys2Proof

/-! ### The magnitude pattern and its value -/

/-- The low 31 bits of a pattern. -/
def F32.mag (x : F32) : Nat := x.toNat % 2 ^ 31

/-- The value, in units, of a magnitude pattern. -/
def F32.magUnits (m : Nat) : Nat :=
  if m / 2 ^ 23 = 0 then m % 2 ^ 23 else (2 ^ 23 + m % 2 ^ 23) * 2 ^ (m / 2 ^ 23 - 1)

/-- The first magnitude pattern that is not finite. -/
abbrev F32.infMag : Nat := 0x7F800000

theorem F32.mag_lt (x : F32) : F32.mag x < 2 ^ 31 := Nat.mod_lt _ (by decide)

theorem F32.expo_eq (x : F32) : F32.expo x = F32.mag x / 2 ^ 23 := by
  have := x.isLt
  simp only [F32.expo, F32.mag, BitVec.extractLsb'_toNat, Nat.shiftRight_eq_div_pow]
  omega

theorem F32.frac_eq (x : F32) : F32.frac x = F32.mag x % 2 ^ 23 := by
  have := x.isLt
  simp only [F32.frac, F32.mag, BitVec.extractLsb'_toNat, Nat.shiftRight_eq_div_pow]
  omega

theorem F32.units_eq (x : F32) : F32.units x = F32.magUnits (F32.mag x) := by
  simp only [F32.units, F32.magUnits, F32.expo_eq, F32.frac_eq]

theorem F32.sign_eq (x : F32) : F32.sign x = decide (2 ^ 31 ≤ x.toNat) := by
  have := x.isLt
  simp only [F32.sign, BitVec.getLsbD, Nat.testBit_eq_decide_div_mod_eq]
  congr 1
  apply propext
  omega

theorem F32.isFinite_iff (x : F32) : F32.isFinite x = true ↔ F32.mag x < F32.infMag := by
  have := F32.mag_lt x
  simp only [F32.isFinite, F32.expo_eq, bne_iff_ne, F32.infMag]
  omega

theorem F32.isInf_iff (x : F32) : F32.isInf x = true ↔ F32.mag x = F32.infMag := by
  have := F32.mag_lt x
  simp only [F32.isInf, F32.expo_eq, F32.frac_eq, Bool.and_eq_true, beq_iff_eq, F32.infMag]
  omega

theorem F32.isNaN_iff (x : F32) : F32.isNaN x = true ↔ F32.infMag < F32.mag x := by
  have := F32.mag_lt x
  simp only [F32.isNaN, F32.expo_eq, F32.frac_eq, Bool.and_eq_true, beq_iff_eq, bne_iff_ne, F32.infMag]
  omega

/-- A pattern is its sign and its magnitude. -/
theorem F32.ext_sign_mag {x y : F32} (hs : F32.sign x = F32.sign y) (hm : F32.mag x = F32.mag y) : x = y := by
  apply BitVec.eq_of_toNat_eq
  have hx := x.isLt
  have hy := y.isLt
  simp only [F32.sign_eq, decide_eq_decide] at hs
  simp only [F32.mag] at hm
  omega

theorem F32.sign_pack {s : Bool} {m : Nat} (h : m < 2 ^ 31) : F32.sign (F32.pack s m) = s := by
  cases s <;> simp [F32.sign_eq, F32.pack, BitVec.toNat_ofNat] <;> omega

theorem F32.mag_pack {s : Bool} {m : Nat} (h : m < 2 ^ 31) : F32.mag (F32.pack s m) = m := by
  cases s <;> simp [F32.mag, F32.pack, BitVec.toNat_ofNat] <;> omega

/-! ### Order of the magnitudes -/

theorem F32.magUnits_small {m : Nat} (h : m < 2 ^ 23) : F32.magUnits m = m := by
  rw [F32.magUnits, if_pos (Nat.div_eq_of_lt h), Nat.mod_eq_of_lt h]

/-- A magnitude built from an exponent shift and a significand, the carry included. -/
theorem F32.magUnits_shift {n e : Nat} (hn : n ≤ 2 ^ 24) (he : e = 0 ∨ 2 ^ 23 ≤ n) :
    F32.magUnits (n + e * 2 ^ 23) = n * 2 ^ e := by
  rcases Nat.lt_or_ge n (2 ^ 23) with h | h
  · obtain rfl : e = 0 := by omega
    simpa using F32.magUnits_small h
  · rcases Nat.lt_or_eq_of_le hn with h' | rfl
    · have hq : (n + e * 2 ^ 23) / 2 ^ 23 = e + 1 := by omega
      have hr : (n + e * 2 ^ 23) % 2 ^ 23 = n - 2 ^ 23 := by omega
      simp only [F32.magUnits, hq, hr]
      rw [if_neg (by omega), show 2 ^ 23 + (n - 2 ^ 23) = n by omega, Nat.add_sub_cancel]
    · have hq : (2 ^ 24 + e * 2 ^ 23) / 2 ^ 23 = e + 2 := by omega
      have hr : (2 ^ 24 + e * 2 ^ 23) % 2 ^ 23 = 0 := by omega
      simp only [F32.magUnits, hq, hr]
      rw [if_neg (by omega), show e + 2 - 1 = e + 1 by omega, Nat.pow_succ]
      ring

/-- Every magnitude is a significand below 2^24 shifted by its exponent. -/
theorem F32.mag_cases (m : Nat) :
    ∃ n e, n < 2 ^ 24 ∧ (e = 0 ∨ 2 ^ 23 ≤ n) ∧ m = n + e * 2 ^ 23 := by
  rcases Nat.lt_or_ge m (2 ^ 24) with h | h
  · exact ⟨m, 0, h, .inl rfl, by simp⟩
  · exact ⟨m % 2 ^ 23 + 2 ^ 23, m / 2 ^ 23 - 1, by omega, .inr (by omega), by omega⟩

theorem F32.magUnits_lt_succ (m : Nat) : F32.magUnits m < F32.magUnits (m + 1) := by
  obtain ⟨n, e, hn, he, rfl⟩ := F32.mag_cases m
  rw [F32.magUnits_shift hn.le he, show n + e * 2 ^ 23 + 1 = (n + 1) + e * 2 ^ 23 by omega,
    F32.magUnits_shift hn (by omega)]
  exact Nat.mul_lt_mul_of_pos_right (by omega) (by positivity)

theorem F32.magUnits_strictMono : StrictMono F32.magUnits := strictMono_nat_of_lt_succ F32.magUnits_lt_succ

/-! ### Rounding -/

/-- `roundEven` is within half of the divisor, and even on a tie. -/
theorem F32.roundEven_spec (num den : Nat) (hd : 0 < den) :
    2 * |(F32.roundEven num den * den : Int) - num| ≤ den ∧
    (2 * |(F32.roundEven num den * den : Int) - num| = den → F32.roundEven num den % 2 = 0) := by
  have hq := Nat.div_add_mod num den
  have hr := Nat.mod_lt num hd
  simp only [F32.roundEven]
  generalize num / den = q at *
  generalize num % den = r at *
  subst hq
  split
  · rename_i h
    simp only [gt_iff_lt, Bool.or_eq_true, decide_eq_true_eq, Bool.and_eq_true, beq_iff_eq] at h
    have : ((q + 1 : Nat) * den : Int) - ((den * q + r : Nat) : Int) = (den : Int) - r := by push_cast; ring
    rw [this, abs_of_nonneg (by omega)]
    omega
  · rename_i h
    simp only [gt_iff_lt, Bool.or_eq_true, decide_eq_true_eq, Bool.and_eq_true, beq_iff_eq, not_or, not_and] at h
    have : ((q : Nat) * den : Int) - ((den * q + r : Nat) : Int) = -(r : Int) := by push_cast; ring
    rw [this, abs_neg, abs_of_nonneg (by omega)]
    omega

/-- No integer multiple of the divisor is nearer than the one `roundEven` picks. -/
theorem F32.roundEven_nearest (num den : Nat) (hd : 0 < den) (k : Int) :
    |(F32.roundEven num den * den : Int) - num| ≤ |k * den - num| ∧
    (|(F32.roundEven num den * den : Int) - num| = |k * den - num| → k ≠ F32.roundEven num den →
      F32.roundEven num den % 2 = 0) := by
  obtain ⟨h1, h2⟩ := F32.roundEven_spec num den hd
  by_cases hk : k = F32.roundEven num den
  · subst hk; simp
  · have hstep : (den : Int) ≤ |(F32.roundEven num den : Int) * den - k * den| := by
      rw [← sub_mul, abs_mul, Nat.abs_cast]
      have : (1 : Int) ≤ |(F32.roundEven num den : Int) - k| := Int.one_le_abs (by omega)
      nlinarith [Int.natCast_nonneg den]
    have htri := abs_sub_le ((F32.roundEven num den : Int) * den) num (k * den)
    rw [abs_sub_comm (num : Int)] at htri
    exact ⟨by omega, fun h _ => h2 (by omega)⟩

theorem F32.lastPlace_bounds (q : Nat) :
    q < 2 ^ 24 * 2 ^ F32.lastPlace q ∧ (F32.lastPlace q = 0 ∨ 2 ^ 23 * 2 ^ F32.lastPlace q ≤ q) := by
  unfold F32.lastPlace
  rcases Nat.eq_zero_or_pos q with rfl | hq
  · simp
  · have hlt := Nat.lt_log2_self (n := q)
    have hle := Nat.log2_self_le (n := q) (by omega)
    rcases Nat.le_total q.log2 23 with h | h
    · rw [Nat.sub_eq_zero_of_le h]
      refine ⟨lt_of_lt_of_le hlt ?_, .inl rfl⟩
      rw [pow_zero, mul_one]
      exact Nat.pow_le_pow_right (by decide) (by omega)
    · rw [← pow_add, ← pow_add, show 24 + (q.log2 - 23) = q.log2 + 1 by omega,
        show 23 + (q.log2 - 23) = q.log2 by omega]
      exact ⟨hlt, .inr hle⟩

/-- The pattern of `roundMag` before it is cut at the infinity. -/
def F32.roundRaw (num den : Nat) : Nat :=
  F32.roundEven num (den * 2 ^ F32.lastPlace (num / den)) + F32.lastPlace (num / den) * 2 ^ 23

theorem F32.roundMag_eq (num den : Nat) : F32.roundMag num den = min (F32.roundRaw num den) F32.infMag := rfl

/-- The significand `roundRaw` picks keeps within the place it is rounded to. -/
theorem F32.roundEven_bounds (num den : Nat) (hd : 0 < den) :
    F32.roundEven num (den * 2 ^ F32.lastPlace (num / den)) ≤ 2 ^ 24 ∧
    (F32.lastPlace (num / den) = 0 ∨ 2 ^ 23 ≤ F32.roundEven num (den * 2 ^ F32.lastPlace (num / den))) := by
  obtain ⟨hlt, hge⟩ := F32.lastPlace_bounds (num / den)
  generalize F32.lastPlace (num / den) = e at *
  have hD : 0 < den * 2 ^ e := by positivity
  have hquot : num / (den * 2 ^ e) < 2 ^ 24 := by
    rw [← Nat.div_div_eq_div_mul]
    exact Nat.div_lt_of_lt_mul (by rwa [mul_comm])
  constructor
  · simp only [F32.roundEven]
    split <;> omega
  · refine hge.imp_right fun h => ?_
    have : 2 ^ 23 ≤ num / (den * 2 ^ e) := by
      rw [← Nat.div_div_eq_div_mul]
      exact (Nat.le_div_iff_mul_le (by positivity)).mpr h
    simp only [F32.roundEven]
    split <;> omega

/-- The value of the rounded pattern. -/
theorem F32.magUnits_roundRaw (num den : Nat) (hd : 0 < den) :
    F32.magUnits (F32.roundRaw num den) =
      F32.roundEven num (den * 2 ^ F32.lastPlace (num / den)) * 2 ^ F32.lastPlace (num / den) := by
  obtain ⟨h1, h2⟩ := F32.roundEven_bounds num den hd
  exact F32.magUnits_shift h1 h2

/-- Rounding to the nearest magnitude, over all magnitudes, the even pattern on a tie. -/
theorem F32.roundRaw_nearest (num den : Nat) (hd : 0 < den) (m : Nat) :
    |(F32.magUnits (F32.roundRaw num den) * den : Int) - num| ≤ |(F32.magUnits m * den : Int) - num| ∧
    (|(F32.magUnits (F32.roundRaw num den) * den : Int) - num| = |(F32.magUnits m * den : Int) - num| →
      m ≠ F32.roundRaw num den → F32.roundRaw num den % 2 = 0) := by
  obtain ⟨hb1, hb2⟩ := F32.roundEven_bounds num den hd
  have hval := F32.magUnits_roundRaw num den hd
  have hbounds := (F32.lastPlace_bounds (num / den)).2
  have hraw : F32.roundRaw num den =
    F32.roundEven num (den * 2 ^ F32.lastPlace (num / den)) + F32.lastPlace (num / den) * 2 ^ 23 := rfl
  generalize F32.lastPlace (num / den) = e at *
  have hD : 0 < den * 2 ^ e := by positivity
  have hnear := F32.roundEven_nearest num (den * 2 ^ e) hD
  generalize F32.roundEven num (den * 2 ^ e) = n at *
  have hparity : F32.roundRaw num den % 2 = n % 2 := by omega
  obtain ⟨k, f, hk, hf, rfl⟩ := F32.mag_cases m
  rw [hval, F32.magUnits_shift hk.le hf]
  have hval' : ((n * 2 ^ e : Nat) * den : Int) = n * (den * 2 ^ e : Nat) := by push_cast; ring
  rcases Nat.lt_or_ge f e with hfe | hfe
  · -- a magnitude below the place: the least one of the place lies between it and the exact value
    have hle : den * (2 ^ 23 * 2 ^ e) ≤ num := by
      have h23 : 2 ^ 23 * 2 ^ e ≤ num / den := by omega
      calc den * (2 ^ 23 * 2 ^ e) ≤ den * (num / den) := Nat.mul_le_mul_left _ h23
        _ ≤ num := Nat.mul_div_le num den
    have hsmall : k * 2 ^ f < 2 ^ 23 * 2 ^ e := by
      calc k * 2 ^ f < 2 ^ 24 * 2 ^ f := Nat.mul_lt_mul_of_pos_right hk (by positivity)
        _ = 2 ^ 23 * 2 ^ (f + 1) := by ring
        _ ≤ 2 ^ 23 * 2 ^ e := Nat.mul_le_mul_left _ (Nat.pow_le_pow_right (by decide) hfe)
    have hlt : (k * 2 ^ f : Nat) * (den : Int) < (2 ^ 23 : Nat) * (den * 2 ^ e : Nat) := by
      have : k * 2 ^ f * den < 2 ^ 23 * 2 ^ e * den := Nat.mul_lt_mul_of_pos_right hsmall hd
      calc ((k * 2 ^ f : Nat) * (den : Int)) = ((k * 2 ^ f * den : Nat) : Int) := by push_cast; ring
        _ < ((2 ^ 23 * 2 ^ e * den : Nat) : Int) := by exact_mod_cast this
        _ = (2 ^ 23 : Nat) * (den * 2 ^ e : Nat) := by push_cast; ring
    have hle' : ((2 ^ 23 : Nat) * (den * 2 ^ e : Nat) : Int) ≤ num := by
      have : 2 ^ 23 * (den * 2 ^ e) ≤ num := by calc
          2 ^ 23 * (den * 2 ^ e) = den * (2 ^ 23 * 2 ^ e) := by ring
          _ ≤ num := hle
      exact_mod_cast this
    have hn := (hnear (2 ^ 23 : Nat)).1
    rw [abs_of_nonpos (a := ((2 ^ 23 : Nat) : Int) * (den * 2 ^ e : Nat) - num) (by omega)] at hn
    rw [hval', abs_of_nonpos (a := ((k * 2 ^ f : Nat) : Int) * (den : Int) - num) (by omega)]
    exact ⟨by omega, fun h => by omega⟩
  · have hm : ((k * 2 ^ f : Nat) * (den : Int)) = (k * 2 ^ (f - e) : Nat) * (den * 2 ^ e : Nat) := by
      rw [show 2 ^ f = 2 ^ (f - e) * 2 ^ e by rw [← pow_add]; congr 1; omega]
      push_cast; ring
    have hn := hnear (k * 2 ^ (f - e) : Nat)
    rw [hval', hm]
    refine ⟨hn.1, fun h hne => ?_⟩
    rw [hparity]
    refine hn.2 h fun heq => hne ?_
    have heq' : k * 2 ^ (f - e) = n := by exact_mod_cast heq
    rw [hraw]
    apply F32.magUnits_strictMono.injective
    rw [F32.magUnits_shift hk.le hf, F32.magUnits_shift hb1 hb2, ← heq', mul_assoc, ← pow_add]
    congr 2; omega

/-- Rounding a representable magnitude gives it back. -/
theorem F32.roundRaw_exact {den m : Nat} (hd : 0 < den) : F32.roundRaw (F32.magUnits m * den) den = m := by
  have h := (F32.roundRaw_nearest (F32.magUnits m * den) den hd m).1
  simp only [Nat.cast_mul, sub_self, abs_zero, abs_nonpos_iff, sub_eq_zero] at h
  have h' : F32.magUnits (F32.roundRaw (F32.magUnits m * den) den) * den = F32.magUnits m * den := by exact_mod_cast h
  exact F32.magUnits_strictMono.injective (Nat.eq_of_mul_eq_mul_right hd h')

/-- Rounding does not pass a representable magnitude from below. -/
theorem F32.roundRaw_le {num den m : Nat} (hd : 0 < den) (h : num ≤ F32.magUnits m * den) :
    F32.roundRaw num den ≤ m := by
  by_contra hlt
  have hmono := F32.magUnits_strictMono (not_le.mp hlt)
  have hn := (F32.roundRaw_nearest num den hd m).1
  have h1 : (num : Int) ≤ F32.magUnits m * den := by exact_mod_cast h
  have h2 : (F32.magUnits m * den : Int) < F32.magUnits (F32.roundRaw num den) * den := by
    have := Nat.mul_lt_mul_of_pos_right hmono hd
    exact_mod_cast this
  rw [abs_of_nonneg (by omega), abs_of_nonneg (by omega)] at hn
  omega

/-- Rounding does not pass a representable magnitude from above. -/
theorem F32.le_roundRaw {num den m : Nat} (hd : 0 < den) (h : F32.magUnits m * den ≤ num) :
    m ≤ F32.roundRaw num den := by
  by_contra hlt
  have hmono := F32.magUnits_strictMono (not_le.mp hlt)
  have hn := (F32.roundRaw_nearest num den hd m).1
  have h1 : (F32.magUnits m * den : Int) ≤ num := by exact_mod_cast h
  have h2 : (F32.magUnits (F32.roundRaw num den) * den : Int) < F32.magUnits m * den := by
    have := Nat.mul_lt_mul_of_pos_right hmono hd
    exact_mod_cast this
  rw [abs_of_nonpos (by omega), abs_of_nonpos (by omega)] at hn
  omega

theorem F32.roundMag_le_inf (num den : Nat) : F32.roundMag num den ≤ F32.infMag := Nat.min_le_right _ _

theorem F32.roundMag_exact {den m : Nat} (hd : 0 < den) (hm : m ≤ F32.infMag) :
    F32.roundMag (F32.magUnits m * den) den = m := by
  rw [F32.roundMag_eq, F32.roundRaw_exact hd, Nat.min_eq_left hm]

theorem F32.roundMag_le {num den m : Nat} (hd : 0 < den) (h : num ≤ F32.magUnits m * den) :
    F32.roundMag num den ≤ m := le_trans (Nat.min_le_left _ _) (F32.roundRaw_le hd h)

theorem F32.le_roundMag {num den m : Nat} (hd : 0 < den) (hm : m ≤ F32.infMag) (h : F32.magUnits m * den ≤ num) :
    m ≤ F32.roundMag num den := le_min (F32.le_roundRaw hd h) hm

theorem F32.magUnits_infMag : F32.magUnits F32.infMag = 2 ^ 24 * 2 ^ 253 := by
  have := F32.magUnits_shift (n := 2 ^ 24) (e := 253) le_rfl (.inr (by decide))
  exact this

theorem F32.magUnits_maxFinite : F32.magUnits (F32.infMag - 1) = (2 ^ 24 - 1) * 2 ^ 253 := by
  have := F32.magUnits_shift (n := 2 ^ 24 - 1) (e := 253) (by decide) (.inr (by decide))
  exact this

/-- Rounding leaves the finite range exactly from half a last place above it (R11). -/
theorem F32.infMag_le_roundRaw_iff {num den : Nat} (hd : 0 < den) :
    F32.infMag ≤ F32.roundRaw num den ↔ (2 ^ 25 - 1) * 2 ^ 252 * den ≤ num := by
  have hmax := F32.magUnits_maxFinite
  have hinf := F32.magUnits_infMag
  obtain ⟨u, hu⟩ : ∃ u, u = 2 ^ 252 * den := ⟨_, rfl⟩
  have e1 : F32.magUnits (F32.infMag - 1) * den = (2 ^ 25 - 2) * u := by rw [hmax, hu]; ring
  have e2 : F32.magUnits F32.infMag * den = 2 ^ 25 * u := by rw [hinf, hu]; ring
  have e3 : (2 ^ 25 - 1) * 2 ^ 252 * den = (2 ^ 25 - 1) * u := by rw [hu]; ring
  rw [e3]
  have hN1 := F32.roundRaw_nearest num den hd (F32.infMag - 1)
  have hN2 := F32.roundRaw_nearest num den hd F32.infMag
  have c1 : (F32.magUnits (F32.infMag - 1) * den : Int) = ((2 ^ 25 - 2) * u : Nat) := by exact_mod_cast e1
  have c2 : (F32.magUnits F32.infMag * den : Int) = (2 ^ 25 * u : Nat) := by exact_mod_cast e2
  rw [c1] at hN1
  rw [c2] at hN2
  have hupos : 0 < u := by rw [hu]; positivity
  constructor
  · intro h
    have hge : F32.magUnits F32.infMag ≤ F32.magUnits (F32.roundRaw num den) := F32.magUnits_strictMono.monotone h
    have hge' : 2 ^ 25 * u ≤ F32.magUnits (F32.roundRaw num den) * den := by
      rw [← e2]; exact Nat.mul_le_mul_right _ hge
    have hge'' : ((2 ^ 25 * u : Nat) : Int) ≤ F32.magUnits (F32.roundRaw num den) * den := by exact_mod_cast hge'
    by_contra hlt
    have := hN1.1
    rw [abs_of_nonneg (a := (F32.magUnits (F32.roundRaw num den) * den : Int) - num) (by omega)] at this
    rcases le_total ((2 ^ 25 - 2) * u : Nat) num with h' | h'
    · rw [abs_of_nonpos (by omega)] at this; omega
    · rw [abs_of_nonneg (by omega)] at this; omega
  · intro h
    by_contra hlt
    have hle : F32.roundRaw num den ≤ F32.infMag - 1 := by omega
    have hle' : F32.magUnits (F32.roundRaw num den) * den ≤ (2 ^ 25 - 2) * u := by
      rw [← e1]; exact Nat.mul_le_mul_right _ (F32.magUnits_strictMono.monotone hle)
    have hle'' : (F32.magUnits (F32.roundRaw num den) * den : Int) ≤ ((2 ^ 25 - 2) * u : Nat) := by exact_mod_cast hle'
    obtain ⟨h1, h2⟩ := hN2
    rw [abs_of_nonpos (a := (F32.magUnits (F32.roundRaw num den) * den : Int) - num) (by omega)] at h1 h2
    rcases le_total (2 ^ 25 * u : Nat) num with h' | h'
    · rw [abs_of_nonpos (by omega)] at h1; omega
    · rw [abs_of_nonneg (by omega)] at h1 h2
      have heven := h2 (by omega) (by omega)
      have heq : (F32.magUnits (F32.roundRaw num den) * den : Int) = ((2 ^ 25 - 2) * u : Nat) := by omega
      rw [← c1] at heq
      have heq' : F32.magUnits (F32.roundRaw num den) * den = F32.magUnits (F32.infMag - 1) * den := by exact_mod_cast heq
      rw [F32.magUnits_strictMono.injective (Nat.eq_of_mul_eq_mul_right hd heq')] at heven
      exact absurd heven (by decide)

theorem F32.roundMag_finite_iff {num den : Nat} (hd : 0 < den) :
    F32.roundMag num den < F32.infMag ↔ num < (2 ^ 25 - 1) * 2 ^ 252 * den := by
  have h := F32.infMag_le_roundRaw_iff (num := num) hd
  rw [F32.roundMag_eq]
  omega

/-! ### Values -/

theorem F32.val_eq (x : F32) : F32.val x = if F32.sign x then -(F32.magUnits (F32.mag x) : Int) else F32.magUnits (F32.mag x) := by
  rw [F32.val, F32.units_eq]

theorem F32.natAbs_val (x : F32) : (F32.val x).natAbs = F32.magUnits (F32.mag x) := by
  rw [F32.val_eq]; split <;> omega

theorem F32.val_pack {s : Bool} {m : Nat} (h : m ≤ F32.infMag) :
    F32.val (F32.pack s m) = if s then -(F32.magUnits m : Int) else F32.magUnits m := by
  have h' : m < 2 ^ 31 := by unfold F32.infMag at h; omega
  rw [F32.val_eq, F32.sign_pack h', F32.mag_pack h']

theorem F32.isFinite_pack {s : Bool} {m : Nat} (h : m ≤ F32.infMag) :
    F32.isFinite (F32.pack s m) = true ↔ m < F32.infMag := by
  rw [F32.isFinite_iff, F32.mag_pack (by unfold F32.infMag at h; omega)]

theorem F32.not_nan_of_finite {x : F32} (h : F32.isFinite x = true) : F32.isNaN x = false := by
  rw [F32.isFinite_iff] at h
  by_contra hn
  have := (F32.isNaN_iff x).mp (by simpa using hn)
  omega

theorem F32.not_inf_of_finite {x : F32} (h : F32.isFinite x = true) : F32.isInf x = false := by
  rw [F32.isFinite_iff] at h
  by_contra hn
  have := (F32.isInf_iff x).mp (by simpa using hn)
  omega

/-- The magnitudes a finite value takes, in units. -/
def F32.Rep (k : Nat) : Prop := ∃ m, m < F32.infMag ∧ F32.magUnits m = k

theorem F32.rep_val {x : F32} (h : F32.isFinite x = true) : F32.Rep (F32.val x).natAbs :=
  ⟨F32.mag x, (F32.isFinite_iff x).mp h, (F32.natAbs_val x).symm⟩

/-- A significand below 2^24 shifted by up to 253 places is representable. -/
theorem F32.rep_shift {n e : Nat} (hn : n < 2 ^ 24) (he : e ≤ 253) : F32.Rep (n * 2 ^ e) := by
  induction e generalizing n with
  | zero => exact ⟨n, by unfold F32.infMag; omega, by simpa using F32.magUnits_shift (e := 0) hn.le (.inl rfl)⟩
  | succ e ih =>
    rcases Nat.lt_or_ge n (2 ^ 23) with h | h
    · have := ih (n := 2 * n) (by omega) (by omega)
      rwa [show 2 * n * 2 ^ e = n * 2 ^ (e + 1) by ring] at this
    · exact ⟨n + (e + 1) * 2 ^ 23, by unfold F32.infMag; omega, F32.magUnits_shift hn.le (.inr h)⟩

theorem F32.rep_cases {k : Nat} (h : F32.Rep k) : ∃ n e, n < 2 ^ 24 ∧ e ≤ 253 ∧ k = n * 2 ^ e := by
  obtain ⟨m, hm, rfl⟩ := h
  obtain ⟨n, e, hn, he, rfl⟩ := F32.mag_cases m
  exact ⟨n, e, hn, by unfold F32.infMag at hm; omega, F32.magUnits_shift hn.le he⟩

theorem F32.rep_lt_bound {k : Nat} (h : F32.Rep k) : k ≤ (2 ^ 24 - 1) * 2 ^ 253 := by
  obtain ⟨m, hm, rfl⟩ := h
  rw [← F32.magUnits_maxFinite]
  exact F32.magUnits_strictMono.monotone (by omega)

/-- An exact result that is representable is not changed by rounding. -/
theorem F32.ofUnits_exact {z : Bool} {k : Int} (h : F32.Rep k.natAbs) :
    F32.isFinite (F32.ofUnits z k) = true ∧ F32.val (F32.ofUnits z k) = k ∧
      F32.sign (F32.ofUnits z k) = if k = 0 then z else decide (k < 0) := by
  obtain ⟨m, hm, hk⟩ := h
  by_cases h0 : k = 0
  · subst h0
    have hz : F32.magUnits 0 = 0 := by decide
    simp only [F32.ofUnits, if_pos]
    refine ⟨(F32.isFinite_pack (by decide)).mpr (by decide), ?_, F32.sign_pack (by decide)⟩
    rw [F32.val_pack (by decide), hz]; simp
  · have hr : F32.roundMag k.natAbs 1 = m := by
      have := F32.roundMag_exact (den := 1) (m := m) (by decide) hm.le
      rwa [mul_one, hk] at this
    simp only [F32.ofUnits, if_neg h0, hr]
    refine ⟨(F32.isFinite_pack hm.le).mpr hm, ?_, F32.sign_pack (by unfold F32.infMag at hm; omega)⟩
    rw [F32.val_pack hm.le, hk]
    split <;> rename_i hs <;> simp only [decide_eq_true_eq] at hs <;> omega

/-! ### Addition, subtraction and multiplication of finite values -/

theorem F32.add_finite {nan : NaNPattern} {a b : F32} (ha : F32.isFinite a = true) (hb : F32.isFinite b = true) :
    F32.add nan a b = F32.ofUnits (F32.sign a && F32.sign b) (F32.val a + F32.val b) := by
  simp [F32.add, F32.add?, F32.not_nan_of_finite ha, F32.not_nan_of_finite hb, F32.not_inf_of_finite ha,
    F32.not_inf_of_finite hb]

theorem F32.sign_neg (x : F32) : F32.sign (F32.neg x) = !F32.sign x := by
  simp [F32.sign, F32.neg]

theorem F32.mag_neg (x : F32) : F32.mag (F32.neg x) = F32.mag x := by
  simp only [F32.mag, F32.neg, BitVec.toNat_xor, Nat.xor_mod_two_pow]
  simp

theorem F32.isFinite_neg (x : F32) : F32.isFinite (F32.neg x) = F32.isFinite x := by
  rw [Bool.eq_iff_iff, F32.isFinite_iff, F32.isFinite_iff, F32.mag_neg]

theorem F32.isNaN_neg (x : F32) : F32.isNaN (F32.neg x) = F32.isNaN x := by
  rw [Bool.eq_iff_iff, F32.isNaN_iff, F32.isNaN_iff, F32.mag_neg]

theorem F32.isInf_neg (x : F32) : F32.isInf (F32.neg x) = F32.isInf x := by
  rw [Bool.eq_iff_iff, F32.isInf_iff, F32.isInf_iff, F32.mag_neg]

theorem F32.val_neg (x : F32) : F32.val (F32.neg x) = -F32.val x := by
  rw [F32.val_eq, F32.val_eq, F32.sign_neg, F32.mag_neg]
  cases F32.sign x <;> simp

theorem F32.sub_finite {nan : NaNPattern} {a b : F32} (ha : F32.isFinite a = true) (hb : F32.isFinite b = true) :
    F32.sub nan a b = F32.ofUnits (F32.sign a && !F32.sign b) (F32.val a - F32.val b) := by
  rw [F32.sub, F32.add_finite ha (by rwa [F32.isFinite_neg]), F32.sign_neg, F32.val_neg, sub_eq_add_neg]

/-- A product that is representable is exact. -/
theorem F32.mul_exact {nan : NaNPattern} {a b : F32} {k : Int} (ha : F32.isFinite a = true)
    (hb : F32.isFinite b = true) (hk : F32.val a * F32.val b = k * 2 ^ 149) (hrep : F32.Rep k.natAbs) :
    F32.isFinite (F32.mul nan a b) = true ∧ F32.val (F32.mul nan a b) = k := by
  obtain ⟨m, hm, hmk⟩ := hrep
  have habs : F32.units a * F32.units b = F32.magUnits m * 2 ^ 149 := by
    have := congrArg Int.natAbs hk
    rw [Int.natAbs_mul, Int.natAbs_mul, F32.natAbs_val, F32.natAbs_val, ← F32.units_eq, ← F32.units_eq, ← hmk] at this
    exact this
  have hmul : F32.mul nan a b = F32.pack (F32.sign a != F32.sign b) m := by
    simp only [F32.mul, F32.mul?, F32.not_nan_of_finite ha, F32.not_nan_of_finite hb, F32.not_inf_of_finite ha,
      F32.not_inf_of_finite hb, Bool.or_self, Bool.false_eq_true, if_false, Option.getD_some]
    rw [habs, F32.roundMag_exact (by positivity) hm.le]
  refine ⟨by rw [hmul]; exact (F32.isFinite_pack hm.le).mpr hm, ?_⟩
  rw [hmul, F32.val_pack hm.le, hmk]
  have hva : F32.val a = if F32.sign a then -(F32.units a : Int) else F32.units a := rfl
  have hvb : F32.val b = if F32.sign b then -(F32.units b : Int) else F32.units b := rfl
  have hprod : ((F32.units a * F32.units b : Nat) : Int) = (k.natAbs : Int) * 2 ^ 149 := by
    rw [habs, hmk, Nat.cast_mul, Nat.cast_pow, Nat.cast_ofNat]
  have hp : (2 : Int) ^ 149 ≠ 0 := by positivity
  rw [Nat.cast_mul] at hprod
  rw [hva, hvb] at hk
  generalize (2 : Int) ^ 149 = p at hk hprod hp
  apply mul_right_cancel₀ hp
  rw [← hk]
  cases F32.sign a <;> cases F32.sign b <;> simpa using hprod.symm

/-! ### Integral roundings -/

/-- The whole part of a representable magnitude is representable, and so is what is left of it. -/
theorem F32.rep_whole_and_rest {k : Nat} (h : F32.Rep k) :
    F32.Rep (k / 2 ^ 149 * 2 ^ 149) ∧ F32.Rep ((k / 2 ^ 149 + if k % 2 ^ 149 = 0 then 0 else 1) * 2 ^ 149) ∧
      F32.Rep (k % 2 ^ 149) := by
  obtain ⟨n, e, hn, he, rfl⟩ := F32.rep_cases h
  rcases Nat.lt_or_ge e 149 with h' | h'
  · obtain ⟨j, hje⟩ : ∃ j, 149 = j + e := ⟨149 - e, by omega⟩
    rw [hje]
    have hdiv : n * 2 ^ e / 2 ^ (j + e) = n / 2 ^ j := by
      rw [pow_add, Nat.mul_div_mul_right _ _ (by positivity)]
    have hmod : n * 2 ^ e % 2 ^ (j + e) = n % 2 ^ j * 2 ^ e := by
      rw [pow_add, Nat.mul_mod_mul_right]
    have hj : 2 ≤ 2 ^ j := by
      calc 2 = 2 ^ 1 := rfl
        _ ≤ 2 ^ j := Nat.pow_le_pow_right (by decide) (by omega)
    have hle : n / 2 ^ j ≤ n / 2 := Nat.div_le_div_left hj (by decide)
    rw [hdiv, hmod]
    refine ⟨F32.rep_shift (by omega) (by omega), F32.rep_shift ?_ (by omega), F32.rep_shift ?_ he⟩
    · split <;> omega
    · exact lt_of_le_of_lt (Nat.mod_le _ _) hn
  · have hdvd : 2 ^ 149 ∣ n * 2 ^ e := Dvd.dvd.mul_left (Nat.pow_dvd_pow 2 h') n
    have hmod : n * 2 ^ e % 2 ^ 149 = 0 := Nat.mod_eq_zero_of_dvd hdvd
    rw [Nat.div_mul_cancel hdvd, hmod, if_pos rfl, add_zero, Nat.div_mul_cancel hdvd]
    exact ⟨h, h, 0, by decide, by decide⟩

/-- trunc of a finite value: the whole part, with the operand's sign (R14). -/
theorem F32.trunc_finite {nan : NaNPattern} {x : F32} (h : F32.isFinite x = true) :
    F32.isFinite (F32.trunc nan x) = true ∧ F32.val (F32.trunc nan x) = (F32.val x).tdiv (2 ^ 149) * 2 ^ 149 ∧
      F32.sign (F32.trunc nan x) = F32.sign x := by
  have hrep : F32.Rep ((F32.val x).tdiv (2 ^ 149) * 2 ^ 149).natAbs := by
    rw [Int.natAbs_mul, Int.natAbs_tdiv]
    exact (F32.rep_whole_and_rest (F32.rep_val h)).1
  obtain ⟨h1, h2, h3⟩ := F32.ofUnits_exact (z := F32.sign x) hrep
  simp only [F32.trunc, F32.not_nan_of_finite h, F32.not_inf_of_finite h, Bool.false_eq_true, if_false, F32.ofWhole]
  refine ⟨h1, h2, ?_⟩
  rw [h3]
  split
  · rfl
  · rename_i hne
    have hv : F32.val x = if F32.sign x then -(F32.units x : Int) else F32.units x := rfl
    cases hs : F32.sign x
    · have : 0 ≤ (F32.val x).tdiv (2 ^ 149) * 2 ^ 149 :=
        mul_nonneg (Int.tdiv_nonneg (by rw [hv, hs]; simp) (by positivity)) (by positivity)
      simpa using this
    · have : (F32.val x).tdiv (2 ^ 149) * 2 ^ 149 ≤ 0 := by
        have hneg : (F32.val x).tdiv (2 ^ 149) = -((F32.units x : Int).tdiv (2 ^ 149)) := by
          rw [hv, hs]; simp [Int.neg_tdiv]
        rw [hneg, neg_mul]
        exact neg_nonpos.mpr (mul_nonneg (Int.tdiv_nonneg (by positivity) (by positivity)) (by positivity))
      have : (F32.val x).tdiv (2 ^ 149) * 2 ^ 149 < 0 := lt_of_le_of_ne this hne
      simpa using this

/-- floor of a finite value: the greatest whole number not above it, with the operand's sign (R14). -/
theorem F32.floor_finite {nan : NaNPattern} {x : F32} (h : F32.isFinite x = true) :
   F32.isFinite (F32.floor nan x) = true ∧ F32.val (F32.floor nan x) = (F32.val x).fdiv (2^149) * 2^149 ∧
    F32.sign (F32.floor nan x) = F32.sign x := by
  have hrep : F32.Rep ((F32.val x).fdiv (2 ^ 149) * 2 ^ 149).natAbs := by
    rw [Int.natAbs_mul]
    have e : ((2 : Int) ^ 149).natAbs = 2 ^ 149 := by decide
    have hr := F32.rep_whole_and_rest (F32.rep_val h)
    rw [Int.fdiv_eq_ediv_of_nonneg _ (by positivity), e]
    rcases le_total 0 (F32.val x) with h0 | h0
    · have : (F32.val x / 2 ^ 149).natAbs = (F32.val x).natAbs / 2^149 := by
        rw [Int.natAbs_ediv_of_nonneg h0]; rfl
      rw [this]; exact hr.1
    · have : (F32.val x / 2 ^ 149).natAbs = (F32.val x).natAbs / 2^149 + if (F32.val x).natAbs % 2^149 = 0 then 0 else 1 := by
        obtain ⟨n, hn⟩ : ∃ n : Nat, F32.val x = -n := ⟨(F32.val x).natAbs, by omega⟩
        rw [hn]
        simp only [Int.natAbs_neg, Int.natAbs_natCast]
        have := Nat.div_add_mod n (2^149)
        split <;> omega
      rw [this]; exact hr.2.1
  obtain ⟨h1, h2, h3⟩ := F32.ofUnits_exact (z := F32.sign x) hrep
  simp only [F32.floor, F32.not_nan_of_finite h, F32.not_inf_of_finite h, Bool.false_eq_true, if_false, F32.ofWhole]
  refine ⟨h1, h2, ?_⟩
  rw [h3]
  have hv : F32.val x = if F32.sign x then -(F32.units x : Int) else F32.units x := rfl
  rw [Int.fdiv_eq_ediv_of_nonneg _ (by positivity)]
  split
  · rfl
  · rename_i hne
    cases hs : F32.sign x
    · rw [hs] at hv; simp at hv ⊢; omega
    · rw [hs] at hv; simp at hv
      have : F32.val x / 2^149 * 2^149 ≤ 0 := by
        have : F32.val x / 2^149 ≤ 0 := by omega
        nlinarith
      simp; omega

/-- frac of a finite value is exact: what the whole part leaves, with its sign (R14, 40_wavetable_reader.md R73). -/
theorem F32.frac_finite {n1 n2 : NaNPattern} {x : F32} (h : F32.isFinite x = true) :
    F32.isFinite (Machine.frac n1 n2 x) = true ∧ F32.val (Machine.frac n1 n2 x) = (F32.val x).tmod (2 ^ 149) := by
  obtain ⟨t1, t2, -⟩ := F32.trunc_finite (nan := n1) h
  have hk : F32.val x - F32.val (F32.trunc n1 x) = (F32.val x).tmod (2 ^ 149) := by
    rw [t2, Int.tmod_def, mul_comm]
  have hrep : F32.Rep (F32.val x - F32.val (F32.trunc n1 x)).natAbs := by
    rw [hk, Int.natAbs_tmod]
    exact (F32.rep_whole_and_rest (F32.rep_val h)).2.2
  obtain ⟨h1, h2, -⟩ := F32.ofUnits_exact (z := F32.sign x && !F32.sign (F32.trunc n1 x)) hrep
  rw [Machine.frac, F32.sub_finite h t1]
  exact ⟨h1, h2.trans hk⟩

/-- A draw is a NaN (R13). -/
theorem NaNPattern.isNaN_bits (p : NaNPattern) : F32.isNaN p.bits = true := by
  have := p.fracPred.isLt
  rw [F32.isNaN_iff, NaNPattern.bits, F32.mag_pack (by omega)]
  unfold F32.infMag
  omega

theorem F32.not_nan_of_inf {x : F32} (h : F32.isInf x = true) : F32.isNaN x = false := by
  have hm := (F32.isInf_iff x).mp h
  by_contra hc
  have := (F32.isNaN_iff x).mp (by simpa using hc)
  omega

/-- The magnitude is zero exactly where the value is. -/
theorem F32.units_eq_zero_iff (x : F32) : F32.units x = 0 ↔ F32.val x = 0 := by
  have := F32.natAbs_val x
  rw [← F32.units_eq] at this
  omega

/-- frac of an infinity or a NaN is a NaN (R73). -/
theorem F32.frac_not_finite {n1 n2 : NaNPattern} {x : F32} (h : F32.isFinite x = false) :
    Machine.frac n1 n2 x = n2.bits := by
  have hx : F32.isNaN x = true ∨ F32.isInf x = true := by
    by_contra hc
    have hf := F32.isFinite_iff x
    have hi := F32.isInf_iff x
    have hn := F32.isNaN_iff x
    simp only [not_or, Bool.not_eq_true] at hc
    simp only [h, hc.1, hc.2] at hf hi hn
    simp at hf hi hn
    omega
  rcases hx with hx | hx
  · simp [Machine.frac, F32.sub, F32.add, F32.add?, hx]
  · have hn : F32.isNaN x = false := by
      by_contra hc
      have := (F32.isNaN_iff x).mp (by simpa using hc)
      have := (F32.isInf_iff x).mp hx
      omega
    simp [Machine.frac, F32.sub, F32.add, F32.add?, F32.trunc, hx, hn, F32.isNaN_neg, F32.isInf_neg, F32.sign_neg]

end Sys2Proof
end

