-- ==== Sys2Proof/Laws/Memory.lean ====
section
/-! SUPPORT. OUTBUF's storage: every operation keeps the canonical form, a load after a store gives the stored
word, and a store leaves every other byte alone. -/

namespace Sys2Proof.Machine

@[simp] theorem Memory.read_nil (k : Nat) : Memory.read [] k = none := rfl

theorem Memory.wf_nil : Memory.wf [] := List.Pairwise.nil

theorem Memory.read_write_same (m : Memory) (k : Nat) (v : Byte) : Memory.read (Memory.write m k v) k = some v := by
  induction m with
  | nil => simp [Memory.write, Memory.read]
  | cons c m ih =>
    obtain ⟨a, b⟩ := c
    simp only [Memory.write]
    split
    · simp [Memory.read]
    · split
      · simp [Memory.read]
      · rename_i h; simp [Memory.read, h, ih]

theorem Memory.read_write_other (m : Memory) {k j : Nat} (v : Byte) (h : j ≠ k) :
    Memory.read (Memory.write m k v) j = Memory.read m j := by
  induction m with
  | nil => simp [Memory.write, Memory.read, Ne.symm h]
  | cons c m ih =>
    obtain ⟨a, b⟩ := c
    simp only [Memory.write]
    split
    · simp [Memory.read, Ne.symm h]
    · split
      · rename_i hk; subst hk; simp [Memory.read, Ne.symm h]
      · simp [Memory.read, ih]

/-- A byte after a store: the stored one at its offset, the old one elsewhere. -/
theorem Memory.read_write (m : Memory) (k j : Nat) (v : Byte) :
    Memory.read (Memory.write m k v) j = if j = k then some v else Memory.read m j := by
  split
  · rename_i h; rw [h, Memory.read_write_same]
  · rename_i h; exact Memory.read_write_other m v h

/-- The offsets after a store are the old ones and the stored one. -/
theorem Memory.mem_keys_write (m : Memory) (k j : Nat) (v : Byte) :
    j ∈ (Memory.write m k v).map Prod.fst ↔ j = k ∨ j ∈ m.map Prod.fst := by
  induction m with
  | nil => simp [Memory.write]
  | cons c m ih =>
    obtain ⟨a, b⟩ := c
    simp only [Memory.write]
    split
    · simp
    · split
      · rename_i h; subst h; simp
      · simp only [List.map_cons, List.mem_cons, ih]; tauto

theorem Memory.wf_write {m : Memory} (h : Memory.wf m) (k : Nat) (v : Byte) : Memory.wf (Memory.write m k v) := by
  induction m with
  | nil => simp [Memory.write, Memory.wf]
  | cons c m ih =>
    obtain ⟨a, b⟩ := c
    simp only [Memory.wf, List.map_cons, List.pairwise_cons] at h ih
    simp only [Memory.write]
    split
    · rename_i hk
      simp only [Memory.wf, List.map_cons, List.pairwise_cons, List.mem_cons]
      refine ⟨?_, h⟩
      rintro x (rfl | hx)
      · exact hk
      · exact hk.trans (h.1 x hx)
    · split
      · rename_i hk; subst hk
        simpa [Memory.wf] using h
      · simp only [Memory.wf, List.map_cons, List.pairwise_cons]
        refine ⟨fun x hx => ?_, ih h.2⟩
        rcases (Memory.mem_keys_write m k x v).mp hx with rfl | hx
        · omega
        · exact h.1 x hx

theorem Memory.wf_writeWord {m : Memory} (h : Memory.wf m) (k : Nat) (w : Word) : Memory.wf (Memory.writeWord m k w) :=
  Memory.wf_write (Memory.wf_write (Memory.wf_write (Memory.wf_write h _ _) _ _) _ _) _ _

/-- A byte after a word store: byte j − k of the word at its four offsets, the old byte elsewhere (R48). -/
theorem Memory.read_writeWord (m : Memory) (k j : Nat) (w : Word) :
    Memory.read (Memory.writeWord m k w) j =
      if k ≤ j ∧ j < k + 4 then some (Word.byte w (j - k)) else Memory.read m j := by
  simp only [Memory.writeWord, Memory.read_write]
  by_cases h3 : j = k + 3
  · subst h3; simp
  · by_cases h2 : j = k + 2
    · subst h2; simp
    · by_cases h1 : j = k + 1
      · subst h1; simp
      · by_cases h0 : j = k
        · subst h0; simp
        · rw [if_neg h3, if_neg h2, if_neg h1, if_neg h0, if_neg (by omega)]

/-- A load after a store to the same offset gives the stored word. -/
theorem Memory.readWord_writeWord (free : Nat → Byte) (m : Memory) (k : Nat) (w : Word) :
    Memory.readWord free (Memory.writeWord m k w) k = w := by
  simp [Memory.readWord, Memory.read_writeWord, Word.ofBytes_byte]

/-- OutWrite keeps the canonical form. -/
theorem wf_outWrite {m : Memory} (h : Memory.wf m) (i : Nat) (w : Word) : Memory.wf (outWrite m i w) :=
  Memory.wf_writeWord h _ _

/-- A byte of OUTBUF's storage after OutWrite(i, w). -/
theorem read_outWrite (m : Memory) (i j : Nat) (w : Word) :
    Memory.read (outWrite m i w) j =
      if outbufOffset i ≤ j ∧ j < outbufOffset i + 4 then some (Word.byte w (j - outbufOffset i)) else Memory.read m j :=
  Memory.read_writeWord m _ j w

end Sys2Proof.Machine
end

