-- ==== Sys2Proof/Laws/PerInstr.lean ====
section
/-! SUPPORT. Facts about every command as syntax, one lemma a constructor. Family `Legality`: the word of a
well-formed command is illegal by 30_encoding.md R66 exactly when the command is `illegal`. -/

namespace Sys2Proof.Laws.Legality

/-- The encoded word is illegal for the given MAX_FRAMES exactly when the command is the illegal one. -/
def Statement (i : Instr) : Prop :=
  ∀ maxFrames, Instr.wfWith maxFrames i = true →
    (Word.isIllegal maxFrames (encode i) = true ↔ ∃ w, i = .illegal w)

theorem init : Statement .init := by
  intro m _
  rw [Word.isIllegal_iff]
  simp [encode]

theorem cycle (note fine : BitVec 8) (frames : BitVec 12) : Statement (.cycle note fine frames) := by
  intro m h
  simp only [Instr.wfWith, decide_eq_true_eq] at h
  have := frames.isLt
  rw [Word.isIllegal_iff, toNat_encode_cycle]
  simp
  omega

theorem paramMorph : Statement .paramMorph := by
  intro m _
  rw [Word.isIllegal_iff]
  simp [encode]

theorem paramShape : Statement .paramShape := by
  intro m _
  rw [Word.isIllegal_iff]
  simp [encode]

theorem paramNop (slot : BitVec 8) : Statement (.paramNop slot) := by
  intro m _
  have := slot.isLt
  rw [Word.isIllegal_iff, toNat_encode_paramNop]
  simp
  omega

theorem noteOn (note fine : BitVec 8) : Statement (.noteOn note fine) := by
  intro m _
  rw [Word.isIllegal_iff, toNat_encode_noteOn]
  simp
  omega

theorem noteOff (note fine : BitVec 8) : Statement (.noteOff note fine) := by
  intro m _
  rw [Word.isIllegal_iff, toNat_encode_noteOff]
  simp
  omega

theorem illegal (word : Word) : Statement (.illegal word) := by
  intro m h
  simp only [Instr.wfWith] at h
  simp [encode, h]

end Sys2Proof.Laws.Legality
end

