-- ==== Sys2Proof/Laws/State.lean ====
section
/-! SUPPORT. What each update of the state leaves in each field, true by rfl, so that no proof unfolds an update. -/

namespace Sys2Proof.Machine

@[simp] theorem signalIllegal_osc (s : State) : (signalIllegal s).osc = s.osc := rfl
@[simp] theorem signalIllegal_err (s : State) : (signalIllegal s).err = true := rfl
@[simp] theorem signalIllegal_arg (s : State) : (signalIllegal s).arg = s.arg := rfl
@[simp] theorem signalIllegal_cyc (s : State) : (signalIllegal s).cyc = s.cyc := rfl
@[simp] theorem signalIllegal_outbuf (s : State) : (signalIllegal s).outbuf = s.outbuf := rfl
@[simp] theorem signalIllegal_pending (s : State) : (signalIllegal s).pending = s.pending := rfl
@[simp] theorem signalIllegal_turns (s : State) : (signalIllegal s).turns = s.turns := rfl
@[simp] theorem signalIllegal_reads (s : State) : (signalIllegal s).reads = s.reads := rfl
@[simp] theorem signalIllegal_draws (s : State) : (signalIllegal s).draws = s.draws := rfl
@[simp] theorem signalIllegal_powerUps (s : State) : (signalIllegal s).powerUps = s.powerUps := rfl

@[simp] theorem initEffect_osc (s : State) : (initEffect s).osc = Osc.zero := rfl
@[simp] theorem initEffect_err (s : State) : (initEffect s).err = false := rfl
@[simp] theorem initEffect_arg (s : State) : (initEffect s).arg = s.arg := rfl
@[simp] theorem initEffect_cyc (s : State) : (initEffect s).cyc = s.cyc := rfl
@[simp] theorem initEffect_outbuf (s : State) : (initEffect s).outbuf = s.outbuf := rfl
@[simp] theorem initEffect_pending (s : State) : (initEffect s).pending = s.pending := rfl
@[simp] theorem initEffect_turns (s : State) : (initEffect s).turns = s.turns := rfl
@[simp] theorem initEffect_reads (s : State) : (initEffect s).reads = s.reads := rfl
@[simp] theorem initEffect_draws (s : State) : (initEffect s).draws = s.draws := rfl
@[simp] theorem initEffect_powerUps (s : State) : (initEffect s).powerUps = s.powerUps := rfl

@[simp] theorem State.hold_osc (s : State) (i : Instr) : (s.hold i).osc = s.osc := rfl
@[simp] theorem State.hold_err (s : State) (i : Instr) : (s.hold i).err = s.err := rfl
@[simp] theorem State.hold_arg (s : State) (i : Instr) : (s.hold i).arg = s.arg := rfl
@[simp] theorem State.hold_cyc (s : State) (i : Instr) : (s.hold i).cyc = s.cyc := rfl
@[simp] theorem State.hold_outbuf (s : State) (i : Instr) : (s.hold i).outbuf = s.outbuf := rfl
@[simp] theorem State.hold_pending (s : State) (i : Instr) : (s.hold i).pending = cmdWrite (encode i) :: s.pending := rfl
@[simp] theorem State.hold_turns (s : State) (i : Instr) : (s.hold i).turns = s.turns := rfl
@[simp] theorem State.hold_reads (s : State) (i : Instr) : (s.hold i).reads = s.reads := rfl
@[simp] theorem State.hold_draws (s : State) (i : Instr) : (s.hold i).draws = s.draws := rfl
@[simp] theorem State.hold_powerUps (s : State) (i : Instr) : (s.hold i).powerUps = s.powerUps := rfl

@[simp] theorem setMorph_osc (c : Config) (s : State) : (setMorph c s).osc = { s.osc with morph := morphValue c s.arg } := rfl
@[simp] theorem setMorph_err (c : Config) (s : State) : (setMorph c s).err = s.err := rfl
@[simp] theorem setMorph_arg (c : Config) (s : State) : (setMorph c s).arg = s.arg := rfl
@[simp] theorem setMorph_cyc (c : Config) (s : State) : (setMorph c s).cyc = s.cyc := rfl
@[simp] theorem setMorph_outbuf (c : Config) (s : State) : (setMorph c s).outbuf = s.outbuf := rfl
@[simp] theorem setMorph_pending (c : Config) (s : State) : (setMorph c s).pending = s.pending := rfl
@[simp] theorem setMorph_turns (c : Config) (s : State) : (setMorph c s).turns = s.turns := rfl
@[simp] theorem setMorph_reads (c : Config) (s : State) : (setMorph c s).reads = s.reads := rfl
@[simp] theorem setMorph_draws (c : Config) (s : State) : (setMorph c s).draws = s.draws := rfl
@[simp] theorem setMorph_powerUps (c : Config) (s : State) : (setMorph c s).powerUps = s.powerUps := rfl

@[simp] theorem setShape_osc (c : Config) (s : State) : (setShape c s).osc = { s.osc with shape := shapeValue c s.arg } := rfl
@[simp] theorem setShape_err (c : Config) (s : State) : (setShape c s).err = s.err := rfl
@[simp] theorem setShape_arg (c : Config) (s : State) : (setShape c s).arg = s.arg := rfl
@[simp] theorem setShape_cyc (c : Config) (s : State) : (setShape c s).cyc = s.cyc := rfl
@[simp] theorem setShape_outbuf (c : Config) (s : State) : (setShape c s).outbuf = s.outbuf := rfl
@[simp] theorem setShape_pending (c : Config) (s : State) : (setShape c s).pending = s.pending := rfl
@[simp] theorem setShape_turns (c : Config) (s : State) : (setShape c s).turns = s.turns := rfl
@[simp] theorem setShape_reads (c : Config) (s : State) : (setShape c s).reads = s.reads := rfl
@[simp] theorem setShape_draws (c : Config) (s : State) : (setShape c s).draws = s.draws := rfl
@[simp] theorem setShape_powerUps (c : Config) (s : State) : (setShape c s).powerUps = s.powerUps := rfl

@[simp] theorem acceptCycle_osc (c : Config) (n f : BitVec 8) (F : Nat) (s : State) : (acceptCycle c n f F s).osc = { s.osc with phaseInc := c.pitchToInc n f, lfoTarget := fromFixed s.arg } := rfl
@[simp] theorem acceptCycle_err (c : Config) (n f : BitVec 8) (F : Nat) (s : State) : (acceptCycle c n f F s).err = s.err := rfl
@[simp] theorem acceptCycle_arg (c : Config) (n f : BitVec 8) (F : Nat) (s : State) : (acceptCycle c n f F s).arg = s.arg := rfl
@[simp] theorem acceptCycle_cyc (c : Config) (n f : BitVec 8) (F : Nat) (s : State) : (acceptCycle c n f F s).cyc = some ⟨F, 0, rampStep (c.nan s.draws) (fromFixed s.arg) s.osc.lfoCurrent F⟩ := rfl
@[simp] theorem acceptCycle_outbuf (c : Config) (n f : BitVec 8) (F : Nat) (s : State) : (acceptCycle c n f F s).outbuf = s.outbuf := rfl
@[simp] theorem acceptCycle_pending (c : Config) (n f : BitVec 8) (F : Nat) (s : State) : (acceptCycle c n f F s).pending = s.pending := rfl
@[simp] theorem acceptCycle_turns (c : Config) (n f : BitVec 8) (F : Nat) (s : State) : (acceptCycle c n f F s).turns = s.turns := rfl
@[simp] theorem acceptCycle_reads (c : Config) (n f : BitVec 8) (F : Nat) (s : State) : (acceptCycle c n f F s).reads = s.reads := rfl
@[simp] theorem acceptCycle_draws (c : Config) (n f : BitVec 8) (F : Nat) (s : State) : (acceptCycle c n f F s).draws = s.draws + 1 := rfl
@[simp] theorem acceptCycle_powerUps (c : Config) (n f : BitVec 8) (F : Nat) (s : State) : (acceptCycle c n f F s).powerUps = s.powerUps := rfl

@[simp] theorem State.afterSample_osc (c : Config) (s : State) (q : InFlight) : (s.afterSample c q).osc = s.osc.advance (c.nan s.draws) q.step := rfl
@[simp] theorem State.afterSample_err (c : Config) (s : State) (q : InFlight) : (s.afterSample c q).err = s.err := rfl
@[simp] theorem State.afterSample_arg (c : Config) (s : State) (q : InFlight) : (s.afterSample c q).arg = s.arg := rfl
@[simp] theorem State.afterSample_cyc (c : Config) (s : State) (q : InFlight) : (s.afterSample c q).cyc = q.advance := rfl
@[simp] theorem State.afterSample_outbuf (c : Config) (s : State) (q : InFlight) : (s.afterSample c q).outbuf = outWrite s.outbuf q.index (sampleWord c (c.nan s.draws) s.osc) := rfl
@[simp] theorem State.afterSample_pending (c : Config) (s : State) (q : InFlight) : (s.afterSample c q).pending = s.pending := rfl
@[simp] theorem State.afterSample_turns (c : Config) (s : State) (q : InFlight) : (s.afterSample c q).turns = s.turns := rfl
@[simp] theorem State.afterSample_reads (c : Config) (s : State) (q : InFlight) : (s.afterSample c q).reads = s.reads := rfl
@[simp] theorem State.afterSample_draws (c : Config) (s : State) (q : InFlight) : (s.afterSample c q).draws = s.draws + 1 := rfl
@[simp] theorem State.afterSample_powerUps (c : Config) (s : State) (q : InFlight) : (s.afterSample c q).powerUps = s.powerUps := rfl

@[simp] theorem State.logRead_osc (c : Config) (s : State) (o : Nat) : (s.logRead c o).osc = s.osc := rfl
@[simp] theorem State.logRead_err (c : Config) (s : State) (o : Nat) : (s.logRead c o).err = s.err := rfl
@[simp] theorem State.logRead_arg (c : Config) (s : State) (o : Nat) : (s.logRead c o).arg = s.arg := rfl
@[simp] theorem State.logRead_cyc (c : Config) (s : State) (o : Nat) : (s.logRead c o).cyc = s.cyc := rfl
@[simp] theorem State.logRead_outbuf (c : Config) (s : State) (o : Nat) : (s.logRead c o).outbuf = s.outbuf := rfl
@[simp] theorem State.logRead_pending (c : Config) (s : State) (o : Nat) : (s.logRead c o).pending = s.pending := rfl
@[simp] theorem State.logRead_turns (c : Config) (s : State) (o : Nat) : (s.logRead c o).turns = s.turns := rfl
@[simp] theorem State.logRead_reads (c : Config) (s : State) (o : Nat) : (s.logRead c o).reads = ⟨o, readReg c s o⟩ :: s.reads := rfl
@[simp] theorem State.logRead_draws (c : Config) (s : State) (o : Nat) : (s.logRead c o).draws = s.draws := rfl
@[simp] theorem State.logRead_powerUps (c : Config) (s : State) (o : Nat) : (s.logRead c o).powerUps = s.powerUps := rfl

@[simp] theorem State.powerOn_osc (s : State) : (s.powerOn).osc = Osc.zero := rfl
@[simp] theorem State.powerOn_err (s : State) : (s.powerOn).err = false := rfl
@[simp] theorem State.powerOn_arg (s : State) : (s.powerOn).arg = 0#32 := rfl
@[simp] theorem State.powerOn_cyc (s : State) : (s.powerOn).cyc = none := rfl
@[simp] theorem State.powerOn_outbuf (s : State) : (s.powerOn).outbuf = [] := rfl
@[simp] theorem State.powerOn_pending (s : State) : (s.powerOn).pending = s.pending := rfl
@[simp] theorem State.powerOn_turns (s : State) : (s.powerOn).turns = s.turns := rfl
@[simp] theorem State.powerOn_reads (s : State) : (s.powerOn).reads = s.reads := rfl
@[simp] theorem State.powerOn_draws (s : State) : (s.powerOn).draws = s.draws := rfl
@[simp] theorem State.powerOn_powerUps (s : State) : (s.powerOn).powerUps = s.powerUps + 1 := rfl

@[simp] theorem Osc.advance_phaseInc (nan : FpSite → NaNPattern) (o : Osc) (d : F32) : (o.advance nan d).phaseInc = o.phaseInc := rfl
@[simp] theorem Osc.advance_phase (nan : FpSite → NaNPattern) (o : Osc) (d : F32) : (o.advance nan d).phase = nextPhase nan o.phase o.phaseInc := rfl
@[simp] theorem Osc.advance_lfoTarget (nan : FpSite → NaNPattern) (o : Osc) (d : F32) : (o.advance nan d).lfoTarget = o.lfoTarget := rfl
@[simp] theorem Osc.advance_lfoCurrent (nan : FpSite → NaNPattern) (o : Osc) (d : F32) : (o.advance nan d).lfoCurrent = nextLfo nan o.lfoCurrent d := rfl
@[simp] theorem Osc.advance_morph (nan : FpSite → NaNPattern) (o : Osc) (d : F32) : (o.advance nan d).morph = o.morph := rfl
@[simp] theorem Osc.advance_shape (nan : FpSite → NaNPattern) (o : Osc) (d : F32) : (o.advance nan d).shape = o.shape := rfl

end Sys2Proof.Machine
end

