-- ==== Sys2Proof/Laws/Step.lean ====
section
/-! SUPPORT. What a command, a host operation and a step can do, said once: the proofs about every step cite these and
do not unfold the step function. -/

namespace Sys2Proof.Machine

theorem whenIdle_idle {i : Instr} {f : State → State} {s : State} (h : s.busy = false) :
    whenIdle i f s = .next (f s) := by simp [whenIdle, h]

theorem whenIdle_busy {i : Instr} {f : State → State} {s : State} (h : s.busy = true) :
    whenIdle i f s = .next (s.hold i) := by simp [whenIdle, h]

/-- Every command answers a next state, and this is the list of them. -/
theorem exec_cases {i : Instr} {s : State} {o : Host.Outcome State Fault Refusal} (h : exec i s = o) :
    (∃ t, o = .next t) ∧ ∀ t, o = .next t →
      (i = .init ∧ s.busy = false ∧ t = initEffect s) ∨
      (∃ n f F, i = .cycle n f F ∧ s.busy = false ∧ t = cycleEffect Config.machine n f F s) ∨
      (i = .paramMorph ∧ t = setMorph Config.machine s) ∨
      (i = .paramShape ∧ t = setShape Config.machine s) ∨
      (∃ w, i = .illegal w ∧ t = signalIllegal s) ∨
      ((∃ p, i = .paramNop p) ∧ t = s) ∨
      ((∃ n f, i = .noteOn n f ∨ i = .noteOff n f) ∧ t = s) ∨
      (waitsForIdle i = true ∧ s.busy = true ∧ t = s.hold i) := by
  subst h
  cases i with
  | init =>
    cases hb : s.busy <;> simp [exec, execInit, whenIdle, hb, waitsForIdle]
  | cycle n f F =>
    have hF : ¬ 4095 < F.toNat := by have := F.isLt; omega
    cases hb : s.busy <;> simp [exec, execCycle, whenIdle, hb, waitsForIdle, hF]
  | paramMorph => simp [exec, execParamMorph, waitsForIdle]
  | paramShape => simp [exec, execParamShape, waitsForIdle]
  | paramNop p => simp [exec, execParamNop, waitsForIdle]
  | noteOn n f => simp [exec, execNoteOn, waitsForIdle]
  | noteOff n f => simp [exec, execNoteOff, waitsForIdle]
  | illegal w => simp [exec, execIllegal, waitsForIdle]

/-- What one host operation, taken from the pending ones, can lead to. -/
theorem hostOp_cases {op : HostOp} {s t : State} (h : hostOp op s = .next t) :
    (∃ w, op = cmdWrite w ∧ exec (decode w) s = .next t) ∨
    (∃ w, op = .write .word offArg w ∧ t = { s with arg := w }) ∨
    (∃ o w, op = .write .word o w ∧ o ≠ offCmd ∧ o ≠ offArg ∧ t = s) ∨
    (∃ o, op = .read .word o ∧ t = s.logRead Config.machine o) ∨
    (op = .wait ∧ t = pollStatus Config.machine s) ∨
    (op = .powerOn ∧ t = s.powerOn) := by
  have hword : ∀ {size o}, accessCheck size o = none → size = .word := by
    intro size o hc
    unfold accessCheck at hc
    split at hc
    · rename_i hs; exact hs.1
    · cases hc
  cases op with
  | write size o w =>
    simp only [hostOp] at h
    split at h
    · cases h
    · rename_i hc
      obtain rfl := hword hc
      simp only [writeReg] at h
      split at h
      · rename_i ho; subst ho; exact .inl ⟨w, rfl, h⟩
      · split at h
        · rename_i ho; subst ho
          simp only [Host.Outcome.next.injEq] at h
          exact .inr (.inl ⟨w, rfl, h.symm⟩)
        · rename_i h1 h2
          simp only [Host.Outcome.next.injEq] at h
          exact .inr (.inr (.inl ⟨o, w, rfl, h1, h2, h.symm⟩))
  | read size o =>
    simp only [hostOp] at h
    split at h
    · cases h
    · rename_i hc
      obtain rfl := hword hc
      simp only [Host.Outcome.next.injEq] at h
      exact .inr (.inr (.inr (.inl ⟨o, rfl, h.symm⟩)))
  | wait =>
    simp only [hostOp, Host.Outcome.next.injEq] at h
    exact .inr (.inr (.inr (.inr (.inl ⟨rfl, h.symm⟩))))
  | powerOn =>
    simp only [hostOp, Host.Outcome.next.injEq] at h
    exact .inr (.inr (.inr (.inr (.inr ⟨rfl, h.symm⟩))))

/-- What a sample step can lead to. -/
theorem sampleStep_cases {c : Config} {s t : State} (h : sampleStep c s = .next t) :
    (s.cyc = none ∧ t = s) ∨ (∃ q, s.cyc = some q ∧ q.index < c.maxFrames ∧ t = s.afterSample c q) := by
  simp only [sampleStep] at h
  split at h
  · rename_i hq; simp only [Host.Outcome.next.injEq] at h; exact .inl ⟨hq, h.symm⟩
  · rename_i q hq
    split at h
    · rename_i hi; simp only [Host.Outcome.next.injEq] at h; exact .inr ⟨q, hq, hi, h.symm⟩
    · cases h

theorem sampleStep_next {c : Config} {s : State} {q : InFlight} (hq : s.cyc = some q) (hi : q.index < c.maxFrames) :
    sampleStep c s = .next (s.afterSample c q) := by simp [sampleStep, hq, hi]

/-! ### Which agent moves -/

theorem hostReady_iff {s : State} : s.hostReady = true ↔ ∃ op ops, s.pending = op :: ops ∧ s.stalls op = false := by
  unfold State.hostReady
  split <;> simp_all

theorem stalls_busy {s : State} {op : HostOp} (h : s.stalls op = true) : s.busy = true := by
  cases op <;> simp_all [State.stalls]

/-- No agent can move: the block is idle, and the host has no operation (an operation stalls only while BUSY = 1). -/
theorem nextAgent_none {s : State} (h : s.nextAgent = none) : s.pending = [] ∧ s.busy = false := by
  unfold State.nextAgent at h
  split at h
  · rename_i hr hb
    refine ⟨?_, hb⟩
    cases hp : s.pending with
    | nil => rfl
    | cons op ops =>
      cases hs : s.stalls op with
      | true => simp [stalls_busy hs] at hb
      | false => rw [hostReady_iff.mpr ⟨op, ops, hp, hs⟩] at hr; cases hr
  · cases h
  · cases h
  · split at h <;> cases h

/-- The host moves: it is ready, and on a busy block it takes the schedule's head. -/
theorem nextAgent_host {s : State} {rest : List Agent} (h : s.nextAgent = some (.host, rest)) :
    s.hostReady = true ∧ (s.busy = true → s.turns = .host :: rest) := by
  unfold State.nextAgent at h
  split at h
  · cases h
  · rename_i hr hb; exact ⟨hr, by simp [hb]⟩
  · cases h
  · rename_i hr hb
    split at h
    · cases h
    · rename_i a l ht
      cases h
      exact ⟨hr, fun _ => ht⟩

/-- The sequencer moves: a CYCLE is in flight, and the schedule does not grow. -/
theorem nextAgent_sequencer {s : State} {rest : List Agent} (h : s.nextAgent = some (.sequencer, rest)) :
    s.busy = true ∧ rest.length ≤ s.turns.length := by
  unfold State.nextAgent at h
  split at h
  · cases h
  · cases h
  · rename_i hb; cases h; exact ⟨hb, le_rfl⟩
  · rename_i hb
    split at h <;> cases h <;> simp_all

/-- What a step is, whatever its outcome: nothing where no agent can move, the sequencer's sample step, or one host
operation that does not stall. `rest` is the schedule left over. -/
theorem step_outcome (s : State) :
    (s.nextAgent = none ∧ step s = .next s) ∨
    (∃ rest, s.nextAgent = some (.sequencer, rest) ∧ step s = sampleStep Config.machine { s with turns := rest }) ∨
    (∃ rest op ops, s.nextAgent = some (.host, rest) ∧ s.pending = op :: ops ∧ s.stalls op = false ∧
      step s = hostOp op { s with turns := rest, pending := ops }) := by
  cases hn : s.nextAgent with
  | none => exact .inl ⟨rfl, by simp [step, hn]⟩
  | some p =>
    obtain ⟨a, rest⟩ := p
    cases a with
    | host =>
      obtain ⟨op, ops, hp, hs⟩ := hostReady_iff.mp (nextAgent_host hn).1
      exact .inr (.inr ⟨rest, op, ops, rfl, hp, hs, by simp [step, hn, agentStep, hostStep, hp]⟩)
    | sequencer => exact .inr (.inl ⟨rest, rfl, by simp [step, hn, agentStep]⟩)

/-- What a step can lead to: nothing on an idle block with no access left, one sample step, or one host operation
that does not stall. -/
theorem step_cases {s t : State} (h : step s = .next t) :
    (s.pending = [] ∧ s.busy = false ∧ t = s) ∨
    (∃ rest q, s.nextAgent = some (.sequencer, rest) ∧ s.cyc = some q ∧ q.index < Config.machine.maxFrames ∧
      t = ({ s with turns := rest } : State).afterSample Config.machine q) ∨
    (∃ rest op ops, s.nextAgent = some (.host, rest) ∧ s.pending = op :: ops ∧ s.stalls op = false ∧
      hostOp op { s with turns := rest, pending := ops } = .next t) := by
  rcases step_outcome s with ⟨hn, hs⟩ | ⟨rest, hn, hs⟩ | ⟨rest, op, ops, hn, hp, hst, hs⟩ <;> rw [hs] at h
  · cases h
    exact .inl ⟨(nextAgent_none hn).1, (nextAgent_none hn).2, rfl⟩
  · rcases sampleStep_cases h with ⟨hc, -⟩ | ⟨q, hq, hi, ht⟩
    · have hb := (nextAgent_sequencer hn).1
      simp only at hc
      simp [State.busy, hc] at hb
    · exact .inr (.inl ⟨rest, q, hn, hq, hi, ht⟩)
  · exact .inr (.inr ⟨rest, op, ops, hn, hp, hst, h⟩)

/-- The first of several steps. -/
theorem stepRun_succ {s t : State} {n : Nat} (h : step s = .next t) : stepRun (n + 1) s = stepRun n t := by
  simp only [stepRun, h]

/-- A run of sample steps in two parts. -/
theorem sampleRun_add {c : Config} {m : Nat} (n : Nat) {s t : State} (h : sampleRun c m s = .next t) :
    sampleRun c (m + n) s = sampleRun c n t := by
  induction m generalizing s with
  | zero => cases h; rw [Nat.zero_add]
  | succ m ih =>
    rw [Nat.succ_add]
    simp only [sampleRun] at h ⊢
    split at h
    · exact ih h
    · cases h
    · cases h

/-- The operation a step performs is what `hostPerforms` names. -/
theorem hostPerforms_of {s : State} {rest : List Agent} {op : HostOp} {ops : List HostOp}
    (hn : s.nextAgent = some (.host, rest)) (hp : s.pending = op :: ops) : s.hostPerforms op :=
  ⟨⟨ops, hp⟩, rest, hn⟩

theorem accepts_of {s : State} {rest : List Agent} {w : Word} {ops : List HostOp} {i : Instr}
    (hn : s.nextAgent = some (.host, rest)) (hp : s.pending = cmdWrite w :: ops) (hw : decode w = i) : s.accepts i :=
  ⟨w, hostPerforms_of hn hp, hw⟩

end Sys2Proof.Machine
end

