-- ==== Sys2Proof/Tests/Slice0.lean ====
section
/-! SUPPORT. Tests: the checks of well-formedness, words written out from the encodings, the spec's test vectors
(95_test_vectors.md, under its configuration TC1), and for every statement with hypotheses a state and operands that
meet them. Expected values are the spec's. -/

namespace Sys2Proof.Tests

open Sys2Proof Sys2Proof.Machine

/-! ### Test configuration TC1 (95_test_vectors.md) -/

/-- TC1; the free values, which it does not give, are fixed here for evaluation only. -/
def tc1 : Config where
  bankCount  := 2
  morphScale := 0x3FC00000#32
  wavetable  := fun b i => f32Literal false (if b = 0 then i else 128 - i) 128
  pitchToInc := fun note fine => f32Literal false (256 * note.toNat + fine.toNat) 65536
  softClip   := fun v => v
  sine       := fun y => F32.sub ⟨false, 0⟩ y F32.one
  maxFrames  := 4095
  mirrorFrac := .observed
  base       := 0x40000000
  nan        := fun _ _ => ⟨true, 5⟩
  nanParam   := fun _ _ => ⟨false, 9⟩
  unwritten  := fun _ _ => 0xA5#8

/-- NaN draws for tests. -/
def nan1 : FpSite → NaNPattern := tc1.nan 0

/-- READ under TC1. -/
abbrev rd (x m : F32) : F32 := readTable tc1 nan1 x m

/-! ### Well-formedness: one ill-formed term a check -/

theorem test_wf_refuses_frames_over_max : Instr.wfWith 100 (.cycle 0#8 0#8 101#12) = false := by decide
theorem test_wf_refuses_nop_of_slot_1 : Instr.wf (.paramNop 1#8) = false := by decide
theorem test_wf_refuses_illegal_of_a_legal_word : Instr.wf (.illegal 0x00000001#32) = false := by decide
theorem test_wf_accepts_max_frames : Instr.wf (.cycle 255#8 255#8 4095#12) = true := by decide

/-! ### Decoding: words written out from 30_encoding.md R58 (V-EN-1 to V-EN-18) -/

theorem test_decode_init : decode 0x00000001#32 = .init := by decide
theorem test_decode_cycle : decode 0x3C80FFF2#32 = .cycle 60#8 128#8 4095#12 := by decide
theorem test_decode_cycle_frames_4 : decode 0x20000042#32 = .cycle 0x20#8 0#8 4#12 := by decide
theorem test_decode_param_morph : decode 0x00000003#32 = .paramMorph := by decide
theorem test_decode_param_shape : decode 0x00000013#32 = .paramShape := by decide
theorem test_decode_param_nop : decode 0x00000FF3#32 = .paramNop 255#8 := by decide
theorem test_decode_note_on : decode 0x3C000004#32 = .noteOn 60#8 0#8 := by decide
theorem test_decode_note_off : decode 0x3C010005#32 = .noteOff 60#8 1#8 := by decide
theorem test_decode_illegal_cases :
    decode 0x00000000#32 = .illegal 0x00000000#32 ∧ decode 0x00000006#32 = .illegal 0x00000006#32 ∧
    decode 0x00000011#32 = .illegal 0x00000011#32 ∧ decode 0x00001003#32 = .illegal 0x00001003#32 ∧
    decode 0x3C000014#32 = .illegal 0x3C000014#32 ∧ decode 0xFFFFFFFF#32 = .illegal 0xFFFFFFFF#32 := by decide
theorem test_decode_max_frames_100 :
    decodeWith 100 0x00000652#32 = .illegal 0x00000652#32 ∧ decode 0x00000652#32 = .cycle 0#8 0#8 101#12 := by decide
theorem test_decode_bytes_little_endian :
    decodeBytes [0x42#8, 0x00#8, 0x00#8, 0x20#8, 0xFF#8] = .ok (.cycle 0x20#8 0#8 4#12, [0xFF#8]) := by rfl
theorem test_decode_bytes_truncated : decodeBytes [0x01#8, 0x00#8, 0x00#8] = .error .truncated := by rfl
theorem test_encode_cycle : encode (.cycle 60#8 128#8 4095#12) = 0x3C80FFF2#32 := by decide
theorem test_decode_table_word : decodeTableWord 32 0x20000042 = some (.cycle 0x20#8 0#8 4#12) := by decide

/-! ### The reader, the bank, the fold (V-RD, V-BK, V-FD) -/

theorem test_read_weighted_direct : rd 0x3E810000#32 0x00000000#32 = 0x3F010000#32 := by decide
theorem test_read_half_is_mirrored : rd 0x3F000000#32 0x00000000#32 = 0xBF800000#32 := by decide
theorem test_read_weighted_mirrored : rd 0x3F408000#32 0x00000000#32 = 0xBEFE0000#32 := by decide
theorem test_read_just_under_one : rd 0x3F7FFFFF#32 0x00000000#32 = 0xB4000000#32 := by decide
theorem test_read_just_under_half : rd 0x3EFFFFFF#32 0x00000000#32 = 0x3F7FFFFF#32 := by decide
theorem test_read_rounded_weight : rd 0x3DCCCCCD#32 0x00000000#32 = 0x3E4CCCCD#32 := by decide
theorem test_read_negative_phase : rd 0xBF400000#32 0x00000000#32 = 0xBF000000#32 := by decide
theorem test_read_bank_1_negative_zero : rd 0x3F000000#32 0x3F800000#32 = 0x80000000#32 := by decide
theorem test_read_infinite_phase : F32.isNaN (rd 0x7F800000#32 0x00000000#32) = true := by decide
theorem test_bank_of_minus_one_and_a_half : bankOf tc1 nan1 0xBFC00000#32 = 1 := by decide
theorem test_fold_of_zero : foldSample nan1 0x80000000#32 = 0x3F800000#32 := by decide
theorem test_fold_of_one : foldSample nan1 0x3F800000#32 = 0x00000000#32 := by decide

/-! ### Conversions (V-FX, V-FF), phase (V-PH), ramp (V-LFO), pitch (V-PI) -/

theorem test_to_fixed_largest_below_one : toFixed 0x3F7FFFFF#32 = 0x7FFFFF80#32 := by decide
theorem test_to_fixed_minus_one_unit : toFixed 0xB0000000#32 = 0xFFFFFFFF#32 := by decide
theorem test_to_fixed_nan : toFixed 0x7FC00000#32 = 0x00000000#32 := by decide
theorem test_from_fixed_rounds_up : fromFixed 0x7FFFFFFF#32 = 0x3F800000#32 := by decide
theorem test_from_fixed_least_negative : fromFixed 0xFFFFFFFF#32 = 0xB0000000#32 := by decide
theorem test_phase_tie_to_even_wraps : nextPhase nan1 0x3F7FFFFF#32 0x33000000#32 = 0x00000000#32 := by decide
theorem test_phase_rounded_sum : nextPhase nan1 0x3DCCCCCD#32 0x3E4CCCCD#32 = 0x3E99999A#32 := by decide
theorem test_ramp_step_down : rampStep nan1 0x00000000#32 0x3F000000#32 3 = 0xBE2AAAAB#32 := by decide
theorem test_pitch_of_tc1 : tc1.pitchToInc 0xFF#8 0xFF#8 = 0x3F7FFF00#32 := by decide

/-! ### Commands and steps -/

/-- An idle state with recognizable contents. -/
def idle : State := { State.reset with
  osc := ⟨0x3E800000#32, 0x3F000000#32, 0x3E000000#32, 0x3D000000#32, 0x3F400000#32, 0x40000000#32⟩
  err := true, arg := 0x40000000#32, outbuf := [(0x1000, 0x11#8), (0x1001, 0x22#8), (0x1002, 0x33#8), (0x1003, 0x44#8)] }

/-- A CYCLE of 4 frames that has not run a sample yet (V-CY-1, P3). -/
def running : State := { State.reset with
  osc := ⟨0x3E800000#32, 0x00000000#32, 0x3F000000#32, 0x00000000#32, 0x3F400000#32, 0x40000000#32⟩
  arg := 0x40000000#32, cyc := some ⟨4, 0, 0x3E000000#32⟩ }

/-- The state in an outcome. -/
def after (o : Host.Outcome State Fault Refusal) : Option State :=
  match o with
  | .next t => some t
  | .fault _ => none
  | .refused _ => none

/-- V-IN-1: INIT on a state with any values. -/
theorem test_init : (after (exec .init idle)).map (fun t => (t.osc, t.err, t.arg, t.outbuf)) =
    some (Osc.zero, false, 0x40000000#32, idle.outbuf) := by decide
theorem test_init_stalls : after (exec .init running) =
    some { running with pending := [.write .word 0x000 0x00000001#32] } := by decide

/-- V-CY-1: the acceptance, under TC1. -/
theorem test_cycle_acceptance :
    (cycleEffect tc1 0x40#8 0#8 4#12 { State.reset with arg := 0x40000000#32 }).osc.phaseInc = 0x3E800000#32 ∧
    (cycleEffect tc1 0x40#8 0#8 4#12 { State.reset with arg := 0x40000000#32 }).osc.lfoTarget = 0x3F000000#32 ∧
    (cycleEffect tc1 0x40#8 0#8 4#12 { State.reset with arg := 0x40000000#32 }).cyc =
      some ⟨4, 0, 0x3E000000#32⟩ := by decide
/-- V-CY-3: F = 0. -/
theorem test_cycle_of_no_frames : exec (.cycle 0x40#8 0#8 0#12) idle = .next idle := rfl

/-- V-PA-2, V-PA-3. -/
theorem test_param_morph : morphValue tc1 0x3F000000#32 = 0x3F400000#32 ∧
    morphValue tc1 0x3F800000#32 = 0x3FC00000#32 := by decide
theorem test_param_morph_while_busy : ∃ t, exec .paramMorph running = .next t ∧ t.cyc = running.cyc := ⟨_, rfl, rfl⟩

/-- V-PA-6, V-PA-7. -/
theorem test_param_shape : (after (exec .paramShape { State.reset with arg := 0x33800000#32 })).map (·.osc.shape) =
    some 0x3F800000#32 := by decide
theorem test_param_shape_unchecked : shapeValue tc1 0xBF800000#32 = 0x00000000#32 := by decide

/-- V-PA-9, V-NO-1, V-IL-1. -/
theorem test_param_nop : exec (.paramNop 2#8) running = .next running := rfl
theorem test_note_on : exec (.noteOn 60#8 0#8) running = .next running := rfl
theorem test_note_off : exec (.noteOff 60#8 0#8) idle = .next idle := rfl
theorem test_illegal : (after (step (State.reset.withFetchWord 32 0))).map State.status = some 0x00000002#32 := by decide
theorem test_illegal_while_busy : after (exec (.illegal 0x00000007#32) running) = some { running with err := true } := by decide

/-- P3, samples 0 and 2 under TC1: the words, and the phase and the LFO after them. -/
theorem test_sample_step_p3_0 : (after (sampleStep tc1 running)).map (fun t => (t.outWord tc1 0, t.osc.phase, t.osc.lfoCurrent, t.cyc)) =
    some (0x00000000#32, 0x3E800000#32, 0x3E000000#32, some ⟨4, 1, 0x3E000000#32⟩) := by decide +kernel
theorem test_sample_word_p3_crosses_the_bank :
    sampleWord tc1 nan1 ⟨0x3E800000#32, 0x3F400000#32, 0x3F000000#32, 0x3EC00000#32, 0x3F400000#32, 0x40000000#32⟩ =
      0x7FFFFFFF#32 := by decide +kernel
/-- P1, sample 1 (41_block_generator.md R100, worked example). -/
theorem test_sample_word_p1 :
    sampleWord tc1 nan1 ⟨0x3E000000#32, 0x3E000000#32, 0#32, 0#32, 0#32, 0x3F800000#32⟩ = 0xA0000000#32 := by decide +kernel
/-- V-CY-2: the last sample step clears BUSY. -/
theorem test_last_sample_clears_busy :
    (after (sampleStep tc1 { running with cyc := some ⟨4, 3, 0x3E000000#32⟩ })).map State.busy = some false := by decide

/-- Every row's word runs as the first command after reset. -/
theorem test_first_command_after_reset :
    (∃ t, step (State.reset.withFetchWord 32 0x00000001) = .next t) ∧
    (∃ t, step (State.reset.withFetchWord 32 0x20000042) = .next t ∧ t.busy = true) ∧
    (∃ t, step (State.reset.withFetchWord 32 0x00000003) = .next t) ∧
    (∃ t, step (State.reset.withFetchWord 32 0x00000013) = .next t ∧ t.osc.shape = 0x3F800000#32) ∧
    (∃ t, step (State.reset.withFetchWord 32 0x00000073) = .next t) ∧
    (∃ t, step (State.reset.withFetchWord 32 0x3C000004) = .next t) ∧
    (∃ t, step (State.reset.withFetchWord 32 0x3C000005) = .next t) :=
  ⟨⟨_, rfl⟩, ⟨_, rfl, rfl⟩, ⟨_, rfl⟩, ⟨_, rfl, by decide⟩, ⟨_, rfl⟩, ⟨_, rfl⟩, ⟨_, rfl⟩⟩

/-! ### The window, WAIT and the schedule -/

theorem test_read_status : after (step { idle with pending := [.read .word 0x008] }) =
    some { idle with reads := [⟨0x008, 0x00000002#32⟩] } := by decide
theorem test_read_outbuf_word : readReg tc1 idle 0x1000 = 0x44332211#32 := by decide
theorem test_read_unwritten_outbuf_is_free : readReg tc1 idle 0x1004 = 0xA5A5A5A5#32 := by decide
theorem test_read_beyond_max_frames : readReg tc1 idle 0x4FFC = 0x00000000#32 := by decide
theorem test_bus_byte : windowByte tc1 idle 0x1001 = 0x22#8 ∧ windowByte tc1 idle 0x017 = 0x3F#8 := by decide
theorem test_window_offset : windowOffset tc1 0x40000014 = some 0x014 ∧ windowOffset tc1 0x40005000 = none := by decide
theorem test_half_word_access_refused :
    step { idle with pending := [.read .half 0x008] } = .refused (.notAlignedWord .half 0x008) := rfl
theorem test_misaligned_access_refused :
    step { idle with pending := [.write .word 0x006 0#32] } = .refused (.notAlignedWord .word 0x006) := rfl
theorem test_wait_stays_while_busy :
    (after (step { running with pending := [.wait], turns := [.host] })).map (fun t => (t.pending, t.reads)) =
      some ([.wait], [⟨0x008, 0x00000001#32⟩]) := by decide
theorem test_wait_ends_when_idle :
    (after (step { State.reset with pending := [.wait] })).map (fun t => (t.pending, t.reads)) =
      some ([], [⟨0x008, 0x00000000#32⟩]) := by decide
theorem test_schedule_names_the_host :
    (after (step { running with pending := [.write .word 0x004 7#32], turns := [.host, .sequencer] })).map
      (fun t => (t.arg, t.turns, t.cyc)) = some (7#32, [.sequencer], running.cyc) := by decide
theorem test_power_on : (after (step { running with pending := [.powerOn], turns := [.host], err := true })).map
    (fun t => (t.status, t.arg, t.osc, t.powerUps)) = some (0#32, 0#32, Osc.zero, 1) := by decide
theorem test_literal_rounds_to_even : f32Literal false 1 10 = 0x3DCCCCCD#32 ∧ f32Literal true 3 1 = 0xC0400000#32 := by decide

/-! ### Witnesses: for each statement with hypotheses, a case that meets them -/

theorem running_inv : running.Inv := by
  refine ⟨List.Pairwise.nil, ?_, ?_, ?_, ?_⟩
  · intro a h; simp [running, State.reset] at h
  · intro i k _ h; simp [running, State.reset] at h
  · intro q h
    obtain rfl : (⟨4, 0, 0x3E000000#32⟩ : InFlight) = q := Option.some.inj h
    exact ⟨by decide, by decide⟩
  · intro q h i hi
    obtain rfl : (⟨4, 0, 0x3E000000#32⟩ : InFlight) = q := Option.some.inj h
    exact absurd hi (Nat.not_lt_zero i)

theorem tc1_valid : tc1.Valid := ⟨by decide, by decide, by decide, by decide⟩

theorem witness_DecodeOfEncode : Instr.wfWith 4095 (.cycle 255#8 255#8 4095#12) = true ∧
    Instr.wfWith 0 (.paramNop 2#8) = true ∧ Instr.wf (.illegal 0x00000006#32) = true := by decide
theorem witness_IllegalWords : decode 0x00000006#32 = .illegal 0x00000006#32 ∧
    4094 < (0x0000FFF2#32 : Word).toNat / 2 ^ 4 % 2 ^ 12 := by decide
theorem witness_DecoderSelects :
    Word.isIllegal 4095 0x00000000#32 = true ∧ Word.isIllegal 4095 0x00000001#32 = false ∧
    Word.isIllegal 4095 0xFFFFFFF2#32 = false ∧ Word.isIllegal 4095 0x00000003#32 = false ∧
    Word.isIllegal 4095 0x00000013#32 = false ∧ Word.isIllegal 4095 0x00000023#32 = false ∧
    Word.isIllegal 4095 0xFFFF0004#32 = false ∧ Word.isIllegal 4095 0x00000005#32 = false := by decide
theorem witness_StepRuns_idle : ∃ (s : State) (w : Word) (rest : List HostOp), s.pending = cmdWrite w :: rest ∧ s.busy = false :=
  ⟨{ State.reset with pending := [cmdWrite 0x1#32] }, 0x1#32, [], rfl, rfl⟩
theorem witness_StepRuns_busy : ∃ (s : State) (w : Word) (rest : List HostOp) (turns : List Agent), s.pending = cmdWrite w :: rest ∧ s.busy = true ∧
    s.turns = .host :: turns ∧ decode w ≠ .init ∧ ∀ note fine frames, decode w ≠ .cycle note fine frames :=
  ⟨{ running with pending := [cmdWrite 0x3#32], turns := [.host] }, 0x3#32, [], [], rfl, rfl, rfl, by decide,
    fun _ _ _ h => absurd (show Instr.paramMorph = _ from h) (by simp)⟩
theorem witness_Stall : ∃ (s : State) (w : Word) (rest : List HostOp) (t : State), s.pending = cmdWrite w :: rest ∧ s.busy = true ∧ decode w = .init ∧ step s = .next t :=
  ⟨{ running with pending := [cmdWrite 0x1#32] }, 0x1#32, [], _, rfl, rfl, by decide, rfl⟩
theorem witness_Stall_cycle : ∃ w note fine frames, decode w = .cycle note fine frames :=
  ⟨0x2#32, 0#8, 0#8, 0#12, by decide⟩
theorem witness_idle_block : idle.busy = false ∧ State.reset.busy = false := by decide
theorem witness_CycleAcceptance : idle.busy = false ∧ (1#12 : BitVec 12) ≠ 0#12 ∧ (4095#12 : BitVec 12) ≠ 0#12 := by decide
theorem witness_ParamMorph : tc1.Valid ∧ F32.Between 0 F32.unitOne 0x80000000#32 ∧ F32.Between 0 F32.unitOne 0x3F800000#32 ∧
    0 < F32.val tc1.morphScale ∧ F32.sign tc1.morphScale = false ∧ tc1.morphScale = 0x3FC00000#32 ∧
    F32.isNaN 0x7F800001#32 = true :=
  ⟨tc1_valid, by decide, by decide, by decide, by decide, rfl, by decide⟩
/-- The bound of 00_scope.md R8 with one bank: −0.0 and the largest value below 1 meet it, 1.0 does not. -/
theorem test_scale_bound_of_one_bank : Config.scaleInRange 1 0x80000000#32 = true ∧
    Config.scaleInRange 1 0x3F7FFFFF#32 = true ∧ Config.scaleInRange 1 0x3F800000#32 = false := by decide
/-- A valid configuration with the scale −0.0. -/
theorem witness_ParamMorph_negative_zero : ({ tc1 with bankCount := 1, morphScale := 0x80000000#32 } : Config).Valid :=
  ⟨by decide, by decide, by decide, by decide⟩
theorem witness_ParamNop : (0x23#32 : Word).toNat % 16 = 3 ∧ (0x23#32 : Word).toNat / 2 ^ 12 = 0 ∧
    2 ≤ (0x23#32 : Word).toNat / 2 ^ 4 := by decide
theorem witness_NoteWords : (0x14#32 : Word).toNat % 16 = 4 ∧ (0x14#32 : Word).toNat / 2 ^ 4 % 2 ^ 12 ≠ 0 ∧
    (0xFFF5#32 : Word).toNat % 16 = 5 ∧ (0xFFF5#32 : Word).toNat / 2 ^ 4 % 2 ^ 12 ≠ 0 := by decide
theorem witness_Illegal : ∃ t, sampleStep tc1 running = .next t := ⟨_, rfl⟩
theorem witness_ParamIsIdempotent : idle.arg = running.arg := rfl
theorem witness_CommandFrames : (∃ t, exec .init idle = .next t) ∧ (∃ t, exec .init running = .next t) ∧
    (∃ t, exec (.cycle 1#8 2#8 3#12) idle = .next t) ∧ (∃ t, exec .paramMorph idle = .next t) ∧
    (∃ t, exec .paramShape idle = .next t) ∧ (∃ t, exec (.illegal 0#32) idle = .next t) :=
  ⟨⟨_, rfl⟩, ⟨_, rfl⟩, ⟨_, rfl⟩, ⟨_, rfl⟩, ⟨_, rfl⟩, ⟨_, rfl⟩⟩
theorem witness_SampleStep : running.cyc = some ⟨4, 0, 0x3E000000#32⟩ ∧ 0 < tc1.maxFrames := by decide
/-- The sequencer moves next, so the host performs nothing. -/
theorem not_hostPerforms {s : State} {turns : List Agent} {op : HostOp} (hn : s.nextAgent = some (.sequencer, turns)) :
    ¬ s.hostPerforms op := by
  rintro ⟨-, r, h⟩
  rw [hn] at h
  cases h
theorem witness_OneWriter : ∃ t, step running = .next t ∧ ¬ running.accepts .init ∧ ¬ running.hostPerforms .powerOn ∧
    t.osc.phase ≠ running.osc.phase :=
  ⟨_, rfl, fun ⟨_, h, _⟩ => not_hostPerforms (turns := []) rfl h, not_hostPerforms (turns := []) rfl, by decide⟩
/-- A stalled INIT and a power-on that waits its turn are not performed: both states are covered. -/
theorem witness_OneWriter_waiting :
    ¬ ({ running with pending := [cmdWrite 0x1#32] } : State).accepts .init ∧
    ¬ ({ running with pending := [.powerOn] } : State).hostPerforms .powerOn :=
  ⟨fun ⟨_, h, _⟩ => not_hostPerforms (turns := []) rfl h, not_hostPerforms (turns := []) rfl⟩
theorem witness_OneWriter_cycle : ∃ t, step (State.reset.withFetchWord 32 0x20000042) = .next t ∧
    (State.reset.withFetchWord 32 0x20000042).accepts (.cycle 0x20#8 0#8 4#12) :=
  ⟨_, rfl, accepts_of (rest := []) rfl rfl (by decide)⟩
theorem witness_OneWriter_changes : ∃ s t, step s = .next t ∧ t.osc.shape ≠ s.osc.shape :=
  ⟨{ State.reset with pending := [cmdWrite 0x13#32] }, _, rfl, by decide⟩
theorem witness_Arithmetic : F32.isFinite 0x7F7FFFFF#32 = true ∧ F32.isFinite 0x00000001#32 = true ∧
    F32.val 0x00000001#32 ≠ 0 ∧ F32.overflowBound * ((1 : Nat) : Int) ≤ |F32.val 0x7F7FFFFF#32 + F32.val 0x7F7FFFFF#32| := by decide
theorem witness_Arithmetic_special : F32.isInf 0x7F800000#32 = true ∧ F32.isInf 0xFF800000#32 = true ∧
    F32.sign 0x7F800000#32 ≠ F32.sign 0xFF800000#32 ∧ F32.val 0x80000000#32 = 0 ∧ F32.val 0x00000000#32 = 0 ∧
    F32.val 0x3F800000#32 + F32.val 0xBF800000#32 = 0 ∧ F32.isNaN 0x7FC00000#32 = true ∧
    F32.isNaN (F32.mul ⟨false, 0⟩ 0x7F800000#32 0xBF800000#32) = false ∧
    F32.isNaN (F32.div ⟨false, 0⟩ 0x3F800000#32 0x80000000#32) = false := by decide
/-- R11: invalid operations give a NaN, a zero divisor an infinity. -/
theorem test_invalid_and_infinite : F32.isNaN (F32.mul ⟨false, 0⟩ 0x00000000#32 0x7F800000#32) = true ∧
    F32.isNaN (F32.div ⟨false, 0⟩ 0x00000000#32 0x80000000#32) = true ∧
    F32.isNaN (F32.div ⟨false, 0⟩ 0x7F800000#32 0x7F800000#32) = true ∧
    F32.div ⟨false, 0⟩ 0x3F800000#32 0x80000000#32 = 0xFF800000#32 := by decide
theorem witness_NaN : F32.isNaN 0xFFFFFFFF#32 = true ∧ F32.isNaN (F32.add ⟨false, 0⟩ 0x7F800000#32 0xFF800000#32) = true := by decide
theorem witness_Trunc : F32.isNaN 0x7FC00000#32 = true ∧ F32.isInf 0xFF800000#32 = true ∧ F32.isFinite 0x80000000#32 = true := by decide
theorem witness_ToInt : F32.isNaN 0x4F000000#32 = false ∧ 2 ^ 31 * F32.unitOne ≤ F32.val 0x4F000000#32 ∧
    F32.val 0xCF000000#32 ≤ -(2 ^ 31 * F32.unitOne) ∧ -(2 ^ 31 * F32.unitOne) < F32.val 0xCEFFFFFF#32 ∧
    F32.val 0x4EFFFFFF#32 < 2 ^ 31 * F32.unitOne ∧ |(-(2 ^ 24) : Int)| ≤ 2 ^ 24 := by decide
theorem witness_ToFixed : F32.isNaN 0x3F800000#32 = false ∧ F32.unitOne ≤ F32.val 0x3F800000#32 ∧
    F32.val 0xBF800000#32 ≤ -F32.unitOne ∧ -F32.unitOne < F32.val 0xBF7FFFFF#32 ∧ F32.val 0x3F7FFFFF#32 < F32.unitOne := by decide
theorem witness_FractionalPhase : F32.isFinite 0x3F800000#32 = true ∧ 0 ≤ F32.val 0x80000000#32 ∧
    F32.val 0x80000001#32 < 0 ∧ F32.isFinite 0x7F800000#32 = false := by decide
theorem witness_TablePosition : F32.isFinite 0xBF7FFFFF#32 = true ∧ |F32.val 0xBF7FFFFF#32| < F32.unitOne := by decide
theorem witness_TableIndex : F32.InRange 0 (256 * F32.unitOne) 0x00000000#32 ∧
    F32.InRange 0 (256 * F32.unitOne) 0x437FFFFF#32 ∧ F32.isNaN 0x7FC00000#32 = true := by decide
theorem witness_TableIndex_negative : (F32.isFinite 0xC37FFFFF#32 = true ∧ -(256 * F32.unitOne) < F32.val 0xC37FFFFF#32 ∧
    F32.val 0xC37FFFFF#32 < 0) ∧ F32.isFinite 0x80000001#32 = true ∧ F32.val 0x80000001#32 < 0 := by decide
/-- R75: −0.5 has the index −1, not the truncated 0. -/
theorem test_index_of_negative_half : tableIndex nan1 0xBF000000#32 = -1 ∧ tableWeight nan1 0xBF000000#32 = 0x3F000000#32 := by decide
theorem witness_Fold : (0 ≤ (127 : Int) ∧ (127 : Int) < 128) ∧ ¬ (0 ≤ (128 : Int) ∧ (128 : Int) < 128) ∧
    ¬ (0 ≤ (-1 : Int) ∧ (-1 : Int) < 128) := by decide
theorem witness_Bank : 1 ≤ tc1.bankCount ∧ tc1.bankCount = 2 ∧ F32.isNaN 0x7FC00000#32 = true := by decide
theorem witness_Interpolation : tc1.mirrorFrac = .observed ∧
    ({ tc1 with mirrorFrac := .recomputed } : Config).mirrorFrac = .recomputed := ⟨rfl, rfl⟩
theorem witness_ReaderCorners : tc1.mirrorFrac = .observed ∧
    F32.isFinite (tc1.wavetable (bankOf tc1 nan1 0x3F800000#32) 0) = true ∧
    F32.isFinite (F32.sub (nan1 .slopeSub) (tc1.wavetable (bankOf tc1 nan1 0x3F800000#32) 1)
      (tc1.wavetable (bankOf tc1 nan1 0x3F800000#32) 0)) = true ∧
    F32.isFinite (tc1.wavetable (bankOf tc1 nan1 0x00000000#32) 128) = true ∧
    F32.isFinite (F32.sub (nan1 .slopeSub) (tc1.wavetable (bankOf tc1 nan1 0x00000000#32) 127)
      (tc1.wavetable (bankOf tc1 nan1 0x00000000#32) 128)) = true ∧
    F32.isFinite 0xFF800000#32 = false ∧ F32.isFinite 0x3FA00000#32 = true ∧ F32.sign 0x3FA00000#32 = false := by decide
theorem witness_ReadBranches : (foldIndex (tableIndex nan1 (tablePosition nan1 0x3E810000#32))).neg = false ∧
    (foldIndex (tableIndex nan1 (tablePosition nan1 0x3F408000#32))).neg = true := by decide
theorem witness_FoldCases : F32.isNaN 0x80000000#32 = false ∧ F32.val 0x80000000#32 ≤ 0 ∧ 0 < F32.val 0x00000001#32 ∧
    F32.isNaN 0x7FC00000#32 = true := by decide
theorem witness_FoldRange : F32.isFinite 0x7F7FFFFF#32 = true ∧ 0 < F32.val 0x7F7FFFFF#32 ∧
    F32.Between (-F32.unitOne) 0 0xBF800000#32 ∧ F32.Between (-F32.unitOne) 0 0x80000000#32 := by decide
theorem witness_ZeroShape : F32.isFinite (tc1.sine (foldSample nan1 (rawSample tc1 nan1 Osc.zero))) = true := by decide
theorem witness_PhaseAdvance : ∃ t, running.cyc = some ⟨4, 0, 0x3E000000#32⟩ ∧ sampleStep tc1 running = .next t := ⟨_, rfl, rfl⟩
theorem witness_NaNPhase : ∃ s t, F32.isNaN s.osc.phase = true ∧ step s = .next t ∧ ¬ s.accepts .init ∧
    ¬ s.hostPerforms .powerOn :=
  ⟨{ running with osc := { running.osc with phase := 0x7FC00000#32 } }, _, by decide, rfl,
    fun ⟨_, h, _⟩ => not_hostPerforms (turns := []) rfl h, not_hostPerforms (turns := []) rfl⟩
theorem witness_PhaseInUnit : F32.InRange 0 F32.unitOne 0x00000000#32 ∧ F32.InRange 0 F32.unitOne 0x3F7FFFFF#32 ∧
    F32.isFinite 0x7F7FFFFF#32 = true ∧ 0 ≤ F32.val 0x80000000#32 := by decide
theorem witness_PhaseStep : ∃ t, running.PhaseInUnit ∧ running.IncNonNeg ∧ step running = .next t ∧
    ∀ note fine frames, running.accepts (.cycle note fine frames) →
      F32.isFinite (Config.machine.pitchToInc note fine) = true ∧ 0 ≤ F32.val (Config.machine.pitchToInc note fine) :=
  ⟨_, by decide, by decide, rfl, fun _ _ _ ⟨_, h, _⟩ => absurd h (not_hostPerforms (turns := []) rfl)⟩
/-- IncFiniteNonNeg is met by a pitch function; the machine's own has no body (log entry 1). -/
theorem witness_IncFiniteNonNeg : ({ tc1 with pitchToInc := fun _ _ => 0x3E800000#32 } : Config).IncFiniteNonNeg :=
  fun _ _ => ⟨(by decide : F32.isFinite 0x3E800000#32 = true), (by decide : 0 ≤ F32.val 0x3E800000#32)⟩
theorem witness_LfoRamp : running.cyc = some ⟨4, 0, 0x3E000000#32⟩ ∧ 0 + 4 ≤ 4 ∧ 4 ≤ tc1.maxFrames := by decide
theorem witness_FlatRamp : 1 ≤ 4095 ∧ 4095 ≤ 4095 := by decide
/-- An idle block whose LFO has reached the target in ARG. -/
def reached : State := { idle with osc := { idle.osc with lfoCurrent := 0x3F000000#32 } }
theorem witness_FlatRamp_cycle : reached.busy = false ∧ (3#12 : BitVec 12) ≠ 0#12 ∧
    reached.osc.lfoCurrent = fromFixed reached.arg := by decide
theorem witness_BlocksJoin : (5#12 : BitVec 12).toNat = (2#12 : BitVec 12).toNat + (3#12 : BitVec 12).toNat ∧
    (5#12 : BitVec 12).toNat ≤ tc1.maxFrames ∧ (∀ n, n ≤ reached.draws + 2 → tc1.nan n = tc1.nan n) ∧
    ∀ n, reached.draws + 2 < n → tc1.nan n = tc1.nan (n + 1) := ⟨by decide, by decide, fun _ _ => rfl, fun _ _ => rfl⟩
theorem witness_CycleCompletes : running.Inv ∧ running.pending = [] ∧ running.cyc = some ⟨4, 0, 0x3E000000#32⟩ :=
  ⟨running_inv, rfl, rfl⟩
/-- The state of a PARAM that lands after k samples of a CYCLE of 4. -/
def racing (w : Word) (k : Nat) : State :=
  { running with pending := [cmdWrite w], turns := List.replicate k .sequencer ++ [.host] }
theorem racing_inv (w : Word) (k : Nat) : (racing w k).Inv :=
  ⟨running_inv.1, running_inv.2, running_inv.3, running_inv.4, running_inv.5⟩
theorem witness_Race_morph_at_once : (racing 0x3#32 0).Inv ∧ (racing 0x3#32 0).cyc = some ⟨4, 0, 0x3E000000#32⟩ ∧
    0 ≤ 4 - 0 ∧ decode 0x3#32 = .paramMorph := ⟨racing_inv _ _, rfl, by decide, by decide⟩
theorem witness_Race_shape_halfway : (racing 0x13#32 2).Inv ∧ (racing 0x13#32 2).cyc = some ⟨4, 0, 0x3E000000#32⟩ ∧
    2 ≤ 4 - 0 ∧ decode 0x13#32 = .paramShape := ⟨racing_inv _ _, rfl, by decide, by decide⟩
theorem witness_Race_after_the_last_sample : (racing 0x3#32 4).turns = List.replicate 4 .sequencer ++ .host :: [] ∧
    (racing 0x3#32 4).pending = cmdWrite 0x3#32 :: [] ∧ 4 ≤ 4 - 0 := ⟨rfl, rfl, by decide⟩
theorem witness_AnySchedule : (racing 0x13#32 2).Inv ∧ (racing 0x13#32 2).cyc = some ⟨4, 0, 0x3E000000#32⟩ :=
  ⟨racing_inv _ _, rfl⟩
theorem witness_Status_rises : ∃ s t, step s = .next t ∧ s.busy = false ∧ t.busy = true :=
  ⟨State.reset.withFetchWord 32 0x20000042, _, rfl, rfl, rfl⟩
theorem witness_Status_falls : ∃ s t, step s = .next t ∧ s.busy = true ∧ t.busy = false :=
  ⟨{ running with cyc := some ⟨4, 3, 0#32⟩ }, _, rfl, rfl, rfl⟩
theorem witness_Err_rises : ∃ s t, step s = .next t ∧ s.err = false ∧ t.err = true :=
  ⟨State.reset.withFetchWord 32 0, _, rfl, rfl, rfl⟩
theorem witness_Err_falls : ∃ s t, step s = .next t ∧ s.err = true ∧ t.err = false :=
  ⟨idle.withFetchWord 32 1, _, rfl, rfl, rfl⟩
theorem witness_Arg : ∃ s t, step s = .next t ∧ t.arg ≠ s.arg :=
  ⟨{ idle with pending := [.write .word 0x004 5#32] }, _, rfl, by decide⟩
theorem witness_Arg_operand : ∃ t u v, exec .paramMorph idle = .next t ∧ exec .paramShape idle = .next u ∧
    idle.busy = false ∧ (1#12 : BitVec 12) ≠ 0#12 ∧ exec (.cycle 0#8 0#8 1#12) idle = .next v :=
  ⟨_, _, _, rfl, rfl, rfl, by decide, rfl⟩
theorem witness_Window : windowOffset tc1 0x40004FFF = some 0x4FFF ∧ 4094 < tc1.maxFrames := by decide
theorem witness_Reserved : (0x00C % 4 = 0 ∧ 0x00C < 0x5000) ∧ (0x028 % 4 = 0 ∧ 0xFFC % 4 = 0) ∧
    (0x4FFC % 4 = 0 ∧ 0x4FFC < 0x5000 ∧ 0x1000 + 4 * 4095 ≤ 0x4FFC) ∧ (0x008 ≠ 0x000 ∧ 0x008 ≠ 0x004) := by decide
theorem witness_Refused : (AccessSize.byte ≠ .word) ∧ ((2 : Nat) % 4 ≠ 0) ∧ (0x5000 % 4 = 0 ∧ 0x5000 ≤ 0x5000) ∧
    ∃ s r, step s = .refused r :=
  ⟨by decide, by decide, by decide, { idle with pending := [.read .byte 0] }, _, rfl⟩
theorem test_access_beyond_the_window_refused :
    step { idle with pending := [.read .word 0x5000] } = .refused (.outsideWindow 0x5000) := rfl
theorem witness_Store : Memory.wf idle.outbuf ∧ Memory.wf State.reset.outbuf ∧ (1 : Nat) ≠ 0 := by decide
theorem witness_Assembler : (2#8 : BitVec 8) ≤ 255#8 ∧ State.reset.status.getLsbD 0 = false ∧
    running.status.getLsbD 0 = true := by decide
theorem witness_Idle : State.reset.busy = false ∧ State.reset.pending = [] := by decide
theorem witness_StepKeepsInv : ∃ t, running.Inv ∧ step running = .next t := ⟨_, running_inv, rfl⟩
theorem witness_Morph : ∃ t, State.reset.MorphInBanks Config.machine ∧
    (State.reset.accepts .paramMorph → F32.Between 0 F32.unitOne State.reset.arg) ∧ step State.reset = .next t :=
  ⟨_, ⟨by decide, by decide, by
    have h := Config.machine_valid.bankCount_pos
    have hz : F32.val State.reset.osc.morph = 0 := by decide
    rw [hz]; positivity⟩, fun _ => by decide, rfl⟩
theorem witness_LfoTarget : ∃ t, F32.Between (-F32.unitOne) F32.unitOne running.osc.lfoTarget ∧ step running = .next t :=
  ⟨_, by decide, rfl⟩

end Sys2Proof.Tests
end

section
/-! PROOFS. The binary32 statements of 00_scope.md R13 to R15: what a NaN result can be, the integral roundings, and the
integer conversions. The lemmas on draws and on correct rounding are stated for every operation that rounds or draws. -/

namespace Sys2Proof

/-! ### NaN patterns and draws (R13) -/

theorem F32.isNaN_pack {s : Bool} {m : Nat} (h : m ≤ F32.infMag) : F32.isNaN (F32.pack s m) = false := by
  rw [Bool.eq_false_iff, ne_eq, F32.isNaN_iff, F32.mag_pack (by unfold F32.infMag at h; omega)]
  omega

theorem F32.isNaN_ofUnits (z : Bool) (k : Int) : F32.isNaN (F32.ofUnits z k) = false := by
  unfold F32.ofUnits
  split
  · exact F32.isNaN_pack (by decide)
  · exact F32.isNaN_pack (F32.roundMag_le_inf _ _)

/-- Every NaN can be drawn: its sign and its fraction name the draw. -/
theorem F32.isNaN_iff_exists_bits (x : F32) : F32.isNaN x = true ↔ ∃ p : NaNPattern, p.bits = x := by
  constructor
  · intro h
    have hlo := (F32.isNaN_iff x).mp h
    have hhi := F32.mag_lt x
    unfold F32.infMag at hlo
    have hmag : 0x7F800000 + (F32.mag x - 0x7F800001 + 1) = F32.mag x := by omega
    refine ⟨⟨F32.sign x, F32.mag x - 0x7F800001, by omega⟩, F32.ext_sign_mag ?_ ?_⟩
    · simp only [NaNPattern.bits, hmag, F32.sign_pack hhi]
    · simp only [NaNPattern.bits, hmag, F32.mag_pack hhi]
  · rintro ⟨p, rfl⟩
    exact p.isNaN_bits

/-- An operation, as a function of the pattern it is handed, either gives that pattern or ignores it and gives a
result that is no NaN. -/
def F32.NaNIsDraw (f : NaNPattern → F32) : Prop :=
  (∀ p, f p = p.bits) ∨ ∃ r, F32.isNaN r = false ∧ ∀ p, f p = r

theorem F32.NaNIsDraw.determined {f : NaNPattern → F32} (h : F32.NaNIsDraw f) (p q : NaNPattern) :
    F32.isNaN (f p) = F32.isNaN (f q) ∧ (F32.isNaN (f p) = true → f p = p.bits) := by
  rcases h with hbits | ⟨r, hr, hconst⟩
  · simp [hbits, NaNPattern.isNaN_bits]
  · simp [hconst, hr]

theorem F32.nanIsDraw_getD {o : Option F32} (h : ∀ r ∈ o, F32.isNaN r = false) :
    F32.NaNIsDraw fun p => o.getD p.bits := by
  cases o with
  | none => exact .inl fun _ => rfl
  | some r => exact .inr ⟨r, h r rfl, fun _ => rfl⟩

theorem F32.isNaN_of_mem_add? {a b r : F32} (h : r ∈ F32.add? a b) : F32.isNaN r = false := by
  unfold F32.add? at h
  split_ifs at h with hnan <;> cases h
  · exact (Bool.or_eq_false_iff.mp (Bool.eq_false_iff.mpr hnan)).1
  · exact (Bool.or_eq_false_iff.mp (Bool.eq_false_iff.mpr hnan)).2
  · exact F32.isNaN_ofUnits _ _

theorem F32.isNaN_of_mem_mul? {a b r : F32} (h : r ∈ F32.mul? a b) : F32.isNaN r = false := by
  unfold F32.mul? at h
  split_ifs at h <;> cases h
  · exact F32.isNaN_pack le_rfl
  · exact F32.isNaN_pack (F32.roundMag_le_inf _ _)

theorem F32.isNaN_of_mem_div? {a b r : F32} (h : r ∈ F32.div? a b) : F32.isNaN r = false := by
  unfold F32.div? at h
  split_ifs at h <;> cases h
  · exact F32.isNaN_pack le_rfl
  · exact F32.isNaN_pack (by decide)
  · exact F32.isNaN_pack le_rfl
  · exact F32.isNaN_pack (F32.roundMag_le_inf _ _)

theorem F32.nanIsDraw_add (a b : F32) : F32.NaNIsDraw fun p => F32.add p a b :=
  F32.nanIsDraw_getD fun _ => F32.isNaN_of_mem_add?

theorem F32.nanIsDraw_sub (a b : F32) : F32.NaNIsDraw fun p => F32.sub p a b := F32.nanIsDraw_add a (F32.neg b)

theorem F32.nanIsDraw_mul (a b : F32) : F32.NaNIsDraw fun p => F32.mul p a b :=
  F32.nanIsDraw_getD fun _ => F32.isNaN_of_mem_mul?

theorem F32.nanIsDraw_div (a b : F32) : F32.NaNIsDraw fun p => F32.div p a b :=
  F32.nanIsDraw_getD fun _ => F32.isNaN_of_mem_div?

theorem F32.trunc_nan {x : F32} (h : F32.isNaN x = true) (p : NaNPattern) : F32.trunc p x = p.bits := by
  simp [F32.trunc, h]

theorem F32.floor_nan {x : F32} (h : F32.isNaN x = true) (p : NaNPattern) : F32.floor p x = p.bits := by
  simp [F32.floor, h]

theorem F32.trunc_inf {x : F32} (h : F32.isInf x = true) (p : NaNPattern) : F32.trunc p x = x := by
  simp [F32.trunc, h, F32.not_nan_of_inf h]

theorem F32.floor_inf {x : F32} (h : F32.isInf x = true) (p : NaNPattern) : F32.floor p x = x := by
  simp [F32.floor, h, F32.not_nan_of_inf h]

theorem F32.nanIsDraw_trunc (a : F32) : F32.NaNIsDraw fun p => F32.trunc p a := by
  by_cases hn : F32.isNaN a = true
  · exact .inl fun p => F32.trunc_nan hn p
  by_cases hi : F32.isInf a = true
  · exact .inr ⟨a, F32.not_nan_of_inf hi, fun p => F32.trunc_inf hi p⟩
  · exact .inr ⟨_, F32.isNaN_ofUnits _ _, fun p => (if_neg hn).trans (if_neg hi)⟩

theorem F32.nanIsDraw_floor (a : F32) : F32.NaNIsDraw fun p => F32.floor p a := by
  by_cases hn : F32.isNaN a = true
  · exact .inl fun p => F32.floor_nan hn p
  by_cases hi : F32.isInf a = true
  · exact .inr ⟨a, F32.not_nan_of_inf hi, fun p => F32.floor_inf hi p⟩
  · exact .inr ⟨_, F32.isNaN_ofUnits _ _, fun p => (if_neg hn).trans (if_neg hi)⟩

theorem F32.getLsbD_neg (x : F32) {k : Nat} (hk : k < 32) :
    (F32.neg x).getLsbD k = if k = 31 then !x.getLsbD k else x.getLsbD k := by
  have hmask : ∀ j < 32, (0x80000000#32).getLsbD j = decide (j = 31) := by decide
  rw [F32.neg, BitVec.getLsbD_xor, hmask k hk]
  split <;> simp [*]

theorem F32.le_lt_false_of_nan {a b : F32} (h : F32.isNaN a = true ∨ F32.isNaN b = true) :
    F32.le a b = false ∧ F32.lt a b = false := by
  rcases h with h | h <;> simp [F32.le, F32.lt, h]

/-- Settles O22: every operation either hands its draw on or ignores it and gives no NaN. -/
theorem nanResultsAreDraws : Obligations.NaNResultsAreDraws :=
  ⟨F32.isNaN_iff_exists_bits,
    fun p q a b => ⟨(F32.nanIsDraw_add a b).determined p q, (F32.nanIsDraw_sub a b).determined p q,
      (F32.nanIsDraw_mul a b).determined p q, (F32.nanIsDraw_div a b).determined p q,
      (F32.nanIsDraw_trunc a).determined p q, (F32.nanIsDraw_floor a).determined p q⟩,
    fun x _ hk => F32.getLsbD_neg x hk, fun _ _ h => F32.le_lt_false_of_nan h⟩

/-! ### Integral roundings (R14) -/

/-- Settles O23: the NaN, the infinite and the finite operand, and R14's example. -/
theorem truncAndFloorAreIntegralRoundings : Obligations.TruncAndFloorAreIntegralRoundings := by
  refine ⟨fun p x h => ?_, fun p x h => ⟨F32.trunc_inf h p, F32.floor_inf h p⟩, fun p x h => ?_, fun _ => ?_,
    fun _ _ _ => rfl⟩
  · rw [F32.trunc_nan h, F32.floor_nan h]
    exact ⟨p.isNaN_bits, p.isNaN_bits⟩
  · obtain ⟨htFin, htVal, htSign⟩ := F32.trunc_finite (nan := p) h
    obtain ⟨hfFin, hfVal, hfSign⟩ := F32.floor_finite (nan := p) h
    exact ⟨htFin, htVal, htSign, hfFin, hfVal, hfSign⟩
  · rfl

/-! ### Correct rounding and the integer conversions (R11, R15) -/

/-- Passing to magnitudes brings an exact value and a pattern's value no further apart. -/
theorem F32.magUnits_dist_le (y : F32) (num : Int) (den : Nat) :
    |(F32.magUnits (F32.mag y) * den : Int) - num.natAbs| ≤ |F32.val y * den - num| := by
  have h := abs_abs_sub_abs_le (F32.val y * den) num
  rwa [abs_mul, Nat.abs_cast, Int.abs_eq_natAbs (F32.val y), F32.natAbs_val, Int.abs_eq_natAbs num] at h

/-- For a pattern with the sign of the exact value, the distance of the magnitudes is the distance of the values. -/
theorem F32.val_pack_dist {s : Bool} {m : Nat} {num : Int} (den : Nat) (hm : m ≤ F32.infMag)
    (hs : s = decide (num < 0)) :
    |F32.val (F32.pack s m) * den - num| = |(F32.magUnits m * den : Int) - num.natAbs| := by
  rw [F32.val_pack hm, hs]
  rcases lt_or_ge num 0 with h | h
  · rw [decide_eq_true h, if_pos rfl, Int.ofNat_natAbs_of_nonpos h.le, ← abs_neg]
    ring_nf
  · rw [decide_eq_false h.not_gt, if_neg (by decide), Int.natAbs_of_nonneg h]

/-- Two values of one magnitude, equally far from a number that is not zero, are the same. -/
theorem F32.val_eq_of_dist_eq {x y : F32} {num : Int} {den : Nat} (hd : 0 < den) (hnum : num ≠ 0)
    (hmag : F32.mag y = F32.mag x) (hdist : |F32.val x * den - num| = |F32.val y * den - num|) :
    F32.val y = F32.val x := by
  have hd' : (den : Int) ≠ 0 := by exact_mod_cast hd.ne'
  have habs : (F32.val y).natAbs = (F32.val x).natAbs := by rw [F32.natAbs_val, F32.natAbs_val, hmag]
  rcases Int.natAbs_eq_natAbs_iff.mp habs with h | h
  · exact h
  · rw [h] at hdist ⊢
    rcases abs_eq_abs.mp hdist with h' | h'
    · have hzero : F32.val x * den = 0 := by linarith
      rw [(mul_eq_zero_iff_right hd').mp hzero, neg_zero]
    · exact absurd (by linarith) hnum

/-- The sign of an exact value other than zero and its rounded magnitude make the nearest value, ties to even. -/
theorem F32.nearestEven_pack {num : Int} {den : Nat} (hd : 0 < den) (hnum : num ≠ 0)
    (hfin : F32.roundMag num.natAbs den < F32.infMag) :
    F32.NearestEven num den (F32.pack (decide (num < 0)) (F32.roundMag num.natAbs den)) := by
  have hraw : F32.roundMag num.natAbs den = F32.roundRaw num.natAbs den := by
    rw [F32.roundMag_eq] at hfin ⊢; omega
  rw [hraw] at hfin ⊢
  have hmag : F32.mag (F32.pack (decide (num < 0)) (F32.roundRaw num.natAbs den)) = F32.roundRaw num.natAbs den :=
    F32.mag_pack (by unfold F32.infMag at hfin; omega)
  have hdist := F32.val_pack_dist den hfin.le (num := num) rfl
  refine ⟨(F32.isFinite_pack hfin.le).mpr hfin, fun y _ => ?_⟩
  have hy := F32.magUnits_dist_le y num den
  obtain ⟨hle, htie⟩ := F32.roundRaw_nearest num.natAbs den hd (F32.mag y)
  refine ⟨hdist.trans_le (hle.trans hy), fun heq hne => ?_⟩
  have hother : F32.mag y ≠ F32.roundRaw num.natAbs den := fun h =>
    hne (F32.val_eq_of_dist_eq hd hnum (h.trans hmag.symm) heq)
  have heven := htie (by omega) hother
  rw [F32.frac_eq, hmag]
  omega

/-- A zero of either sign is the nearest value to zero. -/
theorem F32.nearestEven_zero (s : Bool) (den : Nat) : F32.NearestEven 0 den (F32.pack s 0) := by
  have hval : F32.val (F32.pack s 0) = 0 := by cases s <;> rfl
  have hfrac : F32.frac (F32.pack s 0) = 0 := by cases s <;> rfl
  refine ⟨by cases s <;> rfl, fun y _ => ⟨?_, fun _ _ => by rw [hfrac]⟩⟩
  rw [hval, zero_mul, sub_self, abs_zero]
  exact abs_nonneg _

/-- Rounding the magnitude once and giving it the sign of the exact value is correct rounding (R11). -/
theorem F32.roundsTo_pack {num : Int} {den : Nat} (hd : 0 < den) (hnum : num ≠ 0) :
    F32.RoundsTo num den (F32.pack (decide (num < 0)) (F32.roundMag num.natAbs den)) := by
  have hiff := F32.roundMag_finite_iff (num := num.natAbs) hd
  have hcast : F32.overflowBound * den ≤ |num| ↔ (2 ^ 25 - 1) * 2 ^ 252 * den ≤ num.natAbs := by
    rw [Int.abs_eq_natAbs, ← Nat.cast_le (α := Int)]
    push_cast
    rfl
  unfold F32.RoundsTo
  split
  case isTrue hover =>
    have hinf : F32.roundMag num.natAbs den = F32.infMag :=
      le_antisymm (F32.roundMag_le_inf _ _) (not_lt.mp fun h => absurd (hiff.mp h) (not_lt.mpr (hcast.mp hover)))
    rw [hinf, F32.isInf_iff, F32.mag_pack (by decide), F32.sign_pack (by decide), decide_eq_true_iff]
    exact ⟨rfl, Iff.rfl⟩
  case isFalse hin => exact F32.nearestEven_pack hd hnum (hiff.mpr (not_le.mp fun h => hin (hcast.mpr h)))

/-- A zero of either sign is zero correctly rounded. -/
theorem F32.roundsTo_zero (s : Bool) {den : Nat} (hd : 0 < den) : F32.RoundsTo 0 den (F32.pack s 0) := by
  have hin : ¬ F32.overflowBound * (den : Int) ≤ |0| := by
    rw [abs_zero, not_le]; positivity
  rw [F32.RoundsTo, if_neg hin]
  exact F32.nearestEven_zero s den

theorem F32.roundsTo_ofUnits (z : Bool) (k : Int) : F32.RoundsTo k 1 (F32.ofUnits z k) := by
  unfold F32.ofUnits
  split
  case isTrue h => rw [h]; exact F32.roundsTo_zero z one_pos
  case isFalse h => exact F32.roundsTo_pack one_pos h

/-- The whole numbers of magnitude up to 2^24 are representable. -/
theorem F32.rep_whole {n : Int} (h : |n| ≤ 2 ^ 24) : F32.Rep (n * F32.unitOne).natAbs := by
  have hn : n.natAbs ≤ 2 ^ 24 := by rw [Int.abs_eq_natAbs] at h; exact_mod_cast h
  rw [Int.natAbs_mul, show F32.unitOne.natAbs = 2 ^ 149 from rfl]
  rcases hn.lt_or_eq with hlt | heq
  · exact F32.rep_shift hlt (by decide)
  · rw [heq, show 2 ^ 24 * 2 ^ 149 = 2 ^ 23 * 2 ^ 150 by rfl]
    exact F32.rep_shift (by decide) (by decide)

theorem F32.ofInt_exact {n : Int} (h : |n| ≤ 2 ^ 24) :
    F32.isFinite (F32.ofInt n) = true ∧ F32.val (F32.ofInt n) = n * F32.unitOne := by
  obtain ⟨hfin, hval, -⟩ := F32.ofUnits_exact (z := false) (F32.rep_whole h)
  exact ⟨hfin, hval⟩

theorem F32.toInt_nan {x : F32} (h : F32.isNaN x = true) : F32.toInt x = 0 := by
  simp [F32.toInt, h]

theorem F32.toInt_not_nan {x : F32} (h : F32.isNaN x = false) :
    F32.toInt x = max (-(2 ^ 31)) (min (2 ^ 31 - 1) ((F32.val x).tdiv F32.unitOne)) :=
  if_neg (by simp [h])

/-- Clamping the truncated value to the i32 range: the two saturated ranges and the one between them. -/
theorem F32.clamp_tdiv (v : Int) :
    (2 ^ 31 * F32.unitOne ≤ v → max (-(2 ^ 31)) (min (2 ^ 31 - 1) (v.tdiv F32.unitOne)) = 2 ^ 31 - 1) ∧
    (v ≤ -(2 ^ 31 * F32.unitOne) → max (-(2 ^ 31)) (min (2 ^ 31 - 1) (v.tdiv F32.unitOne)) = -(2 ^ 31)) ∧
    (-(2 ^ 31 * F32.unitOne) < v → v < 2 ^ 31 * F32.unitOne →
      max (-(2 ^ 31)) (min (2 ^ 31 - 1) (v.tdiv F32.unitOne)) = v.tdiv F32.unitOne) := by
  unfold F32.unitOne
  rcases le_total 0 v with h | h
  · rw [Int.tdiv_eq_ediv_of_nonneg h]
    omega
  · obtain ⟨w, rfl⟩ : ∃ w, v = -w := ⟨-v, (neg_neg v).symm⟩
    rw [Int.neg_tdiv, Int.tdiv_eq_ediv_of_nonneg (by omega)]
    omega

/-- Settles O24: toInt clamps the truncated value; float(n) is the exact count of units, rounded once. -/
theorem integerConversions : Obligations.IntegerConversions := by
  refine ⟨fun _ h => F32.toInt_nan h, fun x h => ?_, fun n => F32.roundsTo_ofUnits false _, fun _ h => F32.ofInt_exact h⟩
  rw [F32.toInt_not_nan h]
  exact F32.clamp_tdiv _

end Sys2Proof
end

section
/-! PROOFS. The flags and the operand register of 10_state.md R26 and R27: what one step can do to STATUS.BUSY,
STATUS.ERR and ARG, said once for a command, a host operation and a step, and the statements read off from it. -/

namespace Sys2Proof.Machine

/-! ### The STATUS word -/

theorem State.status_getLsbD_zero (s : State) : s.status.getLsbD 0 = s.busy := by
  rw [State.status, BitVec.getLsbD_append]; simp

theorem State.status_getLsbD_one (s : State) : s.status.getLsbD 1 = s.err := by
  rw [State.status, BitVec.getLsbD_append, BitVec.getLsbD_append]; simp

/-- Bits 31:2 are zero. -/
theorem State.status_toNat_div_four (s : State) : s.status.toNat / 4 = 0 := by
  unfold State.status
  cases s.err <;> cases s.busy <;> decide

/-! ### BUSY, ERR and ARG over a command -/

theorem State.busy_eq_of_cyc_eq {s t : State} (h : t.cyc = s.cyc) : t.busy = s.busy := by
  simp [State.busy, h]

theorem State.busy_of_cyc_eq_some {s : State} {q : InFlight} (h : s.cyc = some q) : s.busy = true := by
  simp [State.busy, h]

theorem InFlight.advance_eq_none_iff {q : InFlight} : q.advance = none ↔ q.index + 1 = q.frames := by
  simp [InFlight.advance]

theorem exec_cycle_idle {note fine : BitVec 8} {frames : BitVec 12} {s : State} (h : s.busy = false) :
    exec (.cycle note fine frames) s = .next (cycleEffect Config.machine note fine frames s) := by
  have hlegal : ¬ Config.machine.maxFrames < frames.toNat := Nat.not_lt.mpr (Nat.le_of_lt_succ frames.isLt)
  exact (if_neg hlegal).trans (whenIdle_idle h)

theorem cycleEffect_of_frames_ne_zero (c : Config) (note fine : BitVec 8) {frames : BitVec 12} (s : State)
    (h : frames ≠ 0#12) : cycleEffect c note fine frames s = acceptCycle c note fine frames.toNat s :=
  if_neg fun h0 => h (BitVec.eq_of_toNat_eq h0)

/-- CYCLE leaves the flags and ARG alone, but that it may start a CYCLE. -/
theorem cycleEffect_flags (c : Config) (note fine : BitVec 8) (frames : BitVec 12) (s : State) :
    let t := cycleEffect c note fine frames s
    (t.cyc = s.cyc ∨ t.busy = true) ∧ t.err = s.err ∧ t.arg = s.arg := by
  by_cases h : frames = 0#12
  · subst h; exact ⟨.inl rfl, rfl, rfl⟩
  · rw [cycleEffect_of_frames_ne_zero c note fine s h]
    exact ⟨.inr rfl, rfl, rfl⟩

/-- A command starts a CYCLE or leaves the CYCLE in flight alone, clears ERR as INIT or sets it as an illegal word,
and never changes ARG. -/
theorem exec_flags {i : Instr} {s t : State} (h : exec i s = .next t) :
    (t.cyc = s.cyc ∨ t.busy = true ∧ ∃ note fine frames, i = .cycle note fine frames) ∧
    (t.err = s.err ∨ t.err = false ∧ i = .init ∨ t.err = true ∧ ∃ w, i = .illegal w) ∧
    t.arg = s.arg := by
  rcases (exec_cases h).2 t rfl with ⟨rfl, -, rfl⟩ | ⟨note, fine, frames, rfl, -, rfl⟩ | ⟨rfl, rfl⟩ | ⟨rfl, rfl⟩ |
    ⟨w, rfl, rfl⟩ | ⟨-, rfl⟩ | ⟨-, rfl⟩ | ⟨-, -, rfl⟩
  case inr.inl =>
    obtain ⟨hcyc, herr, harg⟩ := cycleEffect_flags Config.machine note fine frames s
    exact ⟨hcyc.imp_right fun hb => ⟨hb, note, fine, frames, rfl⟩, .inl herr, harg⟩
  all_goals simp

/-! ### BUSY, ERR and ARG over a host operation and a step -/

@[simp] theorem pollStatus_err (c : Config) (s : State) : (pollStatus c s).err = s.err := by
  unfold pollStatus; split <;> rfl

@[simp] theorem pollStatus_arg (c : Config) (s : State) : (pollStatus c s).arg = s.arg := by
  unfold pollStatus; split <;> rfl

@[simp] theorem pollStatus_cyc (c : Config) (s : State) : (pollStatus c s).cyc = s.cyc := by
  unfold pollStatus; split <;> rfl

/-- A host operation is a command word, a power-on, or one that leaves the CYCLE in flight and ERR alone and changes
ARG only by writing it. -/
theorem hostOp_flags {op : HostOp} {s t : State} (h : hostOp op s = .next t) :
    (∃ w, op = cmdWrite w ∧ exec (decode w) s = .next t) ∨
    (op = .powerOn ∧ t = s.powerOn) ∨
    (t.cyc = s.cyc ∧ t.err = s.err ∧ (t.arg = s.arg ∨ ∃ w, op = .write .word offArg w ∧ t.arg = w)) := by
  rcases hostOp_cases h with hcmd | ⟨w, rfl, rfl⟩ | ⟨o, w, -, -, -, rfl⟩ | ⟨o, -, rfl⟩ | ⟨-, rfl⟩ | hon
  · exact .inl hcmd
  · exact .inr (.inr ⟨rfl, rfl, .inr ⟨w, rfl, rfl⟩⟩)
  · exact .inr (.inr ⟨rfl, rfl, .inl rfl⟩)
  · exact .inr (.inr ⟨rfl, rfl, .inl rfl⟩)
  · exact .inr (.inr ⟨by simp, by simp, .inl (by simp)⟩)
  · exact .inr (.inl hon)

/-- The four things a step can be for BUSY, ERR and ARG: a command accepted, a power-on, a sample step,
or a step that leaves the CYCLE in flight and ERR alone and changes ARG only by the host's write of it. -/
theorem step_flags {s t : State} (h : step s = .next t) :
    (∃ i u, s.accepts i ∧ exec i u = .next t ∧ u.cyc = s.cyc ∧ u.err = s.err ∧ u.arg = s.arg) ∨
    (s.hostPerforms .powerOn ∧ ∃ u : State, t = u.powerOn) ∨
    (∃ q rest, s.cyc = some q ∧ t = ({ s with turns := rest } : State).afterSample Config.machine q) ∨
    (t.cyc = s.cyc ∧ t.err = s.err ∧
      (t.arg = s.arg ∨ ∃ w, s.hostPerforms (.write .word offArg w) ∧ t.arg = w)) := by
  rcases step_cases h with ⟨-, -, rfl⟩ | ⟨rest, q, -, hq, -, ht⟩ | ⟨rest, op, ops, hn, hp, -, hop⟩
  · exact .inr (.inr (.inr ⟨rfl, rfl, .inl rfl⟩))
  · exact .inr (.inr (.inl ⟨q, rest, hq, ht⟩))
  · rcases hostOp_flags hop with ⟨w, rfl, hexec⟩ | ⟨rfl, ht⟩ | ⟨hcyc, herr, harg⟩
    · exact .inl ⟨decode w, _, accepts_of hn hp rfl, hexec, rfl, rfl, rfl⟩
    · exact .inr (.inl ⟨hostPerforms_of hn hp, _, ht⟩)
    · refine .inr (.inr (.inr ⟨hcyc, herr, harg.imp_right ?_⟩))
      rintro ⟨w, rfl, hw⟩
      exact ⟨w, hostPerforms_of hn hp, hw⟩

/-! ### What raises and clears each flag, and what changes ARG -/

/-- BUSY changes only by an accepted CYCLE, a power-on, or the last sample step of the CYCLE in flight. -/
theorem step_changes_busy {s t : State} (h : step s = .next t) (hne : t.busy ≠ s.busy) :
    (t.busy = true ∧ ∃ note fine frames, s.accepts (.cycle note fine frames)) ∨
    (t.busy = false ∧ s.hostPerforms .powerOn) ∨
    (t.busy = false ∧ ∃ q rest, s.cyc = some q ∧ q.index + 1 = q.frames ∧
      t = ({ s with turns := rest } : State).afterSample Config.machine q) := by
  rcases step_flags h with ⟨i, u, hacc, hexec, hcyc, -, -⟩ | ⟨hon, u, rfl⟩ | ⟨q, rest, hq, rfl⟩ | ⟨hcyc, -, -⟩
  · rcases (exec_flags hexec).1 with hc | ⟨hb, note, fine, frames, rfl⟩
    · exact absurd (State.busy_eq_of_cyc_eq (hc.trans hcyc)) hne
    · exact .inl ⟨hb, note, fine, frames, hacc⟩
  · exact .inr (.inl ⟨rfl, hon⟩)
  · rw [State.busy_of_cyc_eq_some hq] at hne
    have hidle := Bool.eq_false_iff.mpr hne
    have hlast : q.advance = none := by simpa [State.busy] using hidle
    exact .inr (.inr ⟨hidle, q, rest, hq, InFlight.advance_eq_none_iff.mp hlast, rfl⟩)
  · exact absurd (State.busy_eq_of_cyc_eq hcyc) hne

theorem step_raises_busy {s t : State} (h : step s = .next t) (hs : s.busy = false) (ht : t.busy = true) :
    ∃ note fine frames, s.accepts (.cycle note fine frames) := by
  rcases step_changes_busy h (by simp [hs, ht]) with ⟨-, hcycle⟩ | ⟨hb, -⟩ | ⟨hb, -⟩
  · exact hcycle
  all_goals simp [ht] at hb

theorem step_clears_busy {s t : State} (h : step s = .next t) (hs : s.busy = true) (ht : t.busy = false) :
    s.hostPerforms .powerOn ∨ ∃ q rest, s.cyc = some q ∧ q.index + 1 = q.frames ∧
      t = ({ s with turns := rest } : State).afterSample Config.machine q := by
  rcases step_changes_busy h (by simp [hs, ht]) with ⟨hb, -⟩ | ⟨-, hon⟩ | ⟨-, hlast⟩
  · simp [ht] at hb
  · exact .inl hon
  · exact .inr hlast

/-- ERR changes only by an accepted illegal word, an accepted INIT, or a power-on. -/
theorem step_changes_err {s t : State} (h : step s = .next t) (hne : t.err ≠ s.err) :
    (t.err = true ∧ ∃ w, s.accepts (.illegal w)) ∨
    (t.err = false ∧ (s.accepts .init ∨ s.hostPerforms .powerOn)) := by
  rcases step_flags h with ⟨i, u, hacc, hexec, -, herr, -⟩ | ⟨hon, u, rfl⟩ | ⟨q, rest, -, rfl⟩ | ⟨-, herr, -⟩
  · rcases (exec_flags hexec).2.1 with he | ⟨he, rfl⟩ | ⟨he, w, rfl⟩
    · exact absurd (he.trans herr) hne
    · exact .inr ⟨he, .inl hacc⟩
    · exact .inl ⟨he, w, hacc⟩
  · exact .inr ⟨rfl, .inr hon⟩
  · exact absurd rfl hne
  · exact absurd herr hne

theorem step_raises_err {s t : State} (h : step s = .next t) (hs : s.err = false) (ht : t.err = true) :
    ∃ w, s.accepts (.illegal w) := by
  rcases step_changes_err h (by simp [hs, ht]) with ⟨-, hillegal⟩ | ⟨he, -⟩
  · exact hillegal
  · simp [ht] at he

theorem step_clears_err {s t : State} (h : step s = .next t) (hs : s.err = true) (ht : t.err = false) :
    s.accepts .init ∨ s.hostPerforms .powerOn := by
  rcases step_changes_err h (by simp [hs, ht]) with ⟨he, -⟩ | ⟨-, hclear⟩
  · simp [ht] at he
  · exact hclear

/-- ARG changes only by a power-on or the host's write of it. -/
theorem step_changes_arg {s t : State} (h : step s = .next t) (hne : t.arg ≠ s.arg) :
    s.hostPerforms .powerOn ∨ ∃ w, s.hostPerforms (.write .word offArg w) ∧ t.arg = w := by
  rcases step_flags h with ⟨i, u, -, hexec, -, -, harg⟩ | ⟨hon, -⟩ | ⟨q, rest, -, rfl⟩ | ⟨-, -, harg⟩
  · exact absurd ((exec_flags hexec).2.2.trans harg) hne
  · exact .inl hon
  · exact absurd rfl hne
  · exact .inr (harg.resolve_left hne)

/-- CYCLE of F ≥ 1 frames, accepted on an idle block, takes its target from ARG as it stands. -/
theorem exec_cycle_lfoTarget {note fine : BitVec 8} {frames : BitVec 12} {s t : State} (hidle : s.busy = false)
    (hframes : frames ≠ 0#12) (h : exec (.cycle note fine frames) s = .next t) : t.osc.lfoTarget = fromFixed s.arg := by
  rw [exec_cycle_idle hidle, cycleEffect_of_frames_ne_zero _ _ _ _ hframes] at h
  cases h
  rfl

/-- Settles O46: over a step only an accepted CYCLE starts one, a last sample step or a power-on ends it, only an
illegal word sets ERR, and INIT or a power-on clears it. -/
theorem statusRegister : Obligations.StatusRegister :=
  ⟨fun s => ⟨s.status_getLsbD_zero, s.status_getLsbD_one, s.status_toNat_div_four⟩, fun _ _ => rfl,
    fun _ _ => step_raises_busy, fun _ _ => step_clears_busy, fun _ _ => step_raises_err, fun _ _ => step_clears_err⟩

/-- Settles O47: the accesses and the operands are the port's and the commands' definitions; no command and no sample
step changes ARG. -/
theorem argRegister : Obligations.ArgRegister := by
  refine ⟨fun _ _ => rfl, fun _ _ => rfl, ?morph, ?shape, fun _ _ _ _ _ => exec_cycle_lfoTarget,
    fun _ _ => step_changes_arg, rfl, fun _ => rfl⟩
  case morph => rintro s _ ⟨⟩; rfl
  case shape => rintro s _ ⟨⟩; rfl

end Sys2Proof.Machine
end

section
/-! PROOFS. The register window of 20_memory.md R44 to R46, R50 and R51: which word each offset reads as, what a
defined access does, and the statements read off from that. -/

namespace Sys2Proof.Machine

/-! ### The extent of the window and of OUTBUF -/

theorem windowOffset_eq_some_iff (c : Config) (address o : Nat) :
    windowOffset c address = some o ↔ address = c.base + o ∧ o < windowBytes := by
  unfold windowOffset
  split
  · rw [Option.some.injEq]; omega
  · simp only [reduceCtorEq, false_iff]; omega

theorem inOutbuf_eq_true_iff (c : Config) (o : Nat) :
    inOutbuf c o = true ↔ offOutbuf ≤ o ∧ o < offOutbuf + 4 * c.maxFrames := by
  simp [inOutbuf]

/-! ### What an offset reads as -/

/-- Beyond SHAPE the window holds OUTBUF and nothing else. -/
theorem readReg_of_offShape_lt (c : Config) (s : State) {o : Nat} (h : offShape < o) :
    readReg c s o = if inOutbuf c o then s.outWord c ((o - offOutbuf) / 4) else 0#32 := by
  have ho : 0x024 < o := h
  have hne : ∀ r, r ≤ 0x024 → o ≠ r := fun r hr => by omega
  unfold readReg
  rw [if_neg (hne offArg (by decide)), if_neg (hne offStatus (by decide)), if_neg (hne offPhaseInc (by decide)),
    if_neg (hne offPhase (by decide)), if_neg (hne offLfoTarget (by decide)), if_neg (hne offLfoCurrent (by decide)),
    if_neg (hne offMorph (by decide)), if_neg (hne offShape (by decide))]

theorem readReg_outbufOffset (c : Config) (s : State) {i : Nat} (h : i < c.maxFrames) :
    readReg c s (outbufOffset i) = s.outWord c i := by
  have hpast : offShape < outbufOffset i := Nat.lt_add_right _ (by decide)
  have hin : inOutbuf c (outbufOffset i) = true := (inOutbuf_eq_true_iff ..).mpr (by simp [outbufOffset, h])
  have hindex : (outbufOffset i - offOutbuf) / 4 = i := by simp [outbufOffset]
  rw [readReg_of_offShape_lt c s hpast, if_pos hin, hindex]

theorem readReg_reserved (c : Config) (s : State) {o : Nat} (hpast : offShape < o)
    (hout : o < offOutbuf ∨ outbufOffset c.maxFrames ≤ o) : readReg c s o = 0#32 := by
  have hin : ¬ inOutbuf c o = true := by
    rw [inOutbuf_eq_true_iff]
    simp only [outbufOffset] at hout
    omega
  rw [readReg_of_offShape_lt c s hpast, if_neg hin]

/-- No register shows what earlier reads returned, so a repeated read returns the same word. -/
theorem State.logRead_logRead (c : Config) (s : State) (o : Nat) :
    (s.logRead c o).logRead c o = { s with reads := ⟨o, readReg c s o⟩ :: ⟨o, readReg c s o⟩ :: s.reads } := rfl

/-! ### What a defined access does -/

theorem accessCheck_word {o : Nat} (halign : o % 4 = 0) (hin : o < windowBytes) : accessCheck .word o = none := by
  rw [accessCheck, if_pos ⟨rfl, halign⟩, if_pos hin]

theorem hostOp_read_word (s : State) {o : Nat} (halign : o % 4 = 0) (hin : o < windowBytes) :
    hostOp (.read .word o) s = .next (s.logRead Config.machine o) := by
  simp only [hostOp, accessCheck_word halign hin]

theorem hostOp_write_word (s : State) {o : Nat} (w : Word) (halign : o % 4 = 0) (hin : o < windowBytes) :
    hostOp (.write .word o w) s = writeReg o w s := by
  simp only [hostOp, accessCheck_word halign hin]

theorem writeReg_offCmd (w : Word) (s : State) : writeReg offCmd w s = exec (decode w) s := if_pos rfl

theorem writeReg_offArg (w : Word) (s : State) : writeReg offArg w s = .next { s with arg := w } := by
  rw [writeReg, if_neg (by decide), if_pos rfl]

theorem writeReg_ignored {o : Nat} (w : Word) (s : State) (hcmd : o ≠ offCmd) (harg : o ≠ offArg) :
    writeReg o w s = .next s := by
  rw [writeReg, if_neg hcmd, if_neg harg]

/-! ### The statements -/

/-- Settles O48: each named register is read at its own offset, and word i of OUTBUF at `outbufOffset i`. -/
theorem windowReadsTheRegisters : Obligations.WindowReadsTheRegisters :=
  ⟨windowOffset_eq_some_iff,
    fun c s => ⟨rfl, rfl, rfl, rfl, rfl, rfl, rfl, fun _ hi => readReg_outbufOffset c s hi⟩⟩

/-- Settles O49: CMD and the offset 0x00C name no readable register, and past SHAPE only OUTBUF is one; a write has an
effect at CMD and ARG only. -/
theorem reservedAndReadOnlyOffsets : Obligations.ReservedAndReadOnlyOffsets := by
  refine ⟨fun s o halign hin hres => ?read, fun s o w halign hin hcmd harg => ?write⟩
  case read =>
    have hzero : readReg Config.machine s o = 0#32 := by
      rcases hres with rfl | rfl | ⟨hpast, hbelow⟩ | habove
      · rfl
      · rfl
      · exact readReg_reserved _ s (Nat.lt_of_lt_of_le (by decide) hpast) (.inl hbelow)
      · exact readReg_reserved _ s (Nat.lt_of_lt_of_le (by decide) habove) (.inr habove)
    rw [hostOp_read_word s halign hin, State.logRead, hzero]
  case write =>
    rw [hostOp_write_word s w halign hin, writeReg_ignored w s hcmd harg]

/-- Settles O50: the word of the first read is the register's, which no record of a read changes. -/
theorem readsHaveNoSideEffects : Obligations.ReadsHaveNoSideEffects := by
  refine ⟨fun s w => ?cmd, fun s w => ?arg, fun s o halign hin => ⟨readReg Config.machine s o, ?first, ?second⟩⟩
  case cmd => exact (hostOp_write_word s w (by decide) (by decide)).trans (writeReg_offCmd w s)
  case arg => exact (hostOp_write_word s w (by decide) (by decide)).trans (writeReg_offArg w s)
  case first => exact hostOp_read_word s halign hin
  case second =>
    exact (hostOp_read_word (s.logRead Config.machine o) halign hin).trans
      (congrArg Host.Outcome.next (s.logRead_logRead Config.machine o))

end Sys2Proof.Machine
end

section
/-! PROOFS. Which command a word stands for (30_encoding.md R66, R68): the selection by OP among the legal words, one
equation a row, and that a legal word is not decoded as an illegal command. -/

namespace Sys2Proof

section
variable {maxFrames : Nat} {w : Word}

/-! ### The fields a decoder tests, in numbers -/

theorem Word.op_eq_iff {k : BitVec 4} : Word.op w = k ↔ w.toNat % 16 = k.toNat := by
  rw [← BitVec.toNat_inj, Word.toNat_op]

theorem Word.slot_eq_iff {k : BitVec 8} : Word.slot w = k ↔ w.toNat / 16 % 256 = k.toNat := by
  rw [← BitVec.toNat_inj, Word.toNat_slot]

/-- A legal word has one of the five listed OPs (R61). -/
theorem Word.op_of_legal (h : Word.isIllegal maxFrames w = false) :
    w.toNat % 16 = 1 ∨ w.toNat % 16 = 2 ∨ w.toNat % 16 = 3 ∨ w.toNat % 16 = 4 ∨ w.toNat % 16 = 5 := by
  rw [Bool.eq_false_iff, ne_eq, Word.isIllegal_iff] at h
  omega

/-! ### The command of a word -/

theorem decodeWith_of_illegal (h : Word.isIllegal maxFrames w = true) : decodeWith maxFrames w = .illegal w := if_pos h

theorem decodeWith_of_op_one (h : Word.isIllegal maxFrames w = false) (hop : w.toNat % 16 = 1) :
    decodeWith maxFrames w = .init := by
  simp [decodeWith, h, Word.op_eq_iff, hop]

theorem decodeWith_of_op_two (h : Word.isIllegal maxFrames w = false) (hop : w.toNat % 16 = 2) :
    decodeWith maxFrames w = .cycle (Word.note w) (Word.fine w) (Word.frames w) := by
  simp [decodeWith, h, Word.op_eq_iff, hop]

theorem decodeWith_of_op_three (h : Word.isIllegal maxFrames w = false) (hop : w.toNat % 16 = 3) :
    decodeWith maxFrames w =
      if Word.slot w = 0#8 then .paramMorph
      else if Word.slot w = 1#8 then .paramShape
      else .paramNop (Word.slot w) := by
  simp [decodeWith, h, Word.op_eq_iff, hop]

theorem decodeWith_of_slot_zero (h : Word.isIllegal maxFrames w = false) (hop : w.toNat % 16 = 3)
    (hslot : w.toNat / 16 % 256 = 0) : decodeWith maxFrames w = .paramMorph := by
  simp [decodeWith_of_op_three h hop, Word.slot_eq_iff, hslot]

theorem decodeWith_of_slot_one (h : Word.isIllegal maxFrames w = false) (hop : w.toNat % 16 = 3)
    (hslot : w.toNat / 16 % 256 = 1) : decodeWith maxFrames w = .paramShape := by
  simp [decodeWith_of_op_three h hop, Word.slot_eq_iff, hslot]

theorem decodeWith_of_two_le_slot (h : Word.isIllegal maxFrames w = false) (hop : w.toNat % 16 = 3)
    (hslot : 2 ≤ w.toNat / 16 % 256) : decodeWith maxFrames w = .paramNop (Word.slot w) := by
  have hzero : w.toNat / 16 % 256 ≠ 0 := by omega
  have hone : w.toNat / 16 % 256 ≠ 1 := by omega
  simp [decodeWith_of_op_three h hop, Word.slot_eq_iff, hzero, hone]

theorem decodeWith_of_op_four (h : Word.isIllegal maxFrames w = false) (hop : w.toNat % 16 = 4) :
    decodeWith maxFrames w = .noteOn (Word.note w) (Word.fine w) := by
  simp [decodeWith, h, Word.op_eq_iff, hop]

theorem decodeWith_of_op_five (h : Word.isIllegal maxFrames w = false) (hop : w.toNat % 16 = 5) :
    decodeWith maxFrames w = .noteOff (Word.note w) (Word.fine w) := by
  simp [decodeWith, h, Word.op_eq_iff, hop]

theorem decodeWith_ne_illegal (h : Word.isIllegal maxFrames w = false) (v : Word) :
    decodeWith maxFrames w ≠ .illegal v := by
  rcases Word.op_of_legal h with hop | hop | hop | hop | hop
  · rw [decodeWith_of_op_one h hop]; nofun
  · rw [decodeWith_of_op_two h hop]; nofun
  · rw [decodeWith_of_op_three h hop]; split_ifs <;> nofun
  · rw [decodeWith_of_op_four h hop]; nofun
  · rw [decodeWith_of_op_five h hop]; nofun

theorem decodeWith_eq_illegal_iff : decodeWith maxFrames w = .illegal w ↔ Word.isIllegal maxFrames w = true := by
  refine ⟨fun h => ?_, decodeWith_of_illegal⟩
  by_contra hlegal
  exact decodeWith_ne_illegal (Bool.eq_false_iff.mpr hlegal) w h

end

/-- An illegal command is accepted at any time and signals IllegalCommand (R115). -/
theorem Machine.exec_illegal (w : Word) (s : Machine.State) :
    Machine.exec (.illegal w) s = .next (Machine.signalIllegal s) := rfl

/-! ### The statements -/

/-- Settles O3: a word decodes to the illegal command exactly when R66 calls it illegal; FRAMES has twelve bits. -/
theorem illegalWordsAreTheFiveCases : Obligations.IllegalWordsAreTheFiveCases := by
  refine ⟨fun maxFrames w => ?cases, fun w s h => ?effect, fun maxFrames w h => ?bound⟩
  case cases => exact decodeWith_eq_illegal_iff.trans (Word.isIllegal_iff maxFrames w)
  case effect => rw [h]; exact Machine.exec_illegal w s
  case bound => omega

/-- Settles O4: one equation a value of OP, and for OP = 3 one a case of SLOT. -/
theorem decoderSelectsByOpThenSlot : Obligations.DecoderSelectsByOpThenSlot :=
  fun w => ⟨decodeWith_of_illegal, fun h =>
    ⟨decodeWith_of_op_one h,
      fun hop => ⟨_, _, _, decodeWith_of_op_two h hop, Word.toNat_note w, Word.toNat_fine w, Word.toNat_frames w⟩,
      fun hop => ⟨decodeWith_of_slot_zero h hop, decodeWith_of_slot_one h hop,
        fun hslot => ⟨_, decodeWith_of_two_le_slot h hop hslot, Word.toNat_slot w⟩⟩,
      fun hop => ⟨_, _, decodeWith_of_op_four h hop, Word.toNat_note w, Word.toNat_fine w⟩,
      fun hop => ⟨_, _, decodeWith_of_op_five h hop, Word.toNat_note w, Word.toNat_fine w⟩⟩⟩

end Sys2Proof
end

section
/-! PROOFS. The Folded Wavetable Reader's stages 1 to 5 (40_wavetable_reader.md R73 to R78): the fractional phase, the
table position, the index and its weight, the fold, and the bank. -/

namespace Sys2Proof

/-! ### The integral roundings of a finite operand, which draw nothing, and the rest they leave -/

theorem F32.trunc_eq_ofWhole {p : NaNPattern} {x : F32} (h : F32.isFinite x = true) :
    F32.trunc p x = F32.ofWhole (F32.sign x) ((F32.val x).tdiv F32.unitOne) :=
  (if_neg (by simp [F32.not_nan_of_finite h])).trans (if_neg (by simp [F32.not_inf_of_finite h]))

theorem F32.floor_eq_ofWhole {p : NaNPattern} {x : F32} (h : F32.isFinite x = true) :
    F32.floor p x = F32.ofWhole (F32.sign x) ((F32.val x).fdiv F32.unitOne) :=
  (if_neg (by simp [F32.not_nan_of_finite h])).trans (if_neg (by simp [F32.not_inf_of_finite h]))

theorem F32.emod_unitOne_bounds (k : Int) : 0 ≤ k % F32.unitOne ∧ k % F32.unitOne < F32.unitOne :=
  ⟨Int.emod_nonneg _ (by decide), Int.emod_lt_of_pos _ (by decide)⟩

/-! ### NaN operands and products with a power of two -/

theorem F32.sub_nan_left {p : NaNPattern} {a b : F32} (h : F32.isNaN a = true) : F32.sub p a b = p.bits := by
  simp [F32.sub, F32.add, F32.add?, h]

theorem F32.mul_nan_left {p : NaNPattern} {a b : F32} (h : F32.isNaN a = true) : F32.mul p a b = p.bits := by
  simp [F32.mul, F32.mul?, h]

theorem F32.mul_nan_right {p : NaNPattern} {a b : F32} (h : F32.isNaN b = true) : F32.mul p a b = p.bits := by
  simp [F32.mul, F32.mul?, h]

/-- A representable magnitude below 1.0 stays representable when it is scaled up by a power of two. -/
theorem F32.rep_two_pow_mul {k j : Nat} (h : F32.Rep k) (hk : k < 2 ^ 149) (hj : j ≤ 104) : F32.Rep (2 ^ j * k) := by
  obtain ⟨n, e, hn, -, rfl⟩ := F32.rep_cases h
  rcases Nat.eq_zero_or_pos n with rfl | hpos
  · rwa [zero_mul, mul_zero, ← zero_mul (2 ^ e)]
  · have he : e < 149 := (Nat.pow_lt_pow_iff_right (by decide)).mp ((Nat.le_mul_of_pos_left _ hpos).trans_lt hk)
    rw [show 2 ^ j * (n * 2 ^ e) = n * 2 ^ (j + e) by rw [pow_add]; ring]
    exact F32.rep_shift hn (by omega)

theorem F32.rep_two_pow_mul_val {v : F32} {j : Nat} (hv : F32.isFinite v = true) (hlt : |F32.val v| < F32.unitOne)
    (hj : j ≤ 104) : F32.Rep (2 ^ j * F32.val v).natAbs := by
  rw [Int.natAbs_mul, Int.natAbs_pow]
  exact F32.rep_two_pow_mul (F32.rep_val hv) (by rw [Int.abs_eq_natAbs] at hlt; unfold F32.unitOne at hlt; omega) hj

theorem F32.two_finite_val : F32.isFinite F32.two = true ∧ F32.val F32.two = 2 ^ 1 * F32.unitOne := by decide

theorem F32.n128_finite_val : F32.isFinite F32.n128 = true ∧ F32.val F32.n128 = 2 ^ 7 * F32.unitOne := by decide

section
variable {p q : NaNPattern} {v : F32} (hv : F32.isFinite v = true) (hlt : |F32.val v| < F32.unitOne)
include hv hlt

/-- (2 × v) × 128 is exact for |v| < 1 (R74). -/
theorem F32.two_mul_mul_n128_exact :
    F32.isFinite (F32.mul q (F32.mul p F32.two v) F32.n128) = true ∧
      F32.val (F32.mul q (F32.mul p F32.two v) F32.n128) = 2 ^ 8 * F32.val v := by
  obtain ⟨htwo, htwoVal⟩ := F32.two_finite_val
  obtain ⟨hn, hnVal⟩ := F32.n128_finite_val
  obtain ⟨hin, hinVal⟩ := F32.mul_exact (nan := p) (k := 2 ^ 1 * F32.val v) htwo hv (by rw [htwoVal]; ring)
    (F32.rep_two_pow_mul_val hv hlt (by decide))
  exact F32.mul_exact hin hn (by rw [hinVal, hnVal]; ring) (F32.rep_two_pow_mul_val hv hlt (by decide))

/-- 2 × (v × 128) is exact for |v| < 1 (R74). -/
theorem F32.two_mul_n128_mul_exact :
    F32.isFinite (F32.mul q F32.two (F32.mul p v F32.n128)) = true ∧
      F32.val (F32.mul q F32.two (F32.mul p v F32.n128)) = 2 ^ 8 * F32.val v := by
  obtain ⟨htwo, htwoVal⟩ := F32.two_finite_val
  obtain ⟨hn, hnVal⟩ := F32.n128_finite_val
  obtain ⟨hin, hinVal⟩ := F32.mul_exact (nan := p) (k := 2 ^ 7 * F32.val v) hv hn (by rw [hnVal]; ring)
    (F32.rep_two_pow_mul_val hv hlt (by decide))
  exact F32.mul_exact htwo hin (by rw [htwoVal, hinVal]; ring) (F32.rep_two_pow_mul_val hv hlt (by decide))

end

namespace Machine

/-! ### Stages 1 and 2: the fractional phase and the table position (R73, R74) -/

theorem abs_val_frac_lt {p q : NaNPattern} {x : F32} (h : F32.isFinite x = true) :
    |F32.val (frac p q x)| < F32.unitOne := by
  rw [(F32.frac_finite h).2, Int.abs_eq_natAbs, Int.natAbs_tmod]
  exact Int.ofNat_lt.mpr (Nat.mod_lt _ (by decide))

/-- Settles O27: the phase is the exact remainder of the truncating division by 1.0, which has the dividend's sign. -/
theorem fractionalPhaseIsExact : Obligations.FractionalPhaseIsExact := by
  refine ⟨fun p q x h hx => ?nonneg, fun p q x h hx => ?neg, fun p q => ?quarter, fun p q x h => ?notFinite⟩
  case nonneg =>
    obtain ⟨hfin, hval⟩ := F32.frac_finite (n1 := p) (n2 := q) h
    rw [Int.tmod_eq_emod_of_nonneg hx] at hval
    exact ⟨⟨hfin, by rw [hval]; exact F32.emod_unitOne_bounds _⟩, hval⟩
  case neg =>
    obtain ⟨hfin, hval⟩ := F32.frac_finite (n1 := p) (n2 := q) h
    refine ⟨hfin, (abs_lt.mp (abs_val_frac_lt h)).1, ?_⟩
    rw [hval, ← neg_neg (F32.val x), Int.neg_tmod]
    exact neg_nonpos.mpr (Int.tmod_nonneg _ (by omega))
  case quarter =>
    have htrunc : F32.trunc p 0xBE800000#32 = 0x80000000#32 := by rw [F32.trunc_eq_ofWhole (by decide)]; decide
    rw [frac, htrunc, F32.sub_finite (by decide) (by decide)]
    decide
  case notFinite => rw [F32.frac_not_finite h]; exact q.isNaN_bits

/-- Settles O28: a fraction of magnitude below 1.0 leaves room for both scalings in either order. -/
theorem tablePositionIsExact : Obligations.TablePositionIsExact := by
  refine ⟨fun nan x h => ?finite, fun p q p' q' v hv hlt => ?grouping, fun nan x h => ?nan⟩
  case finite =>
    have hlt := abs_val_frac_lt (p := nan .phaseTrunc) (q := nan .phaseFrac) h
    obtain ⟨hfin, hval⟩ := F32.two_mul_mul_n128_exact (p := nan .scaleTwo) (q := nan .scaleN) (F32.frac_finite h).1 hlt
    have hbounds := abs_lt.mp hlt
    refine ⟨hfin, hval, ?_, ?_⟩ <;> rw [tablePosition, hval] <;> omega
  case grouping => exact (F32.two_mul_mul_n128_exact hv hlt).2.trans (F32.two_mul_n128_mul_exact hv hlt).2.symm
  case nan =>
    rw [tablePosition, F32.frac_not_finite h, F32.mul_nan_right (NaNPattern.isNaN_bits _),
      F32.mul_nan_left (NaNPattern.isNaN_bits _)]
    exact NaNPattern.isNaN_bits _

end Machine

/-! ### Whole numbers and the unit interval -/

theorem F32.toInt_whole {x : F32} {n : Int} (h : F32.isFinite x = true) (hval : F32.val x = n * F32.unitOne)
    (hlo : -(2 ^ 31) ≤ n) (hhi : n < 2 ^ 31) : F32.toInt x = n := by
  rw [F32.toInt_not_nan (F32.not_nan_of_finite h), hval, Int.mul_tdiv_cancel _ (by decide)]
  omega

/-- Rounding an exact value in [0, 1] does not leave the interval. -/
theorem F32.ofUnits_between_zero_one {z : Bool} {k : Int} (hlo : 0 ≤ k) (hhi : k ≤ F32.unitOne) :
    F32.Between 0 F32.unitOne (F32.ofUnits z k) := by
  rcases hlo.eq_or_lt with rfl | hpos
  · cases z <;> decide
  · have hone : F32.magUnits (F32.mag F32.one) = 2 ^ 149 := by decide
    have hle : F32.roundMag k.natAbs 1 ≤ F32.mag F32.one :=
      F32.roundMag_le one_pos (by rw [hone]; unfold F32.unitOne at hhi; omega)
    have hinf : F32.mag F32.one < F32.infMag := by decide
    have hunits := (F32.magUnits_strictMono.monotone hle).trans_eq hone
    rw [F32.ofUnits, if_neg hpos.ne', decide_eq_false hpos.not_gt, F32.Between,
      F32.isFinite_pack (hle.trans hinf.le), F32.val_pack (hle.trans hinf.le), if_neg (by decide)]
    exact ⟨hle.trans_lt hinf, by positivity, by unfold F32.unitOne; omega⟩

/-- What the whole part of a nonnegative value leaves is representable. -/
theorem F32.rep_emod_unitOne {x : F32} (h : F32.isFinite x = true) (hx : 0 ≤ F32.val x) :
    F32.Rep (F32.val x % F32.unitOne).natAbs := by
  rw [← Int.tmod_eq_emod_of_nonneg hx, Int.natAbs_tmod]
  exact (F32.rep_whole_and_rest (F32.rep_val h)).2.2

namespace Machine

/-! ### Stage 3: the index and the weight (R75) -/

section
variable {nan : FpSite → NaNPattern} {x : F32} (h : F32.isFinite x = true)
include h

theorem tableIndex_eq_ediv (hlo : -(256 * F32.unitOne) < F32.val x) (hhi : F32.val x < 256 * F32.unitOne) :
    tableIndex nan x = F32.val x / F32.unitOne := by
  obtain ⟨hfin, hval, -⟩ := F32.floor_finite (nan := nan .tableFloor) h
  rw [Int.fdiv_eq_ediv_of_nonneg _ (by decide)] at hval
  unfold F32.unitOne at *
  exact F32.toInt_whole hfin hval (by omega) (by omega)

/-- The weight is what floor leaves, rounded once. -/
theorem tableWeight_eq_ofUnits : tableWeight nan x = F32.ofUnits false (F32.val x % F32.unitOne) := by
  obtain ⟨hfin, hval, hsign⟩ := F32.floor_finite (nan := nan .tableFloor) h
  rw [Int.fdiv_eq_ediv_of_nonneg _ (by decide), mul_comm] at hval
  rw [tableWeight, F32.sub_finite h hfin, hsign, hval, Bool.and_not_self, Int.emod_def]

end

/-- Settles O29: the index is the floor of the value; the weight is the rounded rest, which a nonnegative position keeps
exact and a small negative one rounds to 1.0. -/
theorem tableIndexAndWeight : Obligations.TableIndexAndWeight := by
  refine ⟨fun _ _ => ⟨rfl, rfl⟩, fun nan x ⟨h, hlo, hhi⟩ => ?nonneg, fun nan x h hlo hneg => ?neg,
    fun nan => ?tiny, fun nan x h => ?nan⟩
  case nonneg =>
    have hindex := tableIndex_eq_ediv (nan := nan) h (by omega) hhi
    have hbounds : 0 ≤ tableIndex nan x ∧ tableIndex nan x ≤ 255 := by unfold F32.unitOne at *; omega
    obtain ⟨hfin, hval, -⟩ := F32.ofUnits_exact (z := false) (F32.rep_emod_unitOne h hlo)
    rw [← tableWeight_eq_ofUnits (nan := nan) h] at hfin hval
    exact ⟨hindex, hbounds.1, hbounds.2, ⟨hfin, by rw [hval]; exact F32.emod_unitOne_bounds _⟩, hval⟩
  case neg =>
    have hindex := tableIndex_eq_ediv (nan := nan) h hlo (by omega)
    have hbounds : -256 ≤ tableIndex nan x ∧ tableIndex nan x ≤ -1 := by unfold F32.unitOne at *; omega
    refine ⟨?_, hbounds.1, hbounds.2, ?_⟩
    · rw [hindex, Int.fdiv_eq_ediv_of_nonneg _ (by decide)]
    · rw [tableWeight_eq_ofUnits h]
      obtain ⟨hrestLo, hrestHi⟩ := F32.emod_unitOne_bounds (F32.val x)
      exact F32.ofUnits_between_zero_one hrestLo hrestHi.le
  case tiny =>
    have hfloor : F32.floor (nan .tableFloor) 0xB0800000#32 = 0xBF800000#32 := by
      rw [F32.floor_eq_ofWhole (by decide)]; decide
    refine ⟨hfloor, ?_, ?_⟩
    · rw [tableIndex, hfloor]; decide
    · rw [tableWeight, hfloor, F32.sub_finite (by decide) (by decide)]; decide
  case nan =>
    rw [tableIndex, F32.floor_nan h, tableWeight, F32.sub_nan_left h]
    exact ⟨F32.toInt_nan (NaNPattern.isNaN_bits _), NaNPattern.isNaN_bits _⟩

/-! ### Stage 4: the fold (R76, R77) -/

theorem foldIndex_direct {x0p : Int} (h : 0 ≤ x0p ∧ x0p < 128) :
    foldIndex x0p = ⟨x0p.toNat, x0p.toNat + 1, false⟩ := if_pos h

theorem foldIndex_mirrored {x0p : Int} (h : ¬ (0 ≤ x0p ∧ x0p < 128)) :
    foldIndex x0p = ⟨128 - (x0p % 128).toNat, 128 - (x0p % 128).toNat - 1, true⟩ := if_neg h

/-- Settles O30: the direct branch has its index below 128; in the mirrored one the remainder is below 128. -/
theorem foldedIndicesStayInTheTable : Obligations.FoldedIndicesStayInTheTable := by
  refine fun x0p => ⟨fun h => ?direct, fun h => ?mirrored, Int.emod_emod_of_dvd _ (by decide)⟩
  case direct =>
    rw [foldIndex_direct h]
    exact ⟨rfl, rfl, rfl, by dsimp only; omega, by dsimp only; omega, by dsimp only; omega⟩
  case mirrored =>
    rw [foldIndex_mirrored h]
    refine ⟨?_, ?_, rfl, ?_, ?_, ?_⟩ <;> dsimp only <;> omega

/-! ### Stage 5: the bank (R78) -/

theorem bankOf_cast (c : Config) (nan : FpSite → NaNPattern) (m : F32) (h : 1 ≤ c.bankCount) :
    (bankOf c nan m : Int) = F32.toInt (F32.trunc (nan .bankTrunc) m) % (c.bankCount : Int) :=
  Int.toNat_of_nonneg (Int.emod_nonneg _ (by omega))

theorem bankOf_lt (c : Config) (nan : FpSite → NaNPattern) (m : F32) (h : 1 ≤ c.bankCount) :
    bankOf c nan m < c.bankCount := by
  have hlt := Int.emod_lt_of_pos (F32.toInt (F32.trunc (nan .bankTrunc) m)) (b := c.bankCount) (by omega)
  rw [← bankOf_cast c nan m h] at hlt
  exact_mod_cast hlt

theorem bankOf_nan (c : Config) (nan : FpSite → NaNPattern) {m : F32} (h : F32.isNaN m = true) : bankOf c nan m = 0 := by
  rw [bankOf, F32.trunc_nan h, F32.toInt_nan (NaNPattern.isNaN_bits _)]
  exact congrArg Int.toNat (Int.zero_emod _)

/-- Settles O31: the Euclidean remainder by a positive bank count is a bank; R78's examples have two banks. -/
theorem bankSelectionIsModular : Obligations.BankSelectionIsModular := by
  refine ⟨fun c nan m h => ⟨bankOf_lt c nan m h, bankOf_cast c nan m h⟩,
    fun c nan h => ⟨?_, ?_, ?_, ?_, fun m hm => bankOf_nan c nan hm⟩⟩ <;>
  rw [bankOf, h, F32.trunc_eq_ofWhole (by decide)] <;> decide

end Machine
end Sys2Proof
end

section
/-! PROOFS. The block generator's acceptance and its conversions (41_block_generator.md R85 to R87, R98): what CYCLE does
on an idle block, FROM_FIXED and TO_FIXED. -/

namespace Sys2Proof

/-! ### Rounding between two representable magnitudes, and products of finite values -/

/-- Rounding an exact value does not pass a representable magnitude from either side. -/
theorem F32.natAbs_val_ofUnits_bounds {z : Bool} {k : Int} {lo hi : Nat} (hfin : hi < F32.infMag)
    (hlo : F32.magUnits lo ≤ k.natAbs) (hhi : k.natAbs ≤ F32.magUnits hi) :
    F32.isFinite (F32.ofUnits z k) = true ∧ F32.magUnits lo ≤ (F32.val (F32.ofUnits z k)).natAbs ∧
      (F32.val (F32.ofUnits z k)).natAbs ≤ F32.magUnits hi := by
  by_cases hk : k = 0
  · subst hk
    cases z <;> exact ⟨rfl, hlo, hhi⟩
  · have hle : F32.roundMag k.natAbs 1 ≤ hi := F32.roundMag_le one_pos (by rwa [mul_one])
    have hloHi : lo ≤ hi := F32.magUnits_strictMono.le_iff_le.mp (hlo.trans hhi)
    have hge : lo ≤ F32.roundMag k.natAbs 1 :=
      F32.le_roundMag one_pos (hloHi.trans hfin.le) (by rwa [mul_one])
    have hlt := hle.trans_lt hfin
    rw [F32.ofUnits, if_neg hk, F32.isFinite_pack hlt.le, F32.natAbs_val,
      F32.mag_pack (by unfold F32.infMag at hlt; omega)]
    exact ⟨hlt, F32.magUnits_strictMono.monotone hge, F32.magUnits_strictMono.monotone hle⟩

/-- A representable magnitude that is zero or large is a multiple of a power of two, with a representable quotient. -/
theorem F32.rep_div_two_pow {k j : Nat} (h : F32.Rep k) (hk : k = 0 ∨ 2 ^ (24 + j) ≤ k) :
    ∃ r, F32.Rep r ∧ k = r * 2 ^ j := by
  rcases hk with rfl | hk
  · exact ⟨0, h, (Nat.zero_mul _).symm⟩
  · obtain ⟨n, e, hn, he, rfl⟩ := F32.rep_cases h
    have hlt : 2 ^ (24 + j) < 2 ^ (24 + e) := by
      rw [pow_add 2 24 e]
      exact hk.trans_lt (Nat.mul_lt_mul_of_pos_right hn (by positivity))
    have hje : 24 + j < 24 + e := (Nat.pow_lt_pow_iff_right (by decide)).mp hlt
    refine ⟨n * 2 ^ (e - j), F32.rep_shift hn (by omega), ?_⟩
    rw [mul_assoc, ← pow_add, Nat.sub_add_cancel (by omega)]

/-- The product of finite values draws nothing. -/
theorem F32.mul?_finite {a b : F32} (ha : F32.isFinite a = true) (hb : F32.isFinite b = true) (p : NaNPattern) :
    F32.mul? a b = some (F32.mul p a b) := by
  simp [F32.mul, F32.mul?, F32.not_nan_of_finite ha, F32.not_nan_of_finite hb, F32.not_inf_of_finite ha,
    F32.not_inf_of_finite hb]

/-! ### The comparison and the value of a pattern -/

theorem F32.le_eq_decide {a b : F32} (ha : F32.isNaN a = false) (hb : F32.isNaN b = false) :
    F32.le a b = decide (F32.val a ≤ F32.val b) := by
  simp [F32.le, ha, hb]

theorem F32.sign_units_of_val_pos {x : F32} (h : 0 < F32.val x) : F32.sign x = false ∧ (F32.units x : Int) = F32.val x := by
  unfold F32.val at h ⊢
  cases hs : F32.sign x
  case false => exact ⟨rfl, (if_neg Bool.false_ne_true).symm⟩
  case true => rw [hs, if_pos rfl] at h; omega

theorem F32.sign_units_of_val_neg {x : F32} (h : F32.val x < 0) : F32.sign x = true ∧ (F32.units x : Int) = -F32.val x := by
  unfold F32.val at h ⊢
  cases hs : F32.sign x
  case false => rw [hs, if_neg Bool.false_ne_true] at h; omega
  case true => exact ⟨rfl, by rw [if_pos rfl, neg_neg]⟩

/-- A value below 1.0 is finite: the units of an infinity and of a NaN are above those of every finite pattern. -/
theorem F32.isFinite_of_abs_val_lt {x : F32} (h : |F32.val x| < F32.unitOne) : F32.isFinite x = true := by
  have hone : F32.magUnits (F32.mag F32.one) = 2 ^ 149 := by decide
  have hlt : F32.magUnits (F32.mag x) < F32.magUnits (F32.mag F32.one) := by
    rw [Int.abs_eq_natAbs, F32.unitOne] at h
    rw [hone, ← F32.natAbs_val]
    omega
  exact (F32.isFinite_iff x).mpr ((F32.magUnits_strictMono.lt_iff_lt.mp hlt).trans (by decide))

namespace Machine

/-! ### The acceptance of CYCLE (R85, R86) -/

theorem cycleEffect_of_no_frames (c : Config) (note fine : BitVec 8) (s : State) :
    cycleEffect c note fine 0#12 s = s := if_pos rfl

/-- Settles O9: an idle block accepts the word, and its effect is none. -/
theorem cycleOfNoFramesHasNoEffect : Obligations.CycleOfNoFramesHasNoEffect := by
  intro note fine s hidle
  rw [exec_cycle_idle hidle, cycleEffect_of_no_frames]

/-- Settles O10: an idle block accepts the word, and a 12-bit FRAMES is exact as a float. -/
theorem cycleAcceptance : Obligations.CycleAcceptance := by
  intro note fine frames s hidle hframes
  have hexact : |(frames.toNat : Int)| ≤ 2 ^ 24 := by
    have := frames.isLt
    rw [Nat.abs_cast]
    omega
  rw [exec_cycle_idle hidle, cycleEffect_of_frames_ne_zero _ _ _ _ hframes]
  exact ⟨rfl, F32.ofInt_exact hexact⟩

/-! ### FROM_FIXED (R87) -/

theorem powNeg31_finite_val : F32.isFinite F32.powNeg31 = true ∧ F32.val F32.powNeg31 = 2 ^ 118 := by decide

/-- float of a 32-bit integer is finite, at most 2^31 in magnitude, and at least 1.0 unless the integer is 0. -/
theorem ofInt_toInt_bounds (q : Word) :
    F32.isFinite (F32.ofInt q.toInt) = true ∧ (F32.val (F32.ofInt q.toInt)).natAbs ≤ 2 ^ 180 ∧
      (q ≠ 0#32 → 2 ^ 149 ≤ (F32.val (F32.ofInt q.toInt)).natAbs) := by
  have hone : F32.magUnits (F32.mag F32.one) = 2 ^ 149 := by decide
  have hpow : F32.magUnits (F32.mag F32.pow31) = 2 ^ 180 := by decide
  have hzero : F32.magUnits 0 = 0 := by decide
  have habs : (q.toInt * 2 ^ 149).natAbs = q.toInt.natAbs * 2 ^ 149 := Int.natAbs_mul _ _
  have hhi : (q.toInt * 2 ^ 149).natAbs ≤ F32.magUnits (F32.mag F32.pow31) := by
    have := q.le_two_mul_toInt
    have := q.two_mul_toInt_lt
    omega
  have hpowFin : F32.mag F32.pow31 < F32.infMag := by decide
  obtain ⟨hfin, -, hle⟩ := F32.natAbs_val_ofUnits_bounds (z := false) (lo := 0) hpowFin (by omega) hhi
  refine ⟨hfin, hle.trans_eq hpow, fun hq => ?_⟩
  have hne : q.toInt ≠ 0 := fun h => hq (BitVec.eq_of_toInt_eq h)
  rw [← hone]
  exact (F32.natAbs_val_ofUnits_bounds (z := false) hpowFin (by omega) hhi).2.1

/-- FROM_FIXED divides float(q) by 2^31 exactly. -/
theorem fromFixed_exact (q : Word) :
    F32.isFinite (fromFixed q) = true ∧ F32.val (fromFixed q) * 2 ^ 31 = F32.val (F32.ofInt q.toInt) := by
  obtain ⟨hfin, -, hge⟩ := ofInt_toInt_bounds q
  obtain ⟨hpowFin, hpowVal⟩ := powNeg31_finite_val
  have hlarge : (F32.val (F32.ofInt q.toInt)).natAbs = 0 ∨ 2 ^ (24 + 31) ≤ (F32.val (F32.ofInt q.toInt)).natAbs := by
    by_cases hq : q = 0#32
    · subst hq; exact .inl (by decide)
    · exact .inr (le_trans (by decide) (hge hq))
  obtain ⟨r, hrep, hr⟩ := F32.rep_div_two_pow (F32.rep_val hfin) hlarge
  obtain ⟨k, hk⟩ : (2 ^ 31 : Int) ∣ F32.val (F32.ofInt q.toInt) :=
    Int.natAbs_dvd_natAbs.mp ⟨r, hr.trans (mul_comm _ _)⟩
  have hkr : k.natAbs = r := by rw [hk] at hr; omega
  obtain ⟨hmulFin, hmulVal⟩ := F32.mul_exact (nan := default) hfin hpowFin
    (by rw [hk, hpowVal]; ring) (hkr ▸ hrep)
  rw [fromFixed, F32.mul?_finite hfin hpowFin default]
  exact ⟨hmulFin, by rw [Option.getD_some, hmulVal, hk, mul_comm]⟩

/-- Settles O25: the product scales float(q) by a power of two, so its range is that of float(q); the value is 0 for
q = 0 alone, which gives +0.0. -/
theorem fromFixedIsExactAndBounded : Obligations.FromFixedIsExactAndBounded := by
  refine ⟨fun q => ?_, by decide, by decide, by decide, by decide⟩
  obtain ⟨hfin, hval⟩ := fromFixed_exact q
  obtain ⟨-, hle, hge⟩ := ofInt_toInt_bounds q
  refine ⟨hfin, hval, ?_, ?_, fun hneg => ?_⟩
  · rw [F32.unitOne]; omega
  · rw [F32.unitOne]; omega
  · by_cases hq : q = 0#32
    · subst hq; exact absurd hneg (by decide)
    · have hzero : F32.val (fromFixed q) = 0 := by rw [hneg]; decide
      rw [← hval, hzero] at hge
      exact absurd (hge hq) (by decide)

/-! ### TO_FIXED (R98) -/

theorem pow31_finite_val : F32.isFinite F32.pow31 = true ∧ F32.val F32.pow31 = 2 ^ 31 * F32.unitOne := by decide

theorem val_neg_pow31 : F32.val (F32.neg F32.pow31) = -(2 ^ 31 * F32.unitOne) := by decide

theorem toFixed_nan {x : F32} (h : F32.isNaN x = true) : toFixed x = 0x00000000#32 := by
  simp [toFixed, F32.mul?, h]

/-- The three ranges of the product s ×f 2^31, where it is no NaN. -/
theorem toFixed_of_mul? {x v : F32} (hmul : F32.mul? x F32.pow31 = some v) :
    toFixed x = if 2 ^ 31 * F32.unitOne ≤ F32.val v then 0x7FFFFFFF#32
      else if F32.val v ≤ -(2 ^ 31 * F32.unitOne) then 0x80000000#32 else BitVec.ofInt 32 (F32.toInt v) := by
  have hv := F32.isNaN_of_mem_mul? hmul
  simp only [toFixed, hmul, F32.le_eq_decide (by decide : F32.isNaN F32.pow31 = false) hv,
    F32.le_eq_decide hv (by decide : F32.isNaN (F32.neg F32.pow31) = false), decide_eq_true_eq, pow31_finite_val.2,
    val_neg_pow31]

/-- From magnitude 1.0 on, the infinities included, the product has magnitude 2^31 or more, and the operand's sign. -/
theorem mul?_pow31_large {x : F32} (hnan : F32.isNaN x = false) (hx : 2 ^ 149 ≤ F32.units x) :
    ∃ m, F32.mul? x F32.pow31 = some (F32.pack (F32.sign x) m) ∧ F32.mag F32.pow31 ≤ m ∧ m ≤ F32.infMag := by
  have hpow : F32.units F32.pow31 = 2 ^ 180 := by decide
  have hmag : F32.magUnits (F32.mag F32.pow31) = 2 ^ 180 := by decide
  have hsign : (F32.sign x != F32.sign F32.pow31) = F32.sign x := Bool.xor_false _
  have hpowNaN : F32.isNaN F32.pow31 = false := by decide
  have hpowInf : F32.isInf F32.pow31 = false := by decide
  cases hinf : F32.isInf x
  case true =>
    refine ⟨F32.infMag, ?_, by decide, le_rfl⟩
    simp [F32.mul?, hnan, hinf, hpow, hpowNaN, hsign, show F32.units x ≠ 0 by omega]
  case false =>
    refine ⟨F32.roundMag (F32.units x * 2 ^ 180) (2 ^ 149), ?_, ?_, F32.roundMag_le_inf _ _⟩
    · simp only [F32.mul?, hnan, hinf, hpow, hpowNaN, hpowInf, hsign, Bool.or_self, Bool.false_eq_true, if_false]
    · refine F32.le_roundMag (by positivity) (by decide) ?_
      rw [hmag, mul_comm]
      exact Nat.mul_le_mul_right _ hx

/-- From magnitude 1.0 on the word is the greatest or the least one, by the sign. -/
theorem toFixed_large {x : F32} (hnan : F32.isNaN x = false) (hx : 2 ^ 149 ≤ F32.units x) :
    toFixed x = if F32.sign x then 0x80000000#32 else 0x7FFFFFFF#32 := by
  obtain ⟨m, hmul, hlo, hhi⟩ := mul?_pow31_large hnan hx
  have hunits : 2 ^ 180 ≤ F32.magUnits m := F32.magUnits_strictMono.monotone hlo
  rw [toFixed_of_mul? hmul, F32.val_pack hhi]
  unfold F32.unitOne
  cases F32.sign x
  case false => rw [if_neg Bool.false_ne_true, if_pos (by omega), if_neg Bool.false_ne_true]
  case true => rw [if_pos rfl, if_neg (by omega), if_pos (by omega), if_pos rfl]

/-- Below magnitude 1.0 the product is exact, and its integer part is a 32-bit integer. -/
theorem toInt_toFixed {x : F32} (hlo : -F32.unitOne < F32.val x) (hhi : F32.val x < F32.unitOne) :
    (toFixed x).toInt = (F32.val x * 2 ^ 31).tdiv F32.unitOne := by
  have hx : F32.isFinite x = true := F32.isFinite_of_abs_val_lt (abs_lt.mpr ⟨hlo, hhi⟩)
  obtain ⟨hpow, hpowVal⟩ := pow31_finite_val
  obtain ⟨hfin, hval⟩ := F32.mul_exact (nan := default) (k := 2 ^ 31 * F32.val x) hx hpow (by rw [hpowVal]; ring)
    (F32.rep_two_pow_mul_val hx (abs_lt.mpr ⟨hlo, hhi⟩) (by decide))
  have hint := F32.toInt_not_nan (F32.not_nan_of_finite hfin)
  have hrange : -2 ^ 31 ≤ F32.toInt (F32.mul default x F32.pow31) ∧
      F32.toInt (F32.mul default x F32.pow31) < 2 ^ 31 := by rw [hint]; omega
  rw [(F32.clamp_tdiv _).2.2 (by rw [hval]; omega) (by rw [hval]; omega), hval, mul_comm] at hint
  rw [toFixed_of_mul? (F32.mul?_finite hx hpow default), hval, if_neg (by omega), if_neg (by omega),
    BitVec.toInt_ofInt_eq_self (by decide) hrange.1 hrange.2, hint]

/-- Settles O26: a NaN, saturation by the sign from magnitude 1.0 on, and the exact product below it. -/
theorem toFixedSaturatesAndTruncates : Obligations.ToFixedSaturatesAndTruncates := by
  refine ⟨fun x h => toFixed_nan h, fun x h => ⟨fun hx => ?_, fun hx => ?_, toInt_toFixed⟩, by decide⟩
  · obtain ⟨hsign, hunits⟩ := F32.sign_units_of_val_pos (x := x) (lt_of_lt_of_le (by decide) hx)
    rw [toFixed_large h (by unfold F32.unitOne at hx; omega), hsign, if_neg Bool.false_ne_true]
  · obtain ⟨hsign, hunits⟩ := F32.sign_units_of_val_neg (x := x) (lt_of_le_of_lt hx (by decide))
    rw [toFixed_large h (by unfold F32.unitOne at hx; omega), hsign, if_pos rfl]

end Machine
end Sys2Proof
end

section
/-! PROOFS. The sample step's fold and phase accumulator (41_block_generator.md R91, R96): the values they give without a
draw, and that only INIT and a power-on take a NaN out of the phase. -/

namespace Sys2Proof.Machine

/-! ### The fractional part of a finite value -/

/-- frac of a finite value draws nothing: it is the exact remainder, with +0.0 for a remainder of 0. -/
theorem frac_eq_ofUnits {p q : NaNPattern} {x : F32} (h : F32.isFinite x = true) :
    frac p q x = F32.ofUnits false ((F32.val x).tmod F32.unitOne) := by
  obtain ⟨hfin, hval, hsign⟩ := F32.trunc_finite (nan := p) h
  rw [frac, F32.sub_finite h hfin, hsign, hval, Bool.and_not_self, Int.tmod_def, mul_comm]

/-! ### Step b: the fold (R91) -/

section
variable {nan : FpSite → NaNPattern} {w : F32}

theorem foldSample_of_val_le_zero (hnan : F32.isNaN w = false) (hw : F32.val w ≤ 0) :
    foldSample nan w = F32.sub (nan .foldSub) F32.one w :=
  if_pos (by rw [F32.le_eq_decide hnan (by decide)]; exact decide_eq_true hw)

theorem foldSample_of_nan_or_pos (hw : F32.isNaN w = true ∨ 0 < F32.val w) :
    foldSample nan w = frac (nan .foldTrunc) (nan .foldFrac) w := by
  refine if_neg ?_
  intro hle
  simp only [F32.le, Bool.and_eq_true, Bool.not_eq_true', decide_eq_true_eq] at hle
  obtain ⟨⟨hnan, -⟩, hval⟩ := hle
  rcases hw with hw | hw
  · simp [hw] at hnan
  · exact absurd hval hw.not_ge

/-- 1 −f w of a finite w ≤ 0, which draws nothing. -/
theorem foldSample_eq_ofUnits_of_val_le_zero (hfin : F32.isFinite w = true) (hw : F32.val w ≤ 0) :
    foldSample nan w = F32.ofUnits false (F32.unitOne - F32.val w) := by
  obtain ⟨honeFin, honeVal, honeSign⟩ :
    F32.isFinite F32.one = true ∧ F32.val F32.one = F32.unitOne ∧ F32.sign F32.one = false := by decide
  rw [foldSample_of_val_le_zero (F32.not_nan_of_finite hfin) hw, F32.sub_finite honeFin hfin, honeVal, honeSign,
    Bool.false_and]

/-- The fraction of a finite w > 0, which draws nothing. -/
theorem foldSample_eq_ofUnits_of_val_pos (hfin : F32.isFinite w = true) (hw : 0 < F32.val w) :
    foldSample nan w = F32.ofUnits false ((F32.val w).tmod F32.unitOne) :=
  (foldSample_of_nan_or_pos (.inr hw)).trans (frac_eq_ofUnits hfin)

end

/-- Settles O34: the comparison with 0.0 selects the case; at a finite sample neither case draws. -/
theorem foldOfTheRawSample : Obligations.FoldOfTheRawSample := by
  refine ⟨fun _ _ hnan hw => foldSample_of_val_le_zero hnan hw, fun _ _ hw => foldSample_of_nan_or_pos hw,
    fun nan w hnan => ?nan, fun nan => ⟨?_, ?_, ?_, ?_, ?_, ?_, ?_, ?inf, ?negInf⟩⟩
  case nan =>
    rw [foldSample_of_nan_or_pos (.inl hnan), frac, F32.sub_nan_left hnan]
    exact NaNPattern.isNaN_bits _
  case inf =>
    rw [foldSample_of_nan_or_pos (.inr (by decide)), F32.frac_not_finite (by decide)]
    exact NaNPattern.isNaN_bits _
  case negInf =>
    rw [foldSample_of_val_le_zero (by decide) (by decide)]
    rfl
  iterate 4
    · rw [foldSample_eq_ofUnits_of_val_le_zero (by decide) (by decide)]
      decide
  iterate 3
    · rw [foldSample_eq_ofUnits_of_val_pos (by decide) (by decide)]
      decide

/-! ### Step e: the phase accumulator (R96) -/

/-- Step e of a finite rounded sum. -/
theorem nextPhase_of_sum {nan : FpSite → NaNPattern} {phase inc sum : F32}
    (hsum : F32.add (nan .stepAdd) phase inc = sum) (hfin : F32.isFinite sum = true) :
    nextPhase nan phase inc = F32.ofUnits false ((F32.val sum).tmod F32.unitOne) := by
  rw [nextPhase, hsum, frac_eq_ofUnits hfin]

theorem isNaN_nextPhase {nan : FpSite → NaNPattern} {phase : F32} (inc : F32) (h : F32.isNaN phase = true) :
    F32.isNaN (nextPhase nan phase inc) = true := by
  have hsum : F32.add (nan .stepAdd) phase inc = (nan .stepAdd).bits := by simp [F32.add, F32.add?, h]
  rw [nextPhase, hsum, frac, F32.sub_nan_left (NaNPattern.isNaN_bits _)]
  exact NaNPattern.isNaN_bits _

/-! ### The six registers over a command, a host operation and a step -/

theorem cycleEffect_phase (c : Config) (note fine : BitVec 8) (frames : BitVec 12) (s : State) :
    (cycleEffect c note fine frames s).osc.phase = s.osc.phase := by
  unfold cycleEffect; split <;> rfl

/-- No command but INIT writes the phase. -/
theorem exec_phase {i : Instr} {s t : State} (h : exec i s = .next t) : i = .init ∨ t.osc.phase = s.osc.phase := by
  rcases (exec_cases h).2 t rfl with ⟨hi, -⟩ | ⟨note, fine, frames, -, -, rfl⟩ | ⟨-, rfl⟩ | ⟨-, rfl⟩ | ⟨w, -, rfl⟩ |
    ⟨-, rfl⟩ | ⟨-, rfl⟩ | ⟨-, -, rfl⟩
  case inl => exact .inl hi
  case inr.inl => exact .inr (cycleEffect_phase _ _ _ _ _)
  all_goals exact .inr rfl

@[simp] theorem pollStatus_osc (c : Config) (s : State) : (pollStatus c s).osc = s.osc := by
  unfold pollStatus; split <;> rfl

/-- A host operation is a command word, a power-on, or one that leaves the six registers alone. -/
theorem hostOp_osc {op : HostOp} {s t : State} (h : hostOp op s = .next t) :
    (∃ w, op = cmdWrite w ∧ exec (decode w) s = .next t) ∨ (op = .powerOn ∧ t = s.powerOn) ∨ t.osc = s.osc := by
  rcases hostOp_cases h with hcmd | ⟨w, -, rfl⟩ | ⟨o, w, -, -, -, rfl⟩ | ⟨o, -, rfl⟩ | ⟨-, rfl⟩ | hon
  · exact .inl hcmd
  · exact .inr (.inr rfl)
  · exact .inr (.inr rfl)
  · exact .inr (.inr rfl)
  · exact .inr (.inr (pollStatus_osc _ _))
  · exact .inr (.inl hon)

/-- The four things a step can be for the six registers: a command accepted, a power-on, a sample step, or a step that
leaves them alone. -/
theorem step_osc {s t : State} (h : step s = .next t) :
    (∃ i rest ops, s.accepts i ∧ exec i { s with turns := rest, pending := ops } = .next t) ∨
    (s.hostPerforms .powerOn ∧ ∃ u : State, t = u.powerOn) ∨
    (∃ q rest, s.cyc = some q ∧ t = ({ s with turns := rest } : State).afterSample Config.machine q) ∨
    t.osc = s.osc := by
  rcases step_cases h with ⟨-, -, rfl⟩ | ⟨rest, q, -, hq, -, ht⟩ | ⟨rest, op, ops, hn, hp, -, hop⟩
  · exact .inr (.inr (.inr rfl))
  · exact .inr (.inr (.inl ⟨q, rest, hq, ht⟩))
  · rcases hostOp_osc hop with ⟨w, rfl, hexec⟩ | ⟨rfl, ht⟩ | hosc
    · exact .inl ⟨decode w, rest, ops, accepts_of hn hp rfl, hexec⟩
    · exact .inr (.inl ⟨hostPerforms_of hn hp, _, ht⟩)
    · exact .inr (.inr (.inr hosc))

/-- A NaN phase stays a NaN over every step but an accepted INIT and a power-on. -/
theorem step_keeps_nan_phase {s t : State} (hnan : F32.isNaN s.osc.phase = true) (h : step s = .next t)
    (hinit : ¬ s.accepts .init) (hon : ¬ s.hostPerforms .powerOn) : F32.isNaN t.osc.phase = true := by
  rcases step_osc h with ⟨i, rest, ops, hacc, hexec⟩ | ⟨hperf, -⟩ | ⟨q, rest, -, rfl⟩ | hosc
  · rcases exec_phase hexec with rfl | hphase
    · exact absurd hacc hinit
    · rwa [hphase]
  · exact absurd hperf hon
  · exact isNaN_nextPhase _ hnan
  · rwa [hosc]

/-- Settles O37: the sample step's phase is step e by definition; the examples are finite but the infinite one; a
NaN phase gives a NaN in a sample step, and no other step but INIT and a power-on writes it. -/
theorem phaseAdvance : Obligations.PhaseAdvance := by
  refine ⟨fun c s q t hq h => ?stepE, fun nan => ⟨?_, ?_, ?_, ?_, ?truncNeg, ?neg, ?negRange, ?inf⟩,
    fun _ _ => step_keeps_nan_phase⟩
  case stepE =>
    rcases sampleStep_cases h with ⟨hnone, -⟩ | ⟨_, -, -, rfl⟩
    · simp [hq] at hnone
    · rfl
  case truncNeg =>
    rw [F32.add_finite (by decide) (by decide), F32.trunc_eq_ofWhole (by decide)]
    decide
  case neg =>
    rw [nextPhase_of_sum (F32.add_finite (by decide) (by decide)) (by decide), F32.add_finite (by decide) (by decide)]
    decide
  case negRange =>
    rw [nextPhase_of_sum (F32.add_finite (by decide) (by decide)) (by decide)]
    decide
  case inf =>
    have hsum : F32.add (nan .stepAdd) 0x3E800000#32 0x7F800000#32 = 0x7F800000#32 := rfl
    rw [nextPhase, hsum, F32.frac_not_finite (by decide)]
    exact NaNPattern.isNaN_bits _
  all_goals
    rw [nextPhase_of_sum (F32.add_finite (by decide) (by decide)) (by decide)]
    decide

end Sys2Proof.Machine
end

section
/-! PROOFS. The Parameter Store (42_parameter_store.md R107, R108, R110, R111): what each PARAM stores, that a repeated
one stores the same, and the one writer each state register has over a step. -/

namespace Sys2Proof

/-! ### Rounding a nonnegative exact value, and a NaN addend -/

theorem F32.val_ofUnits_nonneg {z : Bool} {k : Int} (hk : 0 ≤ k) : 0 ≤ F32.val (F32.ofUnits z k) := by
  rcases hk.eq_or_lt with rfl | hpos
  · cases z <;> decide
  · rw [F32.ofUnits, if_neg hpos.ne', decide_eq_false hpos.not_gt, F32.val_pack (F32.roundMag_le_inf _ _),
      if_neg Bool.false_ne_true]
    positivity

/-- Rounding a nonnegative exact value does not leave an interval with representable ends. -/
theorem F32.ofUnits_between {z : Bool} {k : Int} {lo hi : Nat} (hfin : hi < F32.infMag)
    (hlo : F32.magUnits lo ≤ k) (hhi : k ≤ F32.magUnits hi) :
    F32.Between (F32.magUnits lo) (F32.magUnits hi) (F32.ofUnits z k) := by
  have hnonneg : 0 ≤ F32.val (F32.ofUnits z k) := F32.val_ofUnits_nonneg (by omega)
  obtain ⟨hf, hge, hle⟩ := F32.natAbs_val_ofUnits_bounds (z := z) (k := k) (lo := lo) hfin (by omega) (by omega)
  exact ⟨hf, by omega, by omega⟩

theorem F32.add_nan_right {p : NaNPattern} {a b : F32} (h : F32.isNaN b = true) : F32.add p a b = p.bits := by
  simp [F32.add, F32.add?, h]

namespace Machine

/-! ### What a PARAM command does (R106 to R108) -/

theorem exec_paramMorph (s : State) : exec .paramMorph s = .next (setMorph Config.machine s) := rfl

theorem exec_paramShape (s : State) : exec .paramShape s = .next (setShape Config.machine s) := rfl

theorem exec_paramNop (slot : BitVec 8) (s : State) : exec (.paramNop slot) s = .next s := rfl

/-- The stored value depends on ARG alone, which PARAM leaves as it is (R110). -/
theorem setMorph_setMorph (c : Config) (s : State) : setMorph c (setMorph c s) = setMorph c s := rfl

theorem setShape_setShape (c : Config) (s : State) : setShape c (setShape c s) = setShape c s := rfl

/-! ### PARAM_SHAPE (R107) -/

/-- 1.0 +f v of a finite v, which draws nothing; the sum of 1.0 and −1.0 is +0.0. -/
theorem shapeValue_finite (c : Config) {v : F32} (hv : F32.isFinite v = true) :
    shapeValue c v = F32.ofUnits false (F32.unitOne + F32.val v) := by
  obtain ⟨hfin, hval, hsign⟩ :
    F32.isFinite F32.one = true ∧ F32.val F32.one = F32.unitOne ∧ F32.sign F32.one = false := by decide
  rw [shapeValue, F32.add_finite hfin hv, hval, hsign, Bool.false_and]

/-- 1.0 and 2.0 are representable, so a sum between them does not round out of their interval. -/
theorem shapeValue_between (c : Config) {v : F32} (h : F32.Between 0 F32.unitOne v) :
    F32.Between F32.unitOne (2 * F32.unitOne) (shapeValue c v) := by
  obtain ⟨hfin, hlo, hhi⟩ := h
  have hone : (F32.magUnits (F32.mag F32.one) : Int) = F32.unitOne := by decide
  have htwo : (F32.magUnits (F32.mag F32.two) : Int) = 2 * F32.unitOne := by decide
  rw [shapeValue_finite c hfin, ← htwo, ← hone]
  exact F32.ofUnits_between (by decide) (by rw [hone]; omega) (by rw [hone, htwo]; omega)

theorem isNaN_shapeValue (c : Config) {v : F32} (h : F32.isNaN v = true) : F32.isNaN (shapeValue c v) = true := by
  rw [shapeValue, F32.add_nan_right h]
  exact NaNPattern.isNaN_bits _

/-- Settles O12: the sum of 1.0 and a finite operand is the exact sum rounded once, and a NaN operand gives a NaN. -/
theorem paramShapeAddsOne : Obligations.ParamShapeAddsOne := by
  refine ⟨exec_paramShape, fun c _ => shapeValue_between c, fun c => ⟨?_, ?_, ?_, ?_⟩, fun c _ => isNaN_shapeValue c⟩
  all_goals
    rw [shapeValue_finite c (by decide)]
    decide

/-! ### The slots without an effect, and a repeated PARAM (R108, R110) -/

/-- A PARAM word of a slot from 2 to 255 is legal and stands for `paramNop`. -/
theorem decode_paramNop {w : Word} (hop : w.toNat % 16 = 3) (hhigh : w.toNat / 2 ^ 12 = 0)
    (hslot : 2 ≤ w.toNat / 2 ^ 4) : decode w = .paramNop (Word.slot w) := by
  have hlegal : Word.isIllegal Config.machine.maxFrames w = false := by
    rw [Bool.eq_false_iff, ne_eq, Word.isIllegal_iff]
    omega
  exact decodeWith_of_two_le_slot hlegal hop (by omega)

/-- Settles O13: by the constructor and by the word; 0x73 is the word of slot 7. -/
theorem paramNopChangesNothing : Obligations.ParamNopChangesNothing := by
  have hword : ∀ w : Word, w.toNat % 16 = 3 → w.toNat / 2 ^ 12 = 0 → 2 ≤ w.toNat / 2 ^ 4 →
      ∀ s, exec (decode w) s = .next s := by
    intro w hop hhigh hslot s
    rw [decode_paramNop hop hhigh hslot, exec_paramNop]
  exact ⟨exec_paramNop, hword, hword _ (by decide) (by decide) (by decide)⟩

/-- Settles O16: the stored pattern is a function of ARG, which PARAM does not change. -/
theorem paramIsIdempotent : Obligations.ParamIsIdempotent := by
  intro s u harg
  refine ⟨⟨_, _, exec_paramMorph s, exec_paramMorph u, ?morph, ?morphAgain⟩,
    ⟨_, _, exec_paramShape s, exec_paramShape u, ?shape, ?shapeAgain⟩⟩
  case morph => rw [setMorph_osc, setMorph_osc, harg]
  case morphAgain => rw [exec_paramMorph, setMorph_setMorph]
  case shape => rw [setShape_osc, setShape_osc, harg]
  case shapeAgain => rw [exec_paramShape, setShape_setShape]

/-! ### The writers of the six registers (R111) -/

/-- CYCLE on an idle block writes at most phaseInc and lfoTarget. -/
theorem cycleEffect_osc (c : Config) (note fine : BitVec 8) (frames : BitVec 12) (s : State) :
    ∃ inc target, (cycleEffect c note fine frames s).osc = { s.osc with phaseInc := inc, lfoTarget := target } := by
  by_cases h : frames = 0#12
  · subst h
    exact ⟨s.osc.phaseInc, s.osc.lfoTarget, by rw [cycleEffect_of_no_frames]⟩
  · rw [cycleEffect_of_frames_ne_zero c note fine s h]
    exact ⟨_, _, acceptCycle_osc ..⟩

/-- What a command but INIT writes of the six registers: a CYCLE phaseInc and lfoTarget, PARAM_MORPH and PARAM_SHAPE
their own, and every other command none. -/
theorem exec_osc {i : Instr} {s t : State} (h : exec i s = .next t) (hinit : i ≠ .init) :
    (∃ note fine frames inc target, i = .cycle note fine frames ∧
      t.osc = { s.osc with phaseInc := inc, lfoTarget := target }) ∨
    (∃ m, i = .paramMorph ∧ t.osc = { s.osc with morph := m }) ∨
    (∃ v, i = .paramShape ∧ t.osc = { s.osc with shape := v }) ∨
    t.osc = s.osc := by
  rcases (exec_cases h).2 t rfl with ⟨hi, -⟩ | ⟨note, fine, frames, hi, -, rfl⟩ | ⟨hi, rfl⟩ | ⟨hi, rfl⟩ | ⟨w, -, rfl⟩ |
    ⟨-, rfl⟩ | ⟨-, rfl⟩ | ⟨-, -, rfl⟩
  · exact absurd hi hinit
  · obtain ⟨inc, target, hosc⟩ := cycleEffect_osc Config.machine note fine frames s
    exact .inl ⟨note, fine, frames, inc, target, hi, hosc⟩
  · exact .inr (.inl ⟨_, hi, setMorph_osc ..⟩)
  · exact .inr (.inr (.inl ⟨_, hi, setShape_osc ..⟩))
  all_goals exact .inr (.inr (.inr rfl))

/-- A PARAM of any slot leaves the four block registers alone. -/
theorem param_keeps_block_registers {s t : State}
    (h : exec .paramMorph s = .next t ∨ exec .paramShape s = .next t ∨ ∃ slot, exec (.paramNop slot) s = .next t) :
    t.osc.phaseInc = s.osc.phaseInc ∧ t.osc.phase = s.osc.phase ∧ t.osc.lfoTarget = s.osc.lfoTarget ∧
      t.osc.lfoCurrent = s.osc.lfoCurrent := by
  rcases h with h | h | ⟨slot, h⟩ <;> cases h <;> exact ⟨rfl, rfl, rfl, rfl⟩

/-- No step of a CYCLE, its acceptance or a sample step, writes morph or shape. -/
theorem cycle_keeps_morph_and_shape {s t : State}
    (h : (∃ note fine frames, exec (.cycle note fine frames) s = .next t) ∨ ∃ c, sampleStep c s = .next t) :
    t.osc.morph = s.osc.morph ∧ t.osc.shape = s.osc.shape := by
  rcases h with ⟨note, fine, frames, hexec⟩ | ⟨c, hsample⟩
  · rcases exec_osc hexec nofun with ⟨_, _, _, _, _, -, hosc⟩ | ⟨_, hi, -⟩ | ⟨_, hi, -⟩ | hosc
    · simp [hosc]
    · cases hi
    · cases hi
    · simp [hosc]
  · rcases sampleStep_cases hsample with ⟨-, rfl⟩ | ⟨q, -, -, rfl⟩
    · exact ⟨rfl, rfl⟩
    · exact ⟨rfl, rfl⟩

/-- What a step but an accepted INIT and a power-on can be for the six registers: a sample step of the sequencer, an
accepted CYCLE, PARAM_MORPH or PARAM_SHAPE, each of which writes its own, or a step that writes none. -/
theorem step_osc_writer {s t : State} (h : step s = .next t) (hinit : ¬ s.accepts .init)
    (hon : ¬ s.hostPerforms .powerOn) :
    (∃ q rest, s.cyc = some q ∧ s.nextAgent = some (.sequencer, rest) ∧
      t = ({ s with turns := rest } : State).afterSample Config.machine q) ∨
    (∃ note fine frames inc target, s.accepts (.cycle note fine frames) ∧
      t.osc = { s.osc with phaseInc := inc, lfoTarget := target }) ∨
    (∃ m, s.accepts .paramMorph ∧ t.osc = { s.osc with morph := m }) ∨
    (∃ v, s.accepts .paramShape ∧ t.osc = { s.osc with shape := v }) ∨
    t.osc = s.osc := by
  rcases step_cases h with ⟨-, -, rfl⟩ | ⟨rest, q, hn, hq, -, ht⟩ | ⟨rest, op, ops, hn, hp, -, hop⟩
  · exact .inr (.inr (.inr (.inr rfl)))
  · exact .inl ⟨q, rest, hq, hn, ht⟩
  · rcases hostOp_osc hop with ⟨w, rfl, hexec⟩ | ⟨rfl, -⟩ | hosc
    · have hacc : s.accepts (decode w) := accepts_of hn hp rfl
      have hne : decode w ≠ .init := fun hi => hinit (hi ▸ hacc)
      rcases exec_osc hexec hne with ⟨note, fine, frames, inc, target, hi, hosc⟩ | ⟨m, hi, hosc⟩ | ⟨v, hi, hosc⟩ | hosc
      · exact .inr (.inl ⟨note, fine, frames, inc, target, hi ▸ hacc, hosc⟩)
      · exact .inr (.inr (.inl ⟨m, hi ▸ hacc, hosc⟩))
      · exact .inr (.inr (.inr (.inl ⟨v, hi ▸ hacc, hosc⟩)))
      · exact .inr (.inr (.inr (.inr hosc)))
    · exact absurd (hostPerforms_of hn hp) hon
    · exact .inr (.inr (.inr (.inr hosc)))

/-- Settles O20: over a step each writer changes its own registers only, so a changed register names its writer. -/
theorem eachRegisterHasOneWriter : Obligations.EachRegisterHasOneWriter := by
  refine ⟨fun _ _ => param_keeps_block_registers, fun _ _ => cycle_keeps_morph_and_shape, fun s t h hinit hon => ?_⟩
  rcases step_osc_writer h hinit hon with ⟨q, rest, hq, hn, rfl⟩ | ⟨note, fine, frames, inc, target, hacc, hosc⟩ |
    ⟨m, hacc, hosc⟩ | ⟨v, hacc, hosc⟩ | hosc
  · exact ⟨by simp, by simp, by simp, fun _ => ⟨q, rest, hq, hn, rfl⟩⟩
  · exact ⟨by simp [hosc], by simp [hosc], fun _ => ⟨note, fine, frames, hacc⟩, by simp [hosc]⟩
  · exact ⟨fun _ => hacc, by simp [hosc], by simp [hosc], by simp [hosc]⟩
  · exact ⟨by simp [hosc], fun _ => hacc, by simp [hosc], by simp [hosc]⟩
  · simp [hosc]

end Machine
end Sys2Proof
end

section
/-! PROOFS. The note commands and the illegal words (43_host_commands.md R113 to R115): what each does, which words stand
for the note commands, and that an illegal word and a sample step commute. -/

namespace Sys2Proof

/-- A word with a note command's OP is illegal exactly when CMD[15:4] ≠ 0. -/
theorem Word.isIllegal_iff_of_note_op {maxFrames : Nat} {w : Word} (hop : w.toNat % 16 = 4 ∨ w.toNat % 16 = 5) :
    Word.isIllegal maxFrames w = true ↔ w.toNat / 2 ^ 4 % 2 ^ 12 ≠ 0 := by
  rw [Word.isIllegal_iff]
  omega

namespace Machine

/-! ### The note commands (R113, R114) -/

theorem exec_noteOn (note fine : BitVec 8) (s : State) : exec (.noteOn note fine) s = .next s := rfl

theorem exec_noteOff (note fine : BitVec 8) (s : State) : exec (.noteOff note fine) s = .next s := rfl

/-- A legal word with a note command's OP changes nothing. -/
theorem exec_decode_note {w : Word} (hop : w.toNat % 16 = 4 ∨ w.toNat % 16 = 5) (hmid : w.toNat / 2 ^ 4 % 2 ^ 12 = 0)
    (s : State) : exec (decode w) s = .next s := by
  have hlegal : Word.isIllegal Config.machine.maxFrames w = false :=
    Bool.eq_false_iff.mpr fun h => (Word.isIllegal_iff_of_note_op hop).mp h hmid
  rcases hop with hfour | hfive
  · rw [decode, decodeWith_of_op_four hlegal hfour, exec_noteOn]
  · rw [decode, decodeWith_of_op_five hlegal hfive, exec_noteOff]

/-- Settles O14: by the constructors and by the words; 0x3C000004 and 0x3C000005 are the words of note 60. -/
theorem noteCommandsChangeNothing : Obligations.NoteCommandsChangeNothing := by
  refine ⟨fun note fine s => ⟨exec_noteOn note fine s, exec_noteOff note fine s⟩, fun w hop hmid => ?illegal,
    fun s => ⟨?on, ?off⟩⟩
  case illegal => exact decodeWith_of_illegal ((Word.isIllegal_iff_of_note_op hop).mpr hmid)
  case on => exact exec_decode_note (.inl (by decide)) (by decide) s
  case off => exact exec_decode_note (.inr (by decide)) (by decide) s

/-! ### The illegal words (R115) -/

theorem sampleStep_of_cyc_eq_none {c : Config} {s : State} (h : s.cyc = none) : sampleStep c s = .next s := by
  rw [sampleStep, h]

/-- A sample step neither reads nor writes ERR, so it commutes with IllegalCommand. -/
theorem afterSample_signalIllegal (c : Config) (s : State) (q : InFlight) :
    (signalIllegal s).afterSample c q = signalIllegal (s.afterSample c q) := rfl

/-- The sample step after an illegal word leads where the sample step before it leads, with ERR set. -/
theorem sampleStep_signalIllegal {c : Config} {s t : State} (h : sampleStep c s = .next t) :
    sampleStep c (signalIllegal s) = .next (signalIllegal t) := by
  rcases sampleStep_cases h with ⟨hidle, rfl⟩ | ⟨q, hq, hindex, rfl⟩
  · exact sampleStep_of_cyc_eq_none hidle
  · rw [← afterSample_signalIllegal]
    exact sampleStep_next hq hindex

/-- STATUS of an idle block after an illegal word: ERR alone. -/
theorem status_signalIllegal_of_idle {s : State} (h : s.busy = false) : (signalIllegal s).status = 0x00000002#32 := by
  have hbusy : (signalIllegal s).busy = false := h
  rw [State.status, signalIllegal_err, hbusy]
  decide

/-- Settles O15: an illegal word only signals IllegalCommand, which commutes with the sample step; 0 is such a word. -/
theorem illegalWordOnlySetsErr : Obligations.IllegalWordOnlySetsErr := by
  refine ⟨exec_illegal, fun c w s t h => ?commutes, fun s hidle => ?zeroWord⟩
  case commutes => exact ⟨_, exec_illegal w s, _, sampleStep_signalIllegal h, exec_illegal w t⟩
  case zeroWord =>
    have hzero : decode 0x00000000#32 = .illegal 0x00000000#32 := decodeWith_of_illegal (by decide)
    rw [hzero, exec_illegal]
    exact ⟨_, rfl, status_signalIllegal_of_idle hidle⟩

end Machine
end Sys2Proof
end

section
/-! PROOFS. Encoding and decoding are inverse to each other (30_encoding.md R57, R58, R61, R68): the command of a
command's word, and the word of a word's command. -/

namespace Sys2Proof

/-! ### The command of a command's word -/

/-- The word of a well-formed command is illegal exactly when the command is the illegal one. -/
theorem isIllegal_encode_iff {maxFrames : Nat} {i : Instr} (h : Instr.wfWith maxFrames i = true) :
    Word.isIllegal maxFrames (encode i) = true ↔ ∃ w, i = .illegal w := by
  cases i with
  | init => exact Laws.Legality.init maxFrames h
  | cycle note fine frames => exact Laws.Legality.cycle note fine frames maxFrames h
  | paramMorph => exact Laws.Legality.paramMorph maxFrames h
  | paramShape => exact Laws.Legality.paramShape maxFrames h
  | paramNop slot => exact Laws.Legality.paramNop slot maxFrames h
  | noteOn note fine => exact Laws.Legality.noteOn note fine maxFrames h
  | noteOff note fine => exact Laws.Legality.noteOff note fine maxFrames h
  | illegal w => exact Laws.Legality.illegal w maxFrames h

theorem encode_legal {maxFrames : Nat} {i : Instr} (h : Instr.wfWith maxFrames i = true) (hi : ∀ w, i ≠ .illegal w) :
    Word.isIllegal maxFrames (encode i) = false :=
  Bool.eq_false_iff.mpr fun hw => let ⟨w, hiw⟩ := (isIllegal_encode_iff h).mp hw; hi w hiw

theorem Word.fields_encode_cycle (note fine : BitVec 8) (frames : BitVec 12) :
    let w := encode (.cycle note fine frames)
    Word.note w = note ∧ Word.fine w = fine ∧ Word.frames w = frames := by
  simp only [← BitVec.toNat_inj, Word.toNat_note, Word.toNat_fine, Word.toNat_frames, toNat_encode_cycle]
  omega

theorem Word.slot_encode_paramNop (slot : BitVec 8) : Word.slot (encode (.paramNop slot)) = slot := by
  simp only [← BitVec.toNat_inj, Word.toNat_slot, toNat_encode_paramNop]
  omega

theorem Word.fields_encode_noteOn (note fine : BitVec 8) :
    let w := encode (.noteOn note fine)
    Word.note w = note ∧ Word.fine w = fine := by
  simp only [← BitVec.toNat_inj, Word.toNat_note, Word.toNat_fine, toNat_encode_noteOn]
  omega

theorem Word.fields_encode_noteOff (note fine : BitVec 8) :
    let w := encode (.noteOff note fine)
    Word.note w = note ∧ Word.fine w = fine := by
  simp only [← BitVec.toNat_inj, Word.toNat_note, Word.toNat_fine, toNat_encode_noteOff]
  omega

theorem decodeWith_encode {maxFrames : Nat} {i : Instr} (h : Instr.wfWith maxFrames i = true) :
    decodeWith maxFrames (encode i) = i := by
  cases i with
  | init => exact decodeWith_of_op_one (encode_legal h nofun) (by decide)
  | cycle note fine frames =>
    obtain ⟨hnote, hfine, hframes⟩ := Word.fields_encode_cycle note fine frames
    rw [decodeWith_of_op_two (encode_legal h nofun) (by rw [toNat_encode_cycle]; omega), hnote, hfine, hframes]
  | paramMorph => exact decodeWith_of_slot_zero (encode_legal h nofun) (by decide) (by decide)
  | paramShape => exact decodeWith_of_slot_one (encode_legal h nofun) (by decide) (by decide)
  | paramNop slot =>
    have hslot : 2 ≤ slot.toNat := by simpa [Instr.wfWith, BitVec.le_def] using h
    rw [decodeWith_of_two_le_slot (encode_legal h nofun) (by rw [toNat_encode_paramNop]; omega)
      (by rw [toNat_encode_paramNop]; omega), Word.slot_encode_paramNop]
  | noteOn note fine =>
    obtain ⟨hnote, hfine⟩ := Word.fields_encode_noteOn note fine
    rw [decodeWith_of_op_four (encode_legal h nofun) (by rw [toNat_encode_noteOn]; omega), hnote, hfine]
  | noteOff note fine =>
    obtain ⟨hnote, hfine⟩ := Word.fields_encode_noteOff note fine
    rw [decodeWith_of_op_five (encode_legal h nofun) (by rw [toNat_encode_noteOff]; omega), hnote, hfine]
  | illegal w => exact decodeWith_of_illegal h

theorem decodeBytes_wordBytes (w : Word) (rest : List Byte) :
    decodeBytes (wordBytes w ++ rest) = .ok (decode w, rest) := by
  simp [wordBytes, decodeBytes, Word.ofBytes_byte]

/-- Settles O1: each constructor's word is legal, has its OP and holds its fields; a word's bytes make the word. -/
theorem decodeOfEncodeGivesTheCommandBack : Obligations.DecodeOfEncodeGivesTheCommandBack :=
  ⟨fun _ _ => decodeWith_encode, fun i rest h => by rw [decodeBytes_wordBytes, decode, decodeWith_encode h]⟩

/-! ### The word of a word's command -/

/-- A legal word is the word of the command it stands for: the bits no field takes are 0. -/
theorem encode_decodeWith_of_legal {maxFrames : Nat} {w : Word} (h : Word.isIllegal maxFrames w = false) :
    encode (decodeWith maxFrames w) = w ∧ Instr.wfWith maxFrames (decodeWith maxFrames w) = true := by
  have hbits := h
  rw [Bool.eq_false_iff, ne_eq, Word.isIllegal_iff] at hbits
  have hlt := w.isLt
  have hnote := Word.toNat_note w
  have hfine := Word.toNat_fine w
  have hframes := Word.toNat_frames w
  have hslot := Word.toNat_slot w
  rcases Word.op_of_legal h with hop | hop | hop | hop | hop
  · have hword : w.toNat = 1 := by omega
    rw [decodeWith_of_op_one h hop]
    exact ⟨BitVec.eq_of_toNat_eq hword.symm, rfl⟩
  · rw [decodeWith_of_op_two h hop]
    exact ⟨BitVec.eq_of_toNat_eq (by rw [toNat_encode_cycle]; omega), decide_eq_true (by omega)⟩
  · rcases (by omega : w.toNat = 3 ∨ w.toNat = 0x13 ∨ 2 ≤ w.toNat / 16 % 256) with hword | hword | htwo
    · rw [decodeWith_of_slot_zero h hop (by omega)]
      exact ⟨BitVec.eq_of_toNat_eq hword.symm, rfl⟩
    · rw [decodeWith_of_slot_one h hop (by omega)]
      exact ⟨BitVec.eq_of_toNat_eq hword.symm, rfl⟩
    · rw [decodeWith_of_two_le_slot h hop htwo]
      refine ⟨BitVec.eq_of_toNat_eq (by rw [toNat_encode_paramNop]; omega), decide_eq_true ?_⟩
      rw [BitVec.le_def, hslot]
      exact htwo
  · rw [decodeWith_of_op_four h hop]
    exact ⟨BitVec.eq_of_toNat_eq (by rw [toNat_encode_noteOn]; omega), rfl⟩
  · rw [decodeWith_of_op_five h hop]
    exact ⟨BitVec.eq_of_toNat_eq (by rw [toNat_encode_noteOff]; omega), rfl⟩

/-- Settles O2: an illegal word is its own command's word; a legal one is rebuilt from its fields. -/
theorem everyWordIsTheWordOfItsCommand : Obligations.EveryWordIsTheWordOfItsCommand := by
  intro maxFrames w
  cases h : Word.isIllegal maxFrames w
  case false => exact encode_decodeWith_of_legal h
  case true => rw [decodeWith_of_illegal h]; exact ⟨rfl, h⟩

/-- Settles O5: each word is the word of its well-formed command, which the decoder gives back. -/
theorem writtenOutWordsDecode : Obligations.WrittenOutWordsDecode := by
  have hdecode : ∀ i, Instr.wf i = true → decode (encode i) = i := fun _ => decodeWith_encode
  exact ⟨hdecode .init (by decide), hdecode (.cycle 60#8 128#8 4095#12) (by decide), hdecode .paramMorph (by decide),
    hdecode .paramShape (by decide), hdecode (.paramNop 255#8) (by decide), hdecode (.noteOn 60#8 0#8) (by decide),
    hdecode (.noteOff 60#8 0#8) (by decide), hdecode (.illegal 0x00001003#32) (by decide)⟩

end Sys2Proof
end

section
/-! PROOFS. The host's side of a step (30_encoding.md R60, R69, R70; 20_memory.md R47, R53): which agent moves and
what it performs, what an access is refused for, the frames of the commands, and the lines of a host program. -/

namespace Sys2Proof.Machine

/-! ### Which agent moves, and what the step is then -/

theorem stalls_of_idle {s : State} (h : s.busy = false) (op : HostOp) : s.stalls op = false :=
  Bool.eq_false_iff.mpr fun hs => by simp [stalls_busy hs] at h

theorem nextAgent_idle {s : State} {op : HostOp} {ops : List HostOp} (hidle : s.busy = false)
    (hp : s.pending = op :: ops) : s.nextAgent = some (.host, s.turns) := by
  simp [State.nextAgent, hostReady_iff.mpr ⟨op, ops, hp, stalls_of_idle hidle op⟩, hidle]

/-- Where both agents can move, the schedule's head moves. -/
theorem nextAgent_scheduled {s : State} {op : HostOp} {ops : List HostOp} {a : Agent} {rest : List Agent}
    (hbusy : s.busy = true) (hp : s.pending = op :: ops) (hs : s.stalls op = false) (ht : s.turns = a :: rest) :
    s.nextAgent = some (a, rest) := by
  simp [State.nextAgent, hostReady_iff.mpr ⟨op, ops, hp, hs⟩, hbusy, ht]

theorem nextAgent_stalled {s : State} {op : HostOp} {ops : List HostOp} (hp : s.pending = op :: ops)
    (hs : s.stalls op = true) : s.nextAgent = some (.sequencer, s.turns) := by
  simp [State.nextAgent, State.hostReady, hp, hs, stalls_busy hs]

theorem nextAgent_no_access {s : State} (hbusy : s.busy = true) (hp : s.pending = []) :
    s.nextAgent = some (.sequencer, s.turns) := by
  simp [State.nextAgent, State.hostReady, hp, hbusy]

theorem step_of_host {s : State} {rest : List Agent} {op : HostOp} {ops : List HostOp}
    (hn : s.nextAgent = some (.host, rest)) (hp : s.pending = op :: ops) :
    step s = hostOp op { s with turns := rest, pending := ops } := by
  simp [step, hn, agentStep, hostStep, hp]

theorem step_of_sequencer {s : State} {rest : List Agent} (hn : s.nextAgent = some (.sequencer, rest)) :
    step s = sampleStep Config.machine { s with turns := rest } := by
  simp [step, hn, agentStep]

theorem hostOp_cmdWrite (w : Word) (s : State) : hostOp (cmdWrite w) s = exec (decode w) s :=
  (hostOp_write_word s w (by decide) (by decide)).trans (writeReg_offCmd w s)

/-! ### The write of a command word (R60) -/

/-- An idle block performs the host's next access. -/
theorem step_idle {s : State} {op : HostOp} {ops : List HostOp} (hidle : s.busy = false) (hp : s.pending = op :: ops) :
    step s = hostOp op { s with pending := ops } :=
  step_of_host (nextAgent_idle hidle hp) hp

theorem stalls_cmdWrite (s : State) (w : Word) : s.stalls (cmdWrite w) = (s.busy && waitsForIdle (decode w)) := by
  simp [State.stalls, cmdWrite]

theorem waitsForIdle_iff {i : Instr} :
    waitsForIdle i = true ↔ i = .init ∨ ∃ note fine frames, i = .cycle note fine frames := by
  cases i <;> simp [waitsForIdle]

/-- Settles O6: an idle block performs the host's next access, a busy one where the schedule names the host. -/
theorem stepRunsTheDecodedCommand : Obligations.StepRunsTheDecodedCommand := by
  refine ⟨fun s w rest hp hidle => ?idle, fun s w rest turns hp hbusy ht hinit hcycle => ?busy,
    fun s w hidle hw => ?placed⟩
  case idle => rw [step_idle hidle hp, hostOp_cmdWrite]
  case busy =>
    have hgo : waitsForIdle (decode w) = false :=
      Bool.eq_false_iff.mpr fun h => (waitsForIdle_iff.mp h).elim hinit fun ⟨_, _, _, h⟩ => hcycle _ _ _ h
    have hstall : s.stalls (cmdWrite w) = false := by rw [stalls_cmdWrite, hgo, Bool.and_false]
    rw [step_of_host (nextAgent_scheduled hbusy hp hstall ht) hp, hostOp_cmdWrite]
  case placed =>
    have hplace : s.withFetchWord 32 w = { s with pending := cmdWrite (BitVec.ofNat 32 w) :: s.pending } := by
      simp only [State.withFetchWord, State.placeCommand, hidle, Nat.mod_eq_of_lt hw, Bool.false_eq_true, if_false]
    rw [hplace, step_idle (s := { s with pending := cmdWrite (BitVec.ofNat 32 w) :: s.pending }) hidle rfl,
      hostOp_cmdWrite]

/-- INIT or CYCLE on a busy block puts its write back. -/
theorem exec_waiting_busy {i : Instr} {s : State} (hi : waitsForIdle i = true) (hbusy : s.busy = true) :
    exec i s = .next (s.hold i) := by
  rcases waitsForIdle_iff.mp hi with rfl | ⟨note, fine, frames, rfl⟩
  · exact whenIdle_busy hbusy
  · have hlegal : ¬ Config.machine.maxFrames < frames.toNat := Nat.not_lt.mpr (Nat.le_of_lt_succ frames.isLt)
    exact (if_neg hlegal).trans (whenIdle_busy hbusy)

/-- A step in which the host's next access stalls is the sequencer's. -/
theorem step_stalled {s : State} {op : HostOp} {ops : List HostOp} (hp : s.pending = op :: ops)
    (hs : s.stalls op = true) : step s = sampleStep Config.machine s :=
  step_of_sequencer (nextAgent_stalled hp hs)

theorem sampleStep_pending {c : Config} {s t : State} (h : sampleStep c s = .next t) : t.pending = s.pending := by
  rcases sampleStep_cases h with ⟨-, rfl⟩ | ⟨q, -, -, rfl⟩ <;> rfl

/-- Settles O7: a stalled write leaves the step to the sequencer, which does not touch the pending accesses. -/
theorem initAndCycleStallWhileBusy : Obligations.InitAndCycleStallWhileBusy := by
  refine ⟨fun s w rest hp hbusy hw => ?stall, fun s hbusy => ?hold⟩
  case stall =>
    have hstall : s.stalls (cmdWrite w) = true := by rw [stalls_cmdWrite, hbusy, waitsForIdle_iff.mpr hw, Bool.and_true]
    have hstep := step_stalled hp hstall
    exact ⟨hstep, fun t ht => sampleStep_pending (hstep.symm.trans ht)⟩
  case hold => exact ⟨exec_waiting_busy rfl hbusy, fun _ _ _ => exec_waiting_busy rfl hbusy⟩

/-! ### INIT, and the frames of the commands (R20, R112) -/

theorem exec_init_idle {s : State} (h : s.busy = false) : exec .init s = .next (initEffect s) := whenIdle_idle h

theorem initEffect_initEffect (s : State) : initEffect (initEffect s) = initEffect s := rfl

/-- Settles O8: an idle block accepts INIT, and its effect is idempotent. -/
theorem initZeroesTheRegistersAndClearsErr : Obligations.InitZeroesTheRegistersAndClearsErr := by
  intro s hidle
  refine ⟨initEffect s, exec_init_idle hidle, rfl, ?_⟩
  rw [exec_init_idle (s := initEffect s) hidle, initEffect_initEffect]

theorem cycleEffect_frame (c : Config) (note fine : BitVec 8) (frames : BitVec 12) (s : State) :
    let t := cycleEffect c note fine frames s
    t.outbuf = s.outbuf ∧ t.reads = s.reads ∧ t.turns = s.turns ∧ t.powerUps = s.powerUps ∧ t.pending = s.pending := by
  by_cases h : frames = 0#12
  · subst h; exact ⟨rfl, rfl, rfl, rfl, rfl⟩
  · rw [cycleEffect_of_frames_ne_zero c note fine s h]
    exact ⟨rfl, rfl, rfl, rfl, rfl⟩

/-- No command stores to OUTBUF or touches the host's side but the pending accesses. -/
theorem exec_frame {i : Instr} {s t : State} (h : exec i s = .next t) :
    t.outbuf = s.outbuf ∧ t.reads = s.reads ∧ t.turns = s.turns ∧ t.powerUps = s.powerUps := by
  rcases (exec_cases h).2 t rfl with ⟨-, -, rfl⟩ | ⟨note, fine, frames, -, -, rfl⟩ | ⟨-, rfl⟩ | ⟨-, rfl⟩ |
    ⟨w, -, rfl⟩ | ⟨-, rfl⟩ | ⟨-, rfl⟩ | ⟨-, -, rfl⟩
  case inr.inl =>
    obtain ⟨hout, hreads, hturns, hups, -⟩ := cycleEffect_frame Config.machine note fine frames s
    exact ⟨hout, hreads, hturns, hups⟩
  all_goals exact ⟨rfl, rfl, rfl, rfl⟩

/-- Settles O17: the frame of every command, whatever it does. -/
theorem commandsLeaveOutbufAndArgAlone : Obligations.CommandsLeaveOutbufAndArgAlone := by
  intro i s t h
  obtain ⟨hout, hreads, hturns, hups⟩ := exec_frame h
  exact ⟨fun a => by rw [hout], (exec_flags h).2.2, hreads, hturns, hups⟩

/-- Settles O18: each effect is an update of its own registers; the flags over a command are `exec_flags`. -/
theorem commandsWriteOnlyTheirRegisters : Obligations.CommandsWriteOnlyTheirRegisters := by
  refine ⟨fun s t h => ?morph, fun s t h => ?shape, fun s t hidle h => ?init,
    fun note fine frames s t hidle h => ?cycle, fun i s t h hinit hill => ?err, fun i s t h hcycle => ?cyc⟩
  case morph => cases h; rfl
  case shape => cases h; rfl
  case init =>
    rw [exec_init_idle hidle] at h
    cases h
    exact ⟨by simpa [State.busy] using hidle, rfl, rfl, rfl, rfl⟩
  case cycle =>
    rw [exec_cycle_idle hidle] at h
    cases h
    obtain ⟨hout, -, -, -, hpending⟩ := cycleEffect_frame Config.machine note fine frames s
    obtain ⟨inc, target, hosc⟩ := cycleEffect_osc Config.machine note fine frames s
    rw [hosc]
    exact ⟨rfl, rfl, rfl, rfl, (cycleEffect_flags Config.machine note fine frames s).2.1, hout, hpending⟩
  case err =>
    rcases (exec_flags h).2.1 with herr | ⟨-, hi⟩ | ⟨-, w, hi⟩
    · exact herr
    · exact absurd hi hinit
    · exact absurd hi (hill w)
  case cyc =>
    rcases (exec_flags h).1 with hcyc | ⟨-, note, fine, frames, hi⟩
    · exact hcyc
    · exact absurd hi (hcycle note fine frames)

/-! ### Refused accesses (R47) -/

theorem accessCheck_not_word {size : AccessSize} {o : Nat} (h : size ≠ .word ∨ o % 4 ≠ 0) :
    accessCheck size o = some (.notAlignedWord size o) := if_neg (by tauto)

theorem accessCheck_outside {o : Nat} (halign : o % 4 = 0) (hout : windowBytes ≤ o) :
    accessCheck .word o = some (.outsideWindow o) := by
  rw [accessCheck, if_pos ⟨rfl, halign⟩, if_neg (by omega)]

theorem undefined_of_accessCheck {size : AccessSize} {o : Nat} {r : Refusal} (h : accessCheck size o = some r) :
    size ≠ .word ∨ o % 4 ≠ 0 ∨ windowBytes ≤ o := by
  by_contra hdef
  simp only [not_or, not_not, not_le] at hdef
  obtain ⟨rfl, halign, hin⟩ := hdef
  rw [accessCheck_word halign hin] at h
  cases h

/-- Every command answers a next state. -/
theorem exec_next (i : Instr) (s : State) : ∃ t, exec i s = .next t := (exec_cases rfl).1

theorem writeReg_next (o : Nat) (w : Word) (s : State) : ∃ t, writeReg o w s = .next t := by
  by_cases hcmd : o = offCmd
  · subst hcmd; rw [writeReg_offCmd]; exact exec_next _ s
  · by_cases harg : o = offArg
    · subst harg; exact ⟨_, writeReg_offArg w s⟩
    · exact ⟨_, writeReg_ignored w s hcmd harg⟩

/-- A host operation answers a next state, or it is an access the block does not define and is refused. -/
theorem hostOp_next_or_refused (op : HostOp) (s : State) :
    (∃ t, hostOp op s = .next t) ∨
    ∃ size o r, (op = .read size o ∨ ∃ w, op = .write size o w) ∧ accessCheck size o = some r ∧
      hostOp op s = .refused r := by
  cases op with
  | write size o w =>
    cases hc : accessCheck size o with
    | none => simpa only [hostOp, hc] using .inl (writeReg_next o w s)
    | some r => exact .inr ⟨size, o, r, .inr ⟨w, rfl⟩, hc, by simp only [hostOp, hc]⟩
  | read size o =>
    cases hc : accessCheck size o with
    | none => exact .inl ⟨s.logRead Config.machine o, by simp only [hostOp, hc]⟩
    | some r => exact .inr ⟨size, o, r, .inl rfl, hc, by simp only [hostOp, hc]⟩
  | wait => exact .inl ⟨_, rfl⟩
  | powerOn => exact .inl ⟨_, rfl⟩

/-- A sample step with C.i in OUTBUF, or of an idle sequencer, answers a next state. -/
theorem sampleStep_answers {c : Config} {s : State} (h : ∀ q, s.cyc = some q → q.index < c.maxFrames) :
    ∃ t, sampleStep c s = .next t := by
  cases hq : s.cyc with
  | none => exact ⟨s, sampleStep_of_cyc_eq_none hq⟩
  | some q => exact ⟨_, sampleStep_next hq (h q hq)⟩

theorem sampleStep_not_refused (c : Config) (s : State) (r : Refusal) : sampleStep c s ≠ .refused r := by
  unfold sampleStep
  split
  · nofun
  · split <;> nofun

/-- Settles O51: the check of an access, and that a step is refused only by its host operation. -/
theorem onlyUndefinedAccessesAreRefused : Obligations.OnlyUndefinedAccessesAreRefused := by
  refine ⟨fun s size o w h => ?narrow, fun s o w halign hout => ?outside, fun s r h => ?only⟩
  case narrow => simp only [hostOp, accessCheck_not_word h, and_self]
  case outside => simp only [hostOp, accessCheck_outside halign hout, and_self]
  case only =>
    rcases step_outcome s with ⟨-, hs⟩ | ⟨rest, -, hs⟩ | ⟨rest, op, ops, -, hp, -, hs⟩ <;> rw [hs] at h
    · cases h
    · exact absurd h (sampleStep_not_refused _ _ r)
    · rcases hostOp_next_or_refused op { s with turns := rest, pending := ops } with ⟨t, ht⟩ |
        ⟨size, o, r', hop, hcheck, -⟩
      · simp [ht] at h
      · refine ⟨size, o, ops, ?_, undefined_of_accessCheck hcheck⟩
        rw [hp]
        exact hop.imp (congrArg (· :: ops)) fun ⟨w, hw⟩ => ⟨w, congrArg (· :: ops) hw⟩

/-! ### The lines of a host program (R69, R70) -/

theorem decode_paramWord {slot : BitVec 8} (h : 2#8 ≤ slot) : decode (paramWord slot) = .paramNop slot :=
  decodeWith_encode (i := .paramNop slot) (decide_eq_true h)

/-- One poll of WAIT records STATUS; it stays pending while BUSY = 1. -/
theorem hostOp_wait (s : State) :
    hostOp .wait s = .next { s with
      reads := ⟨offStatus, s.status⟩ :: s.reads
      pending := if s.busy then .wait :: s.pending else s.pending } := by
  cases hb : s.busy <;> simp [hostOp, pollStatus, hb] <;> rfl

/-- Settles O53: the expansions are the assembler's definition; the PARAM words decode to their commands; WAIT's poll
tests BUSY, which is STATUS bit 0. -/
theorem assemblerExpansions : Obligations.AssemblerExpansions := by
  refine ⟨fun _ _ _ _ => rfl, fun _ _ => rfl, fun _ => ⟨rfl, rfl⟩, fun _ _ _ _ => rfl, rfl, fun _ _ => ⟨rfl, rfl⟩,
    fun _ _ => ⟨rfl, rfl⟩, rfl, fun slot => ⟨decode_paramWord, ?morph, ?shape⟩, ⟨rfl, fun _ _ => rfl⟩, fun s => ?wait⟩
  case morph => rintro rfl; exact decodeWith_encode (i := .paramMorph) rfl
  case shape => rintro rfl; exact decodeWith_encode (i := .paramShape) rfl
  case wait =>
    rw [State.status_getLsbD_zero, hostOp_wait]
    exact ⟨fun h => by simp [h, offStatus], fun h => by simp [h, offStatus]⟩

/-! ### Reset and idleness (R131, R132) -/

/-- Settles O54: the fields of the reset state, which a power-on gives the block too. -/
theorem powerOnResetState : Obligations.PowerOnResetState := by
  have hstatus : State.reset.status = 0x00000000#32 := by decide
  exact ⟨rfl, hstatus, rfl, rfl, fun _ _ => rfl, fun _ => ⟨rfl, rfl, hstatus, rfl, rfl, rfl⟩⟩

/-- Settles O55: with no access left and no CYCLE in flight, neither agent can move. -/
theorem idleBlockChangesNothing : Obligations.IdleBlockChangesNothing := by
  intro s hidle hp
  have hn : s.nextAgent = none := by simp [State.nextAgent, State.hostReady, hp, hidle]
  rw [step, hn]

end Sys2Proof.Machine
end

section
/-! PROOFS. OUTBUF's storage and the state invariant (20_memory.md R42, R43, R48; 10_state.md R29; 60_exceptions.md
R120): a stored word reads back, every step keeps the invariant, and under it no step faults. -/

namespace Sys2Proof

/-- Byte k of a word in numbers. -/
theorem Word.toNat_byte (w : Word) (k : Nat) : (Word.byte w k).toNat = w.toNat / 2 ^ (8 * k) % 256 := by
  simp [Word.byte, BitVec.extractLsb'_toNat, Nat.shiftRight_eq_div_pow]

theorem toNat_pos_of_ne_zero {n : Nat} {x : BitVec n} (h : x ≠ 0#n) : 0 < x.toNat :=
  Nat.pos_of_ne_zero fun h0 => h (BitVec.eq_of_toNat_eq h0)

namespace Machine

/-! ### OutWrite, then a load -/

/-- Byte k of word j of OUTBUF after OutWrite(i, w). -/
theorem read_outWrite_byte (m : Memory) (w : Word) (i j : Nat) {k : Nat} (hk : k < 4) :
    Memory.read (outWrite m i w) (outbufOffset j + k) =
      if j = i then some (Word.byte w k) else Memory.read m (outbufOffset j + k) := by
  rw [read_outWrite]
  by_cases hj : j = i
  · subst hj
    rw [if_pos (by omega), if_pos rfl, Nat.add_sub_cancel_left]
  · rw [if_neg (by simp only [outbufOffset]; omega), if_neg hj]

theorem read_outWrite_outside (m : Memory) (w : Word) {i a : Nat} (h : a < outbufOffset i ∨ outbufOffset i + 4 ≤ a) :
    Memory.read (outWrite m i w) a = Memory.read m a := by
  rw [read_outWrite, if_neg (by omega)]

/-- OUTBUF[j] is read from its own four bytes. -/
theorem State.outWord_congr {c : Config} {s t : State} {j : Nat} (hups : t.powerUps = s.powerUps)
    (hbytes : ∀ k < 4, Memory.read t.outbuf (outbufOffset j + k) = Memory.read s.outbuf (outbufOffset j + k)) :
    t.outWord c j = s.outWord c j := by
  have h0 := hbytes 0 (by decide)
  rw [Nat.add_zero] at h0
  simp only [State.outWord, Memory.readWord, hups, h0, hbytes 1 (by decide), hbytes 2 (by decide), hbytes 3 (by decide)]

theorem State.outWord_of_outWrite {c : Config} {s t : State} {i : Nat} {w : Word}
    (h : t.outbuf = outWrite s.outbuf i w) : t.outWord c i = w := by
  rw [State.outWord, h]
  exact Memory.readWord_writeWord _ _ _ _

theorem State.outWord_of_outWrite_other {c : Config} {s t : State} {i j : Nat} {w : Word}
    (h : t.outbuf = outWrite s.outbuf i w) (hups : t.powerUps = s.powerUps) (hj : j ≠ i) :
    t.outWord c j = s.outWord c j :=
  State.outWord_congr hups fun k hk => by rw [h, read_outWrite_byte _ _ _ _ hk, if_neg hj]

/-- Settles O52: the bytes after OutWrite, word by word. -/
theorem outbufStoreThenLoad : Obligations.OutbufStoreThenLoad := by
  intro c s i w hwf
  refine ⟨wf_outWrite hwf i w, State.outWord_of_outWrite rfl, fun j hj => State.outWord_of_outWrite_other rfl rfl hj,
    fun k hk => ?_, fun a ha => read_outWrite_outside _ _ ha⟩
  have hbyte := read_outWrite_byte s.outbuf w i i hk
  rw [if_pos rfl] at hbyte
  rw [← Word.toNat_byte]
  exact congrArg _ hbyte

/-! ### What a step does to OUTBUF and the CYCLE in flight -/

/-- A command leaves the CYCLE in flight alone, or it starts one of 1 to MAX_FRAMES frames. -/
theorem exec_cyc {i : Instr} {s t : State} (h : exec i s = .next t) :
    t.cyc = s.cyc ∨ ∃ frames d, 0 < frames ∧ frames ≤ Config.machine.maxFrames ∧ t.cyc = some ⟨frames, 0, d⟩ := by
  rcases (exec_cases h).2 t rfl with ⟨-, -, rfl⟩ | ⟨note, fine, frames, -, -, rfl⟩ | ⟨-, rfl⟩ | ⟨-, rfl⟩ |
    ⟨w, -, rfl⟩ | ⟨-, rfl⟩ | ⟨-, rfl⟩ | ⟨-, -, rfl⟩
  case inr.inl =>
    by_cases hz : frames = 0#12
    · subst hz; exact .inl rfl
    · rw [cycleEffect_of_frames_ne_zero _ _ _ _ hz]
      exact .inr ⟨_, _, toNat_pos_of_ne_zero hz, Nat.le_of_lt_succ frames.isLt, rfl⟩
  all_goals exact .inl rfl

@[simp] theorem pollStatus_outbuf (c : Config) (s : State) : (pollStatus c s).outbuf = s.outbuf := by
  unfold pollStatus; split <;> rfl

/-- What one step does to OUTBUF and the CYCLE in flight: a sample step, a power-on, or no store, with the CYCLE in
flight kept or one of 1 to MAX_FRAMES frames started. -/
theorem step_storage {s t : State} (h : step s = .next t) :
    (∃ q rest, s.cyc = some q ∧ t = ({ s with turns := rest } : State).afterSample Config.machine q) ∨
    (∃ u : State, t = u.powerOn) ∨
    (t.outbuf = s.outbuf ∧ (t.cyc = s.cyc ∨
      ∃ frames d, 0 < frames ∧ frames ≤ Config.machine.maxFrames ∧ t.cyc = some ⟨frames, 0, d⟩)) := by
  rcases step_cases h with ⟨-, -, rfl⟩ | ⟨rest, q, -, hq, -, ht⟩ | ⟨rest, op, ops, -, -, -, hop⟩
  · exact .inr (.inr ⟨rfl, .inl rfl⟩)
  · exact .inl ⟨q, rest, hq, ht⟩
  · rcases hostOp_cases hop with ⟨w, -, hexec⟩ | ⟨w, -, rfl⟩ | ⟨o, w, -, -, -, rfl⟩ | ⟨o, -, rfl⟩ | ⟨-, rfl⟩ | ⟨-, rfl⟩
    · have hcyc := exec_cyc hexec
      exact .inr (.inr ⟨(exec_frame hexec).1, hcyc⟩)
    · exact .inr (.inr ⟨rfl, .inl rfl⟩)
    · exact .inr (.inr ⟨rfl, .inl rfl⟩)
    · exact .inr (.inr ⟨rfl, .inl rfl⟩)
    · exact .inr (.inr ⟨by simp, .inl (by simp)⟩)
    · exact .inr (.inl ⟨_, rfl⟩)

/-! ### The state invariant -/

/-- An idle block with nothing written to OUTBUF meets the invariant. -/
theorem State.inv_of_empty {s : State} (hout : s.outbuf = []) (hcyc : s.cyc = none) : s.Inv where
  canonical := by rw [hout]; exact Memory.wf_nil
  inBuffer a h := by simp [hout] at h
  wholeWord i k _ h := by simp [hout] at h
  inFlight q h := by simp [hcyc] at h
  produced q h := by simp [hcyc] at h

/-- The invariant speaks of OUTBUF and the CYCLE in flight alone. -/
theorem State.Inv.congr {s t : State} (hinv : s.Inv) (hout : t.outbuf = s.outbuf) (hcyc : t.cyc = s.cyc) : t.Inv := by
  obtain ⟨hwf, hin, hwhole, hflight, hproduced⟩ := hinv
  simp only [← hout, ← hcyc, State.wordWritten] at hwf hin hwhole hflight hproduced
  exact ⟨hwf, hin, hwhole, hflight, hproduced⟩

/-- A CYCLE that starts has no word to have written yet. -/
theorem State.Inv.start {s t : State} {frames : Nat} {d : F32} (hinv : s.Inv) (hout : t.outbuf = s.outbuf)
    (hcyc : t.cyc = some ⟨frames, 0, d⟩) (hpos : 0 < frames) (hmax : frames ≤ Config.machine.maxFrames) : t.Inv := by
  obtain ⟨hwf, hin, hwhole, -, -⟩ := hinv
  simp only [← hout, State.wordWritten] at hwf hin hwhole
  refine ⟨hwf, hin, hwhole, fun q hq => ?_, fun q hq i hi => ?_⟩ <;> obtain rfl := Option.some.inj (hcyc.symm.trans hq)
  · exact ⟨hpos, hmax⟩
  · exact absurd hi (Nat.not_lt_zero i)

section
variable {s t : State} {i : Nat} {w : Word} (hout : t.outbuf = outWrite s.outbuf i w)
include hout

theorem State.wordWritten_self_of_outWrite : t.wordWritten i := fun k hk => by
  rw [hout, read_outWrite_byte _ _ _ _ hk, if_pos rfl, Option.isSome_some]

theorem State.wordWritten_of_outWrite {j : Nat} (h : s.wordWritten j) : t.wordWritten j := fun k hk => by
  rw [hout, read_outWrite_byte _ _ _ _ hk]
  split
  · exact Option.isSome_some
  · exact h k hk

/-- OutWrite inside OUTBUF keeps the storage clauses of the invariant. -/
theorem State.Inv.storage_of_outWrite (hinv : s.Inv) (hi : i < Config.machine.maxFrames) :
    Memory.wf t.outbuf ∧
    (∀ a, (Memory.read t.outbuf a).isSome = true → offOutbuf ≤ a ∧ a < outbufOffset Config.machine.maxFrames) ∧
    ∀ j k, k < 4 → (Memory.read t.outbuf (outbufOffset j + k)).isSome = true → t.wordWritten j := by
  refine ⟨by rw [hout]; exact wf_outWrite hinv.canonical i w, fun a ha => ?inBuffer, fun j k hk hread => ?wholeWord⟩
  case inBuffer =>
    by_cases hin : outbufOffset i ≤ a ∧ a < outbufOffset i + 4
    · simp only [outbufOffset] at hin ⊢; omega
    · rw [hout, read_outWrite, if_neg hin] at ha
      exact hinv.inBuffer a ha
  case wholeWord =>
    by_cases hj : j = i
    · subst hj; exact State.wordWritten_self_of_outWrite hout
    · rw [hout, read_outWrite_byte _ _ _ _ hk, if_neg hj] at hread
      exact State.wordWritten_of_outWrite hout (hinv.wholeWord j k hk hread)

end

theorem InFlight.advance_eq_some_iff {q r : InFlight} :
    q.advance = some r ↔ q.index + 1 ≠ q.frames ∧ r = { q with index := q.index + 1 } := by
  unfold InFlight.advance
  split
  case isTrue h => simp [h]
  case isFalse h => simp [h, eq_comm]

/-- A sample step writes the word at C.i and raises C.i by one, or ends the CYCLE. -/
theorem State.Inv.afterSample {s : State} {q : InFlight} (hinv : s.Inv) (hq : s.cyc = some q) :
    (s.afterSample Config.machine q).Inv := by
  obtain ⟨hlt, hmax⟩ := hinv.inFlight q hq
  have hout := State.afterSample_outbuf Config.machine s q
  obtain ⟨hwf, hin, hwhole⟩ := hinv.storage_of_outWrite hout (by omega)
  refine ⟨hwf, hin, hwhole, fun r hr => ?inFlight, fun r hr i hi => ?produced⟩ <;>
    obtain ⟨hne, rfl⟩ := InFlight.advance_eq_some_iff.mp hr
  case inFlight => exact ⟨by dsimp only; omega, hmax⟩
  case produced =>
    rcases Nat.lt_succ_iff_lt_or_eq.mp hi with hbelow | rfl
    · exact State.wordWritten_of_outWrite hout (hinv.produced q hq i hbelow)
    · exact State.wordWritten_self_of_outWrite hout

/-- Settles O57: a sample step writes its word whole, a power-on empties OUTBUF, and no other step stores. -/
theorem everyStepKeepsTheStateInvariant : Obligations.EveryStepKeepsTheStateInvariant := by
  intro s t hinv h
  rcases step_storage h with ⟨q, rest, hq, rfl⟩ | ⟨u, rfl⟩ | ⟨hout, hcyc | ⟨frames, d, hpos, hmax, hcyc⟩⟩
  · exact (hinv.congr (t := { s with turns := rest }) rfl rfl).afterSample hq
  · exact State.inv_of_empty rfl rfl
  · exact hinv.congr hout hcyc
  · exact hinv.start hout hcyc hpos hmax

theorem State.Inv.index_lt {s : State} {q : InFlight} (hinv : s.Inv) (hq : s.cyc = some q) :
    q.index < Config.machine.maxFrames := by
  obtain ⟨hlt, hmax⟩ := hinv.inFlight q hq
  omega

/-- Settles O58: only a sample step whose C.i is no index of OUTBUF faults. -/
theorem noStepFaults : Obligations.NoStepFaults := by
  intro s r hinv h
  rcases step_outcome s with ⟨-, hs⟩ | ⟨rest, -, hs⟩ | ⟨rest, op, ops, -, -, -, hs⟩ <;> rw [hs] at h
  · cases h
  · obtain ⟨t, ht⟩ := sampleStep_answers (c := Config.machine) (s := { s with turns := rest }) fun q => hinv.index_lt
    simp [ht] at h
  · rcases hostOp_next_or_refused op { s with turns := rest, pending := ops } with ⟨t, ht⟩ | ⟨_, _, _, -, -, ht⟩ <;>
      simp [ht] at h

end Machine
end Sys2Proof
end

section
/-! PROOFS. The four operations of 00_scope.md R11: one equation for the finite operands of each, from which correct
rounding follows, and one for each case with a NaN, an infinity or a zero divisor. -/

namespace Sys2Proof

/-! ### Rounding once -/

theorem F32.magUnits_zero : F32.magUnits 0 = 0 := rfl

theorem F32.roundMag_zero {den : Nat} (hd : 0 < den) : F32.roundMag 0 den = 0 := by
  have h := F32.roundMag_exact (m := 0) hd (Nat.zero_le _)
  rwa [F32.magUnits_zero, Nat.zero_mul] at h

/-- The rounded magnitude with a sign that is the exact value's, unless that is zero, is the value correctly rounded. -/
theorem F32.roundsTo_of_sign {s : Bool} {num : Int} {den : Nat} (hd : 0 < den) (hs : num ≠ 0 → s = decide (num < 0)) :
    F32.RoundsTo num den (F32.pack s (F32.roundMag num.natAbs den)) := by
  by_cases hnum : num = 0
  · subst hnum
    rw [Int.natAbs_zero, F32.roundMag_zero hd]
    exact F32.roundsTo_zero s hd
  · rw [hs hnum]
    exact F32.roundsTo_pack hd hnum

theorem F32.natAbs_val_eq_units (x : F32) : (F32.val x).natAbs = F32.units x := by
  rw [F32.natAbs_val, F32.units_eq]

/-- A value that is not zero has its pattern's sign. -/
theorem F32.sign_eq_decide_val_neg {x : F32} (h : F32.val x ≠ 0) : F32.sign x = decide (F32.val x < 0) := by
  rcases lt_or_gt_of_ne h with hneg | hpos
  · rw [(F32.sign_units_of_val_neg hneg).1, decide_eq_true hneg]
  · rw [(F32.sign_units_of_val_pos hpos).1, decide_eq_false hpos.not_gt]

/-- The sign of a product of integers other than zero. -/
theorem decide_mul_neg {m n : Int} (hm : m ≠ 0) (hn : n ≠ 0) :
    decide (m * n < 0) = (decide (m < 0) != decide (n < 0)) := by
  rw [Bool.eq_iff_iff]
  simp only [decide_eq_true_eq, mul_neg_iff, bne_iff_ne, ne_eq, decide_eq_decide]
  omega

/-! ### Finite operands -/

section
variable {p : NaNPattern} {a b : F32} (ha : F32.isFinite a = true) (hb : F32.isFinite b = true)
include ha hb

theorem F32.mul_finite : F32.mul p a b =
    F32.pack (F32.sign a != F32.sign b) (F32.roundMag (F32.units a * F32.units b) (2 ^ 149)) := by
  simp [F32.mul, F32.mul?, F32.not_nan_of_finite ha, F32.not_nan_of_finite hb, F32.not_inf_of_finite ha,
    F32.not_inf_of_finite hb]

theorem F32.div?_finite : F32.div? a b =
    if F32.units b = 0 then
      if F32.units a = 0 then none else some (F32.pack (F32.sign a != F32.sign b) F32.infMag)
    else some (F32.pack (F32.sign a != F32.sign b) (F32.roundMag (F32.units a * 2 ^ 149) (F32.units b))) := by
  simp [F32.div?, F32.not_nan_of_finite ha, F32.not_nan_of_finite hb, F32.not_inf_of_finite ha,
    F32.not_inf_of_finite hb]

theorem F32.roundsTo_add : F32.RoundsTo (F32.val a + F32.val b) 1 (F32.add p a b) := by
  rw [F32.add_finite ha hb]
  exact F32.roundsTo_ofUnits _ _

theorem F32.roundsTo_sub : F32.RoundsTo (F32.val a - F32.val b) 1 (F32.sub p a b) := by
  rw [F32.sub_finite ha hb]
  exact F32.roundsTo_ofUnits _ _

theorem F32.roundsTo_mul : F32.RoundsTo (F32.val a * F32.val b) (2 ^ 149) (F32.mul p a b) := by
  rw [F32.mul_finite ha hb, ← F32.natAbs_val_eq_units, ← F32.natAbs_val_eq_units, ← Int.natAbs_mul]
  refine F32.roundsTo_of_sign (by positivity) fun hne => ?_
  obtain ⟨hane, hbne⟩ := mul_ne_zero_iff.mp hne
  rw [F32.sign_eq_decide_val_neg hane, F32.sign_eq_decide_val_neg hbne, decide_mul_neg hane hbne]

theorem F32.div_finite_of_val_ne_zero (hbne : F32.val b ≠ 0) : F32.div p a b =
    F32.pack (F32.sign a != F32.sign b) (F32.roundMag (F32.units a * 2 ^ 149) (F32.units b)) := by
  rw [F32.div, F32.div?_finite ha hb, if_neg (by rwa [F32.units_eq_zero_iff]), Option.getD_some]

theorem F32.roundsTo_div (hbne : F32.val b ≠ 0) :
    F32.RoundsTo (F32.val a * 2 ^ 149 * (F32.val b).sign) (F32.val b).natAbs (F32.div p a b) := by
  have habs : F32.units a * 2 ^ 149 = (F32.val a * 2 ^ 149 * (F32.val b).sign).natAbs := by
    rw [Int.natAbs_mul, Int.natAbs_sign_of_ne_zero hbne, mul_one, Int.natAbs_mul, F32.natAbs_val_eq_units]
    rfl
  have hsign : decide ((F32.val b).sign < 0) = decide (F32.val b < 0) := by simp
  rw [F32.div_finite_of_val_ne_zero ha hb hbne, habs, ← F32.natAbs_val_eq_units b]
  refine F32.roundsTo_of_sign (Int.natAbs_pos.mpr hbne) fun hne => ?_
  obtain ⟨hpow, hsne⟩ := mul_ne_zero_iff.mp hne
  have hane := left_ne_zero_of_mul hpow
  have hscale : F32.val a * 2 ^ 149 < 0 ↔ F32.val a < 0 := by omega
  rw [decide_mul_neg hpow hsne, hsign, F32.sign_eq_decide_val_neg hane, F32.sign_eq_decide_val_neg hbne,
    decide_eq_decide.mpr hscale]

theorem F32.add_of_val_add_eq_zero (h : F32.val a + F32.val b = 0) :
    F32.add p a b = if F32.sign a && F32.sign b then 0x80000000#32 else 0x00000000#32 := by
  rw [F32.add_finite ha hb, h]
  cases F32.sign a && F32.sign b <;> rfl

theorem F32.div_zero_zero (hbz : F32.val b = 0) (haz : F32.val a = 0) : F32.div p a b = p.bits := by
  rw [F32.div, F32.div?_finite ha hb, if_pos ((F32.units_eq_zero_iff b).mpr hbz),
    if_pos ((F32.units_eq_zero_iff a).mpr haz), Option.getD_none]

theorem F32.div_zero (hbz : F32.val b = 0) (hane : F32.val a ≠ 0) :
    F32.div p a b = F32.pack (F32.sign a != F32.sign b) F32.infMag := by
  rw [F32.div, F32.div?_finite ha hb, if_pos ((F32.units_eq_zero_iff b).mpr hbz),
    if_neg (by rwa [F32.units_eq_zero_iff]), Option.getD_some]

end

/-! ### NaN operands and infinities -/

theorem F32.isInf_pack_infMag (s : Bool) : F32.isInf (F32.pack s F32.infMag) = true := by
  rw [F32.isInf_iff, F32.mag_pack (by decide)]

/-- An operation with a NaN operand gives its draw. -/
theorem F32.op_nan {p : NaNPattern} {a b : F32} (h : F32.isNaN a = true ∨ F32.isNaN b = true) :
    F32.add p a b = p.bits ∧ F32.sub p a b = p.bits ∧ F32.mul p a b = p.bits ∧ F32.div p a b = p.bits := by
  have hor : (F32.isNaN a || F32.isNaN b) = true := by rwa [Bool.or_eq_true]
  simp [F32.add, F32.add?, F32.sub, F32.isNaN_neg, F32.mul, F32.mul?, F32.div, F32.div?, hor]

theorem F32.units_ne_zero_of_inf {a : F32} (h : F32.isInf a = true) : F32.units a ≠ 0 := by
  rw [F32.units_eq, (F32.isInf_iff a).mp h, F32.magUnits_infMag]
  decide

section
variable {p : NaNPattern} {a b : F32} (ha : F32.isInf a = true) (hb : F32.isInf b = true)
include ha hb

theorem F32.add_inf_inf : F32.add p a b = if F32.sign a = F32.sign b then a else p.bits := by
  by_cases hs : F32.sign a = F32.sign b <;>
    simp [F32.add, F32.add?, F32.not_nan_of_inf ha, F32.not_nan_of_inf hb, ha, hb, hs]

theorem F32.sub_inf_inf : F32.sub p a b = if F32.sign a = F32.sign b then p.bits else a := by
  rw [F32.sub, F32.add_inf_inf ha (by rwa [F32.isInf_neg]), F32.sign_neg]
  cases F32.sign a <;> cases F32.sign b <;> rfl

theorem F32.mul_inf_inf : F32.mul p a b = F32.pack (F32.sign a != F32.sign b) F32.infMag := by
  simp [F32.mul, F32.mul?, F32.not_nan_of_inf ha, F32.not_nan_of_inf hb, ha, hb, F32.units_ne_zero_of_inf]

theorem F32.div_inf_inf : F32.div p a b = p.bits := by
  simp [F32.div, F32.div?, F32.not_nan_of_inf ha, F32.not_nan_of_inf hb, ha, hb]

end

section
variable {p : NaNPattern} {a b : F32} (ha : F32.isInf a = true) (hb : F32.isFinite b = true)
include ha hb

theorem F32.add_inf_finite : F32.add p a b = a ∧ F32.add p b a = a := by
  simp [F32.add, F32.add?, F32.not_nan_of_inf ha, F32.not_nan_of_finite hb, ha, F32.not_inf_of_finite hb]

theorem F32.sub_inf_finite : F32.sub p a b = a ∧ F32.sub p b a = F32.neg a :=
  ⟨(F32.add_inf_finite ha (by rwa [F32.isFinite_neg])).1, (F32.add_inf_finite (by rwa [F32.isInf_neg]) hb).2⟩

/-- An infinity times a zero is invalid; times another finite value it is an infinity. -/
theorem F32.mul_inf_finite :
    F32.mul p a b = (if F32.val b = 0 then p.bits else F32.pack (F32.sign a != F32.sign b) F32.infMag) ∧
    F32.mul p b a = (if F32.val b = 0 then p.bits else F32.pack (F32.sign b != F32.sign a) F32.infMag) := by
  have hane := F32.units_ne_zero_of_inf ha
  have hunits := F32.units_eq_zero_iff b
  by_cases hz : F32.val b = 0
  · simp [F32.mul, F32.mul?, F32.not_nan_of_inf ha, F32.not_nan_of_finite hb, ha, hunits, hz]
  · simp [F32.mul, F32.mul?, F32.not_nan_of_inf ha, F32.not_nan_of_finite hb, ha, hane, hunits, hz]

theorem F32.div_inf_finite :
    F32.div p a b = F32.pack (F32.sign a != F32.sign b) F32.infMag ∧
    F32.div p b a = F32.pack (F32.sign b != F32.sign a) 0 := by
  simp [F32.div, F32.div?, F32.not_nan_of_inf ha, F32.not_nan_of_finite hb, ha, F32.not_inf_of_finite hb]

end

/-! ### The sign of a product and of a quotient -/

theorem F32.sign_of_mem_mul? {a b r : F32} (h : r ∈ F32.mul? a b) : F32.sign r = (F32.sign a ^^ F32.sign b) := by
  have hround : F32.roundMag (F32.units a * F32.units b) (2 ^ 149) < 2 ^ 31 :=
    (F32.roundMag_le_inf _ _).trans_lt (by decide)
  unfold F32.mul? at h
  split_ifs at h <;> cases h
  · exact F32.sign_pack (by decide)
  · exact F32.sign_pack hround

theorem F32.sign_of_mem_div? {a b r : F32} (h : r ∈ F32.div? a b) : F32.sign r = (F32.sign a ^^ F32.sign b) := by
  have hround : F32.roundMag (F32.units a * 2 ^ 149) (F32.units b) < 2 ^ 31 :=
    (F32.roundMag_le_inf _ _).trans_lt (by decide)
  unfold F32.div? at h
  split_ifs at h <;> cases h
  · exact F32.sign_pack (by decide)
  · exact F32.sign_pack (by decide)
  · exact F32.sign_pack (by decide)
  · exact F32.sign_pack hround

/-- A result that is no NaN is no draw. -/
theorem F32.getD_mem_of_not_nan {o : Option F32} {p : NaNPattern} (h : F32.isNaN (o.getD p.bits) = false) :
    o.getD p.bits ∈ o := by
  cases o with
  | none => simp [NaNPattern.isNaN_bits] at h
  | some r => rfl

/-- Settles O21: finite operands by their equation and correct rounding; NaN, infinite and zero ones case by case. -/
theorem arithmeticIsCorrectlyRounded : Obligations.ArithmeticIsCorrectlyRounded := by
  refine ⟨fun p a b ha hb => ⟨F32.roundsTo_add ha hb, F32.roundsTo_sub ha hb, F32.roundsTo_mul ha hb,
      F32.roundsTo_div ha hb, F32.add_of_val_add_eq_zero ha hb, fun hbz haz => ?zeroByZero, fun hbz hane => ?byZero⟩,
    fun p a b h => ?nan, fun p a b ha hb => ?infinite, fun p a b ha hb => ?mixed,
    fun p a b => ⟨fun h => F32.sign_of_mem_mul? (F32.getD_mem_of_not_nan h),
      fun h => F32.sign_of_mem_div? (F32.getD_mem_of_not_nan h)⟩⟩
  case zeroByZero => rw [F32.div_zero_zero ha hb hbz haz]; exact p.isNaN_bits
  case byZero => rw [F32.div_zero ha hb hbz hane]; exact F32.isInf_pack_infMag _
  case nan =>
    obtain ⟨hadd, hsub, hmul, hdiv⟩ := F32.op_nan (p := p) h
    rw [hadd, hsub, hmul, hdiv]
    exact ⟨p.isNaN_bits, p.isNaN_bits, p.isNaN_bits, p.isNaN_bits⟩
  case infinite =>
    rw [F32.add_inf_inf ha hb, F32.sub_inf_inf ha hb, F32.mul_inf_inf ha hb, F32.div_inf_inf ha hb]
    refine ⟨fun hs => ?_, fun hs => ?_, F32.isInf_pack_infMag _, p.isNaN_bits⟩
    · rw [if_pos hs, if_pos hs]; exact ⟨rfl, p.isNaN_bits⟩
    · rw [if_neg hs, if_neg hs]; exact ⟨p.isNaN_bits, rfl⟩
  case mixed =>
    obtain ⟨haddL, haddR⟩ := F32.add_inf_finite (p := p) ha hb
    obtain ⟨hsubL, hsubR⟩ := F32.sub_inf_finite (p := p) ha hb
    obtain ⟨hmulL, hmulR⟩ := F32.mul_inf_finite (p := p) ha hb
    obtain ⟨hdivL, hdivR⟩ := F32.div_inf_finite (p := p) ha hb
    rw [hmulL, hmulR, hdivL, hdivR]
    refine ⟨haddL, haddR, hsubL, hsubR, fun hz => ?_, fun hne => ?_, F32.isInf_pack_infMag _,
      (F32.isFinite_pack (by decide)).mpr (by decide), ?_⟩
    · rw [if_pos hz, if_pos hz]; exact ⟨p.isNaN_bits, p.isNaN_bits⟩
    · rw [if_neg hne, if_neg hne]; exact ⟨F32.isInf_pack_infMag _, F32.isInf_pack_infMag _⟩
    · rw [F32.val_pack (by decide), F32.magUnits_zero]; simp

end Sys2Proof
end

section
/-! PROOFS. The reader's interpolation and the whole READ (40_wavetable_reader.md R79 to R82), and the waveshaper's fold
and shaping (41_block_generator.md R92, 10_state.md R34). -/

namespace Sys2Proof

/-! ### Products with a zero -/

/-- +0.0 times a finite value is a zero of its sign. -/
theorem F32.mul_zero_finite {p : NaNPattern} {d : F32} (hd : F32.isFinite d = true) :
    F32.mul p 0x00000000#32 d = F32.pack (F32.sign d) 0 := by
  have hzero : F32.units 0x00000000#32 = 0 := by decide
  have hsign : F32.sign 0x00000000#32 = false := by decide
  rw [F32.mul_finite (by decide) hd, hzero, hsign, Nat.zero_mul, F32.roundMag_zero (by positivity), Bool.false_bne]

/-- A finite value times +0.0 is a zero of its sign. -/
theorem F32.mul_finite_zero {p : NaNPattern} {y : F32} (hy : F32.isFinite y = true) :
    F32.mul p y 0x00000000#32 = F32.pack (F32.sign y) 0 := by
  have hzero : F32.units 0x00000000#32 = 0 := by decide
  have hsign : F32.sign 0x00000000#32 = false := by decide
  rw [F32.mul_finite hy (by decide), hzero, hsign, Nat.mul_zero, F32.roundMag_zero (by positivity), Bool.bne_false]

/-- A zero weight leaves the value of the entry it starts from. -/
theorem F32.val_add_mul_zero {p q : NaNPattern} {v d : F32} (hv : F32.isFinite v = true) (hd : F32.isFinite d = true) :
    F32.val (F32.add p v (F32.mul q 0x00000000#32 d)) = F32.val v := by
  have hzeroFin : F32.isFinite (F32.pack (F32.sign d) 0) = true := (F32.isFinite_pack (by decide)).mpr (by decide)
  have hzeroVal : F32.val (F32.pack (F32.sign d) 0) = 0 := by cases F32.sign d <;> rfl
  rw [F32.mul_zero_finite hd, F32.add_finite hv hzeroFin, hzeroVal, add_zero]
  exact (F32.ofUnits_exact (F32.rep_val hv)).2.1

namespace Machine

/-! ### Stage 7: the interpolation (R80) -/

section
variable {c : Config} (nan : FpSite → NaNPattern)

theorem interpolate_observed_or_direct {neg : Bool} (h : c.mirrorFrac = .observed ∨ neg = false) (fr v0 v1 : F32) :
    interpolate c nan neg fr v0 v1 =
      F32.add (nan .lerpAdd) v0 (F32.mul (nan .slopeMul) fr (F32.sub (nan .slopeSub) v1 v0)) := by
  unfold interpolate
  split
  case h_1 hmirror => simp [hmirror] at h
  case h_2 => rfl

theorem interpolate_recomputed (h : c.mirrorFrac = .recomputed) (fr v0 v1 : F32) :
    interpolate c nan true fr v0 v1 =
      F32.add (nan .lerpAdd) v1
        (F32.mul (nan .slopeMul) (F32.sub (nan .weightFlip) F32.one fr) (F32.sub (nan .slopeSub) v0 v1)) := by
  simp only [interpolate, h]

end

/-- Settles O32: the two forms; at finite operands no operation draws, so the example evaluates. -/
theorem interpolationFollowsMirrorFrac : Obligations.InterpolationFollowsMirrorFrac := by
  refine ⟨fun _ nan _ fr v0 v1 h => interpolate_observed_or_direct nan h fr v0 v1,
    fun _ nan fr v0 v1 h => interpolate_recomputed nan h fr v0 v1, fun c nan h => ?observed, fun c nan h => ?recomputed⟩
  case observed =>
    rw [interpolate_observed_or_direct nan (.inl h), F32.sub_finite (by decide) (by decide),
      F32.mul_finite (by decide) (by decide), F32.add_finite (by decide) (by decide)]
    decide
  case recomputed =>
    rw [interpolate_recomputed nan h, F32.sub_finite (by decide) (by decide), F32.sub_finite (by decide) (by decide),
      F32.mul_finite (by decide) (by decide), F32.add_finite (by decide) (by decide)]
    decide

/-! ### READ, branch by branch (R79, R81, R82) -/

section
variable {c : Config} {nan : FpSite → NaNPattern} {x m : F32}

/-- READ is determined by the table position and the bank. -/
theorem readTable_congr {y : F32} (h : tablePosition nan x = tablePosition nan y) :
    readTable c nan x m = readTable c nan y m := by
  rw [readTable, readTable, h]

theorem readTable_of_direct (h : (foldIndex (tableIndex nan (tablePosition nan x))).neg = false) :
    readTable c nan x m = interpolate c nan false (tableWeight nan (tablePosition nan x))
      (c.wavetable (bankOf c nan m) (foldIndex (tableIndex nan (tablePosition nan x))).x0)
      (c.wavetable (bankOf c nan m) (foldIndex (tableIndex nan (tablePosition nan x))).x1) := by
  simp only [readTable, h, wtRead, Bool.false_eq_true, if_false]

theorem readTable_of_mirrored (h : (foldIndex (tableIndex nan (tablePosition nan x))).neg = true) :
    readTable c nan x m = F32.neg (interpolate c nan true (tableWeight nan (tablePosition nan x))
      (c.wavetable (bankOf c nan m) (foldIndex (tableIndex nan (tablePosition nan x))).x0)
      (c.wavetable (bankOf c nan m) (foldIndex (tableIndex nan (tablePosition nan x))).x1)) := by
  simp only [readTable, h, wtRead, if_true]

/-- Phase +0.0 looks at entries 0 and 1 with the weight +0.0. -/
theorem lookup_phase_zero : tablePosition nan 0x00000000#32 = 0x00000000#32 ∧
    foldIndex (tableIndex nan 0x00000000#32) = ⟨0, 1, false⟩ ∧ tableWeight nan 0x00000000#32 = 0x00000000#32 := by
  refine ⟨?_, ?_, ?_⟩
  · rw [tablePosition, frac_eq_ofUnits (by decide), F32.mul_finite (a := F32.two) (by decide) (by decide),
      F32.mul_finite (by decide) (by decide)]
    decide
  · rw [tableIndex_eq_ediv (by decide) (by decide) (by decide)]
    decide
  · rw [tableWeight_eq_ofUnits (by decide)]
    decide

/-- Phase 0.5 is the table position 128.0, which looks at entries 128 and 127, mirrored, with the weight +0.0. -/
theorem lookup_phase_half : tablePosition nan 0x3F000000#32 = F32.n128 ∧
    foldIndex (tableIndex nan F32.n128) = ⟨128, 127, true⟩ ∧ tableWeight nan F32.n128 = 0x00000000#32 := by
  refine ⟨?_, ?_, ?_⟩
  · rw [tablePosition, frac_eq_ofUnits (by decide), F32.mul_finite (a := F32.two) (by decide) (by decide),
      F32.mul_finite (by decide) (by decide)]
    decide
  · rw [tableIndex_eq_ediv (by decide) (by decide) (by decide)]
    decide
  · rw [tableWeight_eq_ofUnits (by decide)]
    decide

theorem val_readTable_phase_zero (hv : F32.isFinite (c.wavetable (bankOf c nan m) 0) = true)
    (hd : F32.isFinite
      (F32.sub (nan .slopeSub) (c.wavetable (bankOf c nan m) 1) (c.wavetable (bankOf c nan m) 0)) = true) :
    F32.val (readTable c nan 0x00000000#32 m) = F32.val (c.wavetable (bankOf c nan m) 0) := by
  obtain ⟨hpos, hfold, hweight⟩ := lookup_phase_zero (nan := nan)
  rw [readTable_of_direct (by rw [hpos, hfold]), hpos, hfold, hweight, interpolate_observed_or_direct nan (.inr rfl)]
  exact F32.val_add_mul_zero hv hd

theorem val_readTable_phase_half (hc : c.mirrorFrac = .observed)
    (hv : F32.isFinite (c.wavetable (bankOf c nan m) 128) = true)
    (hd : F32.isFinite
      (F32.sub (nan .slopeSub) (c.wavetable (bankOf c nan m) 127) (c.wavetable (bankOf c nan m) 128)) = true) :
    F32.val (readTable c nan 0x3F000000#32 m) = -F32.val (c.wavetable (bankOf c nan m) 128) := by
  obtain ⟨hpos, hfold, hweight⟩ := lookup_phase_half (nan := nan)
  rw [readTable_of_mirrored (by rw [hpos, hfold]), hpos, hfold, hweight, interpolate_observed_or_direct nan (.inl hc),
    F32.val_neg]
  exact congrArg Neg.neg (F32.val_add_mul_zero hv hd)

/-- A phase that is not finite has a NaN weight at index 0, in the direct branch. -/
theorem isNaN_readTable (hx : F32.isFinite x = false) : F32.isNaN (readTable c nan x m) = true := by
  obtain ⟨-, -, hposition⟩ := tablePositionIsExact
  obtain ⟨-, -, -, -, hlookup⟩ := tableIndexAndWeight
  obtain ⟨hindex, hweight⟩ := hlookup nan _ (hposition nan x hx)
  rw [readTable_of_direct (by rw [hindex]; rfl), interpolate_observed_or_direct nan (.inr rfl),
    F32.mul_nan_left hweight, F32.add_nan_right (NaNPattern.isNaN_bits _)]
  exact NaNPattern.isNaN_bits _

/-- The fraction of a fraction is that fraction, so READ sees the fraction only. -/
theorem readTable_frac (hx : F32.isFinite x = true) (p q : NaNPattern) :
    readTable c nan x m = readTable c nan (frac p q x) m := by
  obtain ⟨hfin, hval⟩ := F32.frac_finite (n1 := p) (n2 := q) hx
  refine readTable_congr ?_
  rw [tablePosition, tablePosition, frac_eq_ofUnits hx, frac_eq_ofUnits hfin, hval, Int.tmod_tmod]

end

/-- Settles O33: READ in each branch, and the lookups of phases 0.0, 0.5 and not finite. -/
theorem readerCornerCases : Obligations.ReaderCornerCases := by
  refine ⟨fun c nan x m => ⟨fun h => ⟨readTable_of_direct h, ?written⟩, readTable_of_mirrored⟩,
    fun _ _ _ => val_readTable_phase_zero, fun _ _ _ => val_readTable_phase_half, fun _ _ _ _ => isNaN_readTable,
    fun _ _ p q _ _ hx _ => readTable_frac hx p q⟩
  case written => rw [readTable_of_direct h, interpolate_observed_or_direct nan (.inr rfl)]

/-! ### The fold's range and the shaping with +0.0 (R92, R34) -/

theorem foldSample_inRange_of_pos {nan : FpSite → NaNPattern} {w : F32} (hfin : F32.isFinite w = true)
    (hw : 0 < F32.val w) : F32.InRange 0 F32.unitOne (foldSample nan w) := by
  obtain ⟨hfrac, -⟩ := fractionalPhaseIsExact
  rw [foldSample_of_nan_or_pos (.inr hw)]
  exact (hfrac _ _ w hfin hw.le).1

/-- 1.0 and 2.0 are representable, so 1 −f w of a w in [−1, 0] does not round out of their interval. -/
theorem foldSample_between_of_nonpos {nan : FpSite → NaNPattern} {w : F32} (h : F32.Between (-F32.unitOne) 0 w) :
    F32.Between F32.unitOne (2 * F32.unitOne) (foldSample nan w) := by
  obtain ⟨hfin, hlo, hhi⟩ := h
  have hone : (F32.magUnits (F32.mag F32.one) : Int) = F32.unitOne := by decide
  have htwo : (F32.magUnits (F32.mag F32.two) : Int) = 2 * F32.unitOne := by decide
  rw [foldSample_eq_ofUnits_of_val_le_zero hfin hhi, ← htwo, ← hone]
  exact F32.ofUnits_between (by decide) (by rw [hone]; omega) (by rw [hone, htwo]; omega)

/-- Settles O35: the fraction of a positive value, and the rounded 1 − w between 1.0 and 2.0. -/
theorem foldRange : Obligations.FoldRange :=
  ⟨fun _ _ => foldSample_inRange_of_pos, fun _ _ => foldSample_between_of_nonpos⟩

/-- Settles O36: reset leaves shape at +0.0, and the product with it is a zero. -/
theorem zeroShapeWritesTheClipOfZero : Obligations.ZeroShapeWritesTheClipOfZero := by
  refine ⟨rfl, fun c nan o hshape hsine => ?_⟩
  rw [sampleWord, shapeSample, hshape, F32.mul_finite_zero hsine]
  cases F32.sign (c.sine (foldSample nan (rawSample c nan o)))
  case false => exact .inl rfl
  case true => exact .inr rfl

end Machine
end Sys2Proof
end

section
/-! PROOFS. The ranges of the registers (10_state.md R24, 41_block_generator.md R87, R103, 42_parameter_store.md R106):
what step e and PARAM_MORPH give, what a step writes to the six registers, and that every step keeps each range. -/

namespace Sys2Proof

/-! ### Roundings that stay finite, and products with a value in [0, 1] -/

/-- Rounding below half a last place above the greatest finite value stays finite. -/
theorem F32.isFinite_ofUnits {z : Bool} {k : Int} (h : k.natAbs < (2 ^ 25 - 1) * 2 ^ 252) :
    F32.isFinite (F32.ofUnits z k) = true := by
  by_cases hk : k = 0
  · subst hk; cases z <;> rfl
  · have hround : F32.roundMag k.natAbs 1 < F32.infMag := (F32.roundMag_finite_iff one_pos).mpr (by rwa [mul_one])
    rw [F32.ofUnits, if_neg hk]
    exact (F32.isFinite_pack hround.le).mpr hround

theorem F32.natAbs_val_le {x : F32} (h : F32.isFinite x = true) : (F32.val x).natAbs ≤ (2 ^ 24 - 1) * 2 ^ 253 :=
  F32.rep_lt_bound (F32.rep_val h)

/-- A nonnegative value times one in [0, 1] does not round above the former. -/
theorem F32.mul_between {p : NaNPattern} {a b : F32} (ha : F32.isFinite a = true) (hapos : 0 ≤ F32.val a)
    (hb : F32.Between 0 F32.unitOne b) : F32.Between 0 (F32.val a) (F32.mul p a b) := by
  obtain ⟨hbfin, hbpos, hbone⟩ := hb
  rw [F32.mul_finite ha hbfin]
  by_cases hzero : F32.val a = 0 ∨ F32.val b = 0
  · have hunits : F32.units a * F32.units b = 0 :=
      Nat.mul_eq_zero.mpr (hzero.imp (F32.units_eq_zero_iff a).mpr (F32.units_eq_zero_iff b).mpr)
    rw [hunits, F32.roundMag_zero (by positivity)]
    cases F32.sign a != F32.sign b <;> exact ⟨rfl, le_rfl, hapos⟩
  · obtain ⟨hane, hbne⟩ := not_or.mp hzero
    obtain ⟨hasign, haunits⟩ := F32.sign_units_of_val_pos (lt_of_le_of_ne hapos (Ne.symm hane))
    obtain ⟨hbsign, hbunits⟩ := F32.sign_units_of_val_pos (lt_of_le_of_ne hbpos (Ne.symm hbne))
    have hle : F32.roundMag (F32.units a * F32.units b) (2 ^ 149) ≤ F32.mag a := by
      refine F32.roundMag_le (by positivity) ?_
      rw [← F32.units_eq]
      exact Nat.mul_le_mul_left _ (by unfold F32.unitOne at hbone; omega)
    have hfin := hle.trans_lt ((F32.isFinite_iff a).mp ha)
    have hunits := F32.magUnits_strictMono.monotone hle
    rw [← F32.units_eq] at hunits
    rw [hasign, hbsign, bne_self_eq_false, F32.Between, F32.val_pack hfin.le, if_neg Bool.false_ne_true, ← haunits]
    exact ⟨(F32.isFinite_pack hfin.le).mpr hfin, by positivity, by exact_mod_cast hunits⟩

namespace Machine

/-! ### Step e (R103) -/

/-- Settles O38: the sum stays below the overflow bound, so its fraction is exact. -/
theorem phaseAdvanceStaysInUnitInterval : Obligations.PhaseAdvanceStaysInUnitInterval := by
  intro nan phase inc hphase hinc hincPos
  obtain ⟨hfin, hlo, hhi⟩ := hphase
  have hsum := F32.add_finite (nan := nan .stepAdd) hfin hinc
  have hincMax := F32.natAbs_val_le hinc
  have hsumFin : F32.isFinite (F32.add (nan .stepAdd) phase inc) = true := by
    rw [hsum]
    exact F32.isFinite_ofUnits (by unfold F32.unitOne at hhi; omega)
  have hsumPos : 0 ≤ F32.val (F32.add (nan .stepAdd) phase inc) := by
    rw [hsum]
    exact F32.val_ofUnits_nonneg (by omega)
  obtain ⟨hfrac, -⟩ := fractionalPhaseIsExact
  obtain ⟨hrange, hval⟩ := hfrac (nan .stepTrunc) (nan .stepFrac) _ hsumFin hsumPos
  exact ⟨hrange, hsumFin, hval⟩

/-! ### PARAM_MORPH (R106) -/

theorem scale_of_valid {c : Config} (h : c.Valid) :
    F32.isFinite c.morphScale = true ∧ 0 ≤ F32.val c.morphScale ∧
      F32.val c.morphScale < (c.bankCount : Int) * F32.unitOne := by
  have hscale := h.morphScale_ok
  have hbanks := h.bankCount_pos
  simp only [Config.scaleInRange, Bool.and_eq_true, decide_eq_true_eq] at hscale
  obtain ⟨⟨hfin, hlo⟩, hhi⟩ := hscale
  have hpred : (0 : Int) ≤ c.bankCount - 1 := by omega
  exact ⟨hfin, le_trans (mul_nonneg hpred (by positivity)) hlo, hhi⟩

theorem morphValue_inRange {c : Config} {v : F32} (hc : c.Valid) (hv : F32.Between 0 F32.unitOne v) :
    F32.InRange 0 ((c.bankCount : Int) * F32.unitOne) (morphValue c v) := by
  obtain ⟨hfin, hpos, hlt⟩ := scale_of_valid hc
  obtain ⟨hmulFin, hmulPos, hmulLe⟩ := F32.mul_between (p := c.nanParam 0#8 v) hfin hpos hv
  exact ⟨hmulFin, hmulPos, hmulLe.trans_lt hlt⟩

/-- MORPH_SCALE times +0.0 is a zero of the scale's sign. -/
theorem morphValue_zero {c : Config} (h : F32.isFinite c.morphScale = true) :
    morphValue c 0x00000000#32 = F32.pack (F32.sign c.morphScale) 0 := F32.mul_finite_zero h

/-- Settles O11: the product is at most the scale; a zero operand gives a zero of the product's sign. -/
theorem paramMorphStoresTheScaledValue : Obligations.ParamMorphStoresTheScaledValue := by
  refine ⟨exec_paramMorph, fun _ _ => morphValue_inRange, fun c hc hsign => ?zero, fun c hscale => ?negScale,
    fun c hc hpos => ?negZero, fun c v hv => ?nan, fun c hscale => ⟨?_, ?_⟩, bankOf_lt⟩
  case zero => rw [morphValue_zero (scale_of_valid hc).1, hsign]; rfl
  case negScale => rw [morphValue_zero (by rw [hscale]; decide), hscale]; decide
  case negZero =>
    have hunits : F32.units 0x80000000#32 = 0 := by decide
    have hsign : F32.sign 0x80000000#32 = true := by decide
    rw [morphValue, F32.mul_finite (scale_of_valid hc).1 (by decide), (F32.sign_units_of_val_pos hpos).1, hunits, hsign,
      Nat.mul_zero, F32.roundMag_zero (by positivity)]
    rfl
  case nan => rw [morphValue, F32.mul_nan_right hv]; exact NaNPattern.isNaN_bits _
  all_goals
    rw [morphValue, hscale, F32.mul_finite (by decide) (by decide)]
    decide

/-! ### What a command and a step write to the six registers -/

/-- The values a command writes: none, or those of INIT, of a CYCLE, or of PARAM_MORPH or PARAM_SHAPE. -/
theorem exec_osc_values {i : Instr} {s t : State} (h : exec i s = .next t) :
    t.osc = s.osc ∨ t.osc = Osc.zero ∨
    (∃ note fine frames, i = .cycle note fine frames ∧
      t.osc = { s.osc with phaseInc := Config.machine.pitchToInc note fine, lfoTarget := fromFixed s.arg }) ∨
    (i = .paramMorph ∧ t.osc = { s.osc with morph := morphValue Config.machine s.arg }) ∨
    ∃ v, t.osc = { s.osc with shape := v } := by
  rcases (exec_cases h).2 t rfl with ⟨-, -, rfl⟩ | ⟨note, fine, frames, hi, -, rfl⟩ | ⟨hi, rfl⟩ | ⟨-, rfl⟩ |
    ⟨w, -, rfl⟩ | ⟨-, rfl⟩ | ⟨-, rfl⟩ | ⟨-, -, rfl⟩
  · exact .inr (.inl rfl)
  · by_cases hz : frames = 0#12
    · subst hz; exact .inl rfl
    · rw [cycleEffect_of_frames_ne_zero _ _ _ _ hz]
      exact .inr (.inr (.inl ⟨note, fine, frames, hi, rfl⟩))
  · exact .inr (.inr (.inr (.inl ⟨hi, rfl⟩)))
  · exact .inr (.inr (.inr (.inr ⟨_, rfl⟩)))
  all_goals exact .inl rfl

/-- The values a step writes: those of an accepted command, the zeros of a power-on, those of a sample step, or none. -/
theorem step_osc_values {s t : State} (h : step s = .next t) :
    t.osc = s.osc ∨ t.osc = Osc.zero ∨
    (∃ note fine frames, s.accepts (.cycle note fine frames) ∧
      t.osc = { s.osc with phaseInc := Config.machine.pitchToInc note fine, lfoTarget := fromFixed s.arg }) ∨
    (s.accepts .paramMorph ∧ t.osc = { s.osc with morph := morphValue Config.machine s.arg }) ∨
    (∃ v, t.osc = { s.osc with shape := v }) ∨
    ∃ nan d, t.osc = s.osc.advance nan d := by
  rcases step_osc h with ⟨i, rest, ops, hacc, hexec⟩ | ⟨-, u, rfl⟩ | ⟨q, rest, -, rfl⟩ | hosc
  · rcases exec_osc_values hexec with hosc | hosc | ⟨note, fine, frames, rfl, hosc⟩ | ⟨rfl, hosc⟩ | ⟨v, hosc⟩
    · exact .inl hosc
    · exact .inr (.inl hosc)
    · exact .inr (.inr (.inl ⟨note, fine, frames, hacc, hosc⟩))
    · exact .inr (.inr (.inr (.inl ⟨hacc, hosc⟩)))
    · exact .inr (.inr (.inr (.inr (.inl ⟨v, hosc⟩))))
  · exact .inr (.inl rfl)
  · exact .inr (.inr (.inr (.inr (.inr ⟨_, _, rfl⟩))))
  · exact .inl hosc

/-! ### Every step keeps the ranges -/

theorem zero_phaseInUnit : F32.InRange 0 F32.unitOne Osc.zero.phase := by decide

theorem zero_incNonNeg : F32.isFinite Osc.zero.phaseInc = true ∧ 0 ≤ F32.val Osc.zero.phaseInc := by decide

theorem zero_lfoTarget_bounded : F32.Between (-F32.unitOne) F32.unitOne Osc.zero.lfoTarget := by decide

theorem zero_morphInBanks : F32.InRange 0 ((Config.machine.bankCount : Int) * F32.unitOne) Osc.zero.morph := by
  have hbanks := Config.machine_valid.bankCount_pos
  have hzero : F32.val Osc.zero.morph = 0 := by decide
  exact ⟨by decide, hzero.ge, by rw [hzero]; positivity⟩

theorem step_keeps_phaseInUnit {s t : State} (hphase : s.PhaseInUnit) (hinc : s.IncNonNeg) (h : step s = .next t) :
    t.PhaseInUnit := by
  rcases step_osc_values h with hosc | hosc | ⟨_, _, _, -, hosc⟩ | ⟨-, hosc⟩ | ⟨v, hosc⟩ | ⟨nan, d, hosc⟩ <;>
    rw [State.PhaseInUnit, hosc]
  case inr.inl => exact zero_phaseInUnit
  case inr.inr.inr.inr.inr => exact (phaseAdvanceStaysInUnitInterval nan _ _ hphase hinc.1 hinc.2).1
  all_goals exact hphase

theorem step_keeps_incNonNeg {s t : State} (hinc : s.IncNonNeg)
    (hpitch : ∀ note fine frames, s.accepts (.cycle note fine frames) →
      F32.isFinite (Config.machine.pitchToInc note fine) = true ∧ 0 ≤ F32.val (Config.machine.pitchToInc note fine))
    (h : step s = .next t) : t.IncNonNeg := by
  rcases step_osc_values h with hosc | hosc | ⟨note, fine, frames, hacc, hosc⟩ | ⟨-, hosc⟩ | ⟨v, hosc⟩ |
    ⟨nan, d, hosc⟩ <;> rw [State.IncNonNeg, hosc]
  case inr.inl => exact zero_incNonNeg
  case inr.inr.inl => exact hpitch note fine frames hacc
  all_goals exact hinc

/-- Settles O39: only a sample step and a zeroing write the phase, only a CYCLE and a zeroing the increment. -/
theorem everyStepKeepsThePhaseInUnitInterval : Obligations.EveryStepKeepsThePhaseInUnitInterval :=
  ⟨fun _ _ => step_keeps_phaseInUnit,
    fun _ _ hphase hinc hpitch h => ⟨step_keeps_phaseInUnit hphase hinc h, step_keeps_incNonNeg hinc hpitch h⟩,
    fun hpitch _ _ ⟨hphase, hinc⟩ h =>
      ⟨step_keeps_phaseInUnit hphase hinc h, step_keeps_incNonNeg hinc (fun note fine _ _ => hpitch note fine) h⟩⟩

/-- Settles O59: only an accepted PARAM_MORPH and a zeroing write morph. -/
theorem everyStepKeepsTheMorphInBanks : Obligations.EveryStepKeepsTheMorphInBanks := by
  intro s t hmorph harg h
  rcases step_osc_values h with hosc | hosc | ⟨_, _, _, -, hosc⟩ | ⟨hacc, hosc⟩ | ⟨v, hosc⟩ | ⟨nan, d, hosc⟩ <;>
    rw [State.MorphInBanks, hosc]
  case inr.inl => exact zero_morphInBanks
  case inr.inr.inr.inl => exact morphValue_inRange Config.machine_valid (harg hacc)
  all_goals exact hmorph

theorem fromFixed_between (q : Word) : F32.Between (-F32.unitOne) F32.unitOne (fromFixed q) := by
  obtain ⟨hexact, -⟩ := fromFixedIsExactAndBounded
  obtain ⟨hfin, -, hlo, hhi, -⟩ := hexact q
  exact ⟨hfin, hlo, hhi⟩

/-- Settles O60: only an accepted CYCLE and a zeroing write lfoTarget, the former with FROM_FIXED of ARG. -/
theorem everyStepKeepsTheLfoTargetBounded : Obligations.EveryStepKeepsTheLfoTargetBounded := by
  intro s t htarget h
  rcases step_osc_values h with hosc | hosc | ⟨_, _, _, -, hosc⟩ | ⟨-, hosc⟩ | ⟨v, hosc⟩ | ⟨nan, d, hosc⟩ <;> rw [hosc]
  case inr.inl => exact zero_lfoTarget_bounded
  case inr.inr.inl => exact fromFixed_between s.arg
  all_goals exact htarget

/-- Settles O56: OUTBUF empty, no CYCLE in flight, and every register +0.0. -/
theorem resetMeetsTheStateInvariant : Obligations.ResetMeetsTheStateInvariant :=
  ⟨State.inv_of_empty rfl rfl, zero_phaseInUnit, zero_incNonNeg, zero_morphInBanks, zero_lfoTarget_bounded⟩

end Machine
end Sys2Proof
end

section
/-! PROOFS. The sample steps of one CYCLE (41_block_generator.md R88, R99, R100, R102): SAMPLE_STEP whole, and the
states a CYCLE in flight goes through, one by one, with their words, their registers and their draws. -/

namespace Sys2Proof

/-- A result that is no NaN for one draw is the result for every draw. -/
theorem F32.NaNIsDraw.eq_of_not_nan {f : NaNPattern → F32} (h : F32.NaNIsDraw f) {p q : NaNPattern}
    (hq : F32.isNaN (f q) = false) : f p = f q := by
  rcases h with hbits | ⟨r, -, hconst⟩
  · simp [hbits, NaNPattern.isNaN_bits] at hq
  · rw [hconst, hconst]

namespace Machine

/-- Settles O19: the sample step is `State.afterSample`, whose word stands at C.i. -/
theorem sampleStepFollowsTheSpec : Obligations.SampleStepFollowsTheSpec := by
  intro c s q hq hi
  exact ⟨s.afterSample c q, sampleStep_next hq hi, State.outWord_of_outWrite rfl,
    fun a ha => read_outWrite_outside _ _ ha, rfl, rfl, rfl, rfl, rfl, rfl, rfl, rfl, rfl, rfl, rfl, rfl, rfl⟩

/-! ### The states of a run of sample steps -/

/-- The state after a sample step of the CYCLE in flight, if there is one. -/
def State.nextSample (c : Config) (s : State) : State :=
  match s.cyc with
  | none => s
  | some q => s.afterSample c q

/-- The state after k sample steps. -/
def State.samples (c : Config) (s : State) (k : Nat) : State := (State.nextSample c)^[k] s

theorem State.samples_succ (c : Config) (s : State) (k : Nat) : s.samples c (k + 1) = (s.samples c k).nextSample c :=
  Function.iterate_succ_apply' _ _ _

theorem State.nextSample_frame (c : Config) (s : State) :
    ∃ phase lfo cyc out draws, s.nextSample c =
      { s with
        osc := { s.osc with phase := phase, lfoCurrent := lfo }
        cyc := cyc, outbuf := out, draws := draws } := by
  unfold State.nextSample
  cases s.cyc
  case none => exact ⟨s.osc.phase, s.osc.lfoCurrent, s.cyc, s.outbuf, s.draws, rfl⟩
  case some q => exact ⟨_, _, _, _, _, rfl⟩

/-- Sample steps write the phase, lfoCurrent, the CYCLE in flight, OUTBUF and the count of draws, and nothing else. -/
theorem State.samples_frame (c : Config) (s : State) (k : Nat) :
    ∃ phase lfo cyc out draws, s.samples c k =
      { s with
        osc := { s.osc with phase := phase, lfoCurrent := lfo }
        cyc := cyc, outbuf := out, draws := draws } := by
  induction k with
  | zero => exact ⟨s.osc.phase, s.osc.lfoCurrent, s.cyc, s.outbuf, s.draws, rfl⟩
  | succ k ih =>
    obtain ⟨_, _, _, _, _, hk⟩ := ih
    obtain ⟨phase, lfo, cyc, out, draws, hstep⟩ := (s.samples c k).nextSample_frame c
    exact ⟨phase, lfo, cyc, out, draws, by rw [State.samples_succ, hstep, hk]⟩

@[simp] theorem State.samples_pending (c : Config) (s : State) (k : Nat) : (s.samples c k).pending = s.pending := by
  obtain ⟨_, _, _, _, _, h⟩ := s.samples_frame c k
  rw [h]

@[simp] theorem State.samples_arg (c : Config) (s : State) (k : Nat) : (s.samples c k).arg = s.arg := by
  obtain ⟨_, _, _, _, _, h⟩ := s.samples_frame c k
  rw [h]

@[simp] theorem State.samples_morph (c : Config) (s : State) (k : Nat) : (s.samples c k).osc.morph = s.osc.morph := by
  obtain ⟨_, _, _, _, _, h⟩ := s.samples_frame c k
  rw [h]

@[simp] theorem State.samples_shape (c : Config) (s : State) (k : Nat) : (s.samples c k).osc.shape = s.osc.shape := by
  obtain ⟨_, _, _, _, _, h⟩ := s.samples_frame c k
  rw [h]

section
variable {c : Config} {s : State} {q : InFlight} (hq : s.cyc = some q)
include hq

/-- Before its last sample step a CYCLE has C.i raised by one a step. -/
theorem State.samples_cyc {k : Nat} (hk : q.index + k < q.frames) :
    (s.samples c k).cyc = some { q with index := q.index + k } := by
  induction k with
  | zero => exact hq
  | succ k ih =>
    rw [State.samples_succ, State.nextSample, ih (by omega)]
    exact InFlight.advance_eq_some_iff.mpr ⟨by dsimp only; omega, rfl⟩

theorem State.samples_succ_eq {k : Nat} (hk : q.index + k < q.frames) :
    s.samples c (k + 1) = (s.samples c k).afterSample c { q with index := q.index + k } := by
  rw [State.samples_succ, State.nextSample, State.samples_cyc hq hk]

/-- The last sample step ends the CYCLE. -/
theorem State.samples_cyc_last {k : Nat} (hk : q.index + (k + 1) = q.frames) : (s.samples c (k + 1)).cyc = none := by
  rw [State.samples_succ_eq hq (by omega)]
  exact InFlight.advance_eq_none_iff.mpr hk

theorem State.samples_draws {k : Nat} (hk : q.index + k ≤ q.frames) : (s.samples c k).draws = s.draws + k := by
  induction k with
  | zero => rfl
  | succ k ih => rw [State.samples_succ_eq hq (by omega), State.afterSample_draws, ih (by omega), Nat.add_assoc]

/-- Each sample step advances the registers with the draws of its own number. -/
theorem State.samples_succ_osc {k : Nat} (hk : q.index + k < q.frames) :
    (s.samples c (k + 1)).osc = (s.samples c k).osc.advance (c.nan (s.draws + k)) q.step := by
  rw [State.samples_succ_eq hq hk, State.afterSample_osc, State.samples_draws hq hk.le]

theorem State.samples_lfoCurrent {k : Nat} (hk : q.index + k ≤ q.frames) :
    (s.samples c k).osc.lfoCurrent = lfoAfter (fun j => c.nan (s.draws + j) .rampAdd) s.osc.lfoCurrent q.step k := by
  induction k with
  | zero => rfl
  | succ k ih => rw [State.samples_succ_osc hq (by omega), Osc.advance_lfoCurrent, ih (by omega)]; rfl

theorem State.sampleStep_samples {k : Nat} (hk : q.index + k < q.frames) (hmax : q.frames ≤ c.maxFrames) :
    sampleStep c (s.samples c k) = .next (s.samples c (k + 1)) := by
  rw [State.samples_succ_eq hq hk]
  exact sampleStep_next (State.samples_cyc hq hk) (hk.trans_le hmax)

theorem State.sampleRun_eq_samples {k : Nat} (hk : q.index + k ≤ q.frames) (hmax : q.frames ≤ c.maxFrames) :
    sampleRun c k s = .next (s.samples c k) := by
  induction k with
  | zero => rfl
  | succ k ih =>
    rw [sampleRun_add 1 (ih (by omega)), sampleRun, State.sampleStep_samples hq (by omega) hmax]
    rfl

/-- After n sample steps the word of each of them stands, from the registers that step found. -/
theorem State.outWord_samples {n k : Nat} (hn : q.index + n ≤ q.frames) (hk : k < n) :
    (s.samples c n).outWord c (q.index + k) =
      sampleWord c (c.nan (s.samples c k).draws) (s.samples c k).osc := by
  induction n with
  | zero => exact absurd hk (Nat.not_lt_zero k)
  | succ n ih =>
    rw [State.samples_succ_eq hq (by omega)]
    rcases Nat.lt_succ_iff_lt_or_eq.mp hk with hlt | rfl
    · rw [← ih (by omega) hlt]
      exact State.outWord_of_outWrite_other rfl rfl (by dsimp only; omega)
    · exact State.outWord_of_outWrite rfl

/-- n sample steps store to their n words only. -/
theorem State.read_samples_outside {n a : Nat} (hn : q.index + n ≤ q.frames)
    (ha : a < outbufOffset q.index ∨ outbufOffset (q.index + n) ≤ a) :
    Memory.read (s.samples c n).outbuf a = Memory.read s.outbuf a := by
  induction n with
  | zero => rfl
  | succ n ih =>
    simp only [outbufOffset] at ha ih
    rw [State.samples_succ_eq hq (by omega), State.afterSample_outbuf,
      read_outWrite_outside _ _ (by simp only [outbufOffset]; omega), ih (by omega) (by omega)]

/-- The registers of two runs agree as long as they start alike, have one step, and draw the same patterns. -/
theorem State.samples_osc_congr {c' : Config} {s' : State} {q' : InFlight} (hq' : s'.cyc = some q')
    (hosc : s.osc = s'.osc) (hstep : q.step = q'.step) {k : Nat} (hk : q.index + k ≤ q.frames)
    (hk' : q'.index + k ≤ q'.frames) (hnan : ∀ j < k, c.nan (s.draws + j) = c'.nan (s'.draws + j)) :
    (s.samples c k).osc = (s'.samples c' k).osc := by
  induction k with
  | zero => exact hosc
  | succ k ih =>
    rw [State.samples_succ_osc hq (by omega), State.samples_succ_osc hq' (by omega), hstep, hnan k (by omega),
      ih (by omega) (by omega) fun j hj => hnan j (by omega)]

end

/-! ### The LFO ramp (R102) -/

/-- A ramp that ends at no NaN is the same whatever is drawn. -/
theorem lfoAfter_eq_of_not_nan {p q : Nat → NaNPattern} {a d : F32} {n : Nat}
    (h : F32.isNaN (lfoAfter q a d n) = false) : lfoAfter p a d n = lfoAfter q a d n := by
  induction n with
  | zero => rfl
  | succ n ih =>
    have hprev : F32.isNaN (lfoAfter q a d n) = false := by
      by_contra hnan
      rw [lfoAfter, (F32.op_nan (.inl (eq_true_of_ne_false hnan))).1, NaNPattern.isNaN_bits] at h
      cases h
    rw [lfoAfter, lfoAfter, ih hprev]
    exact (F32.nanIsDraw_add _ d).eq_of_not_nan h

/-- A ramp in two parts. -/
theorem lfoAfter_add (p : Nat → NaNPattern) (a d : F32) (m n : Nat) :
    lfoAfter p a d (m + n) = lfoAfter (fun j => p (m + j)) (lfoAfter p a d m) d n := by
  induction n with
  | zero => rfl
  | succ n ih => exact congrArg (F32.add (p (m + n)) · d) ih

theorem lfoAfter_of_default {p : Nat → NaNPattern} {a d v : F32} {n : Nat}
    (h : lfoAfter (fun _ => default) a d n = v) (hv : F32.isNaN v = false) : lfoAfter p a d n = v := by
  subst h
  exact lfoAfter_eq_of_not_nan hv

/-- The step of finite registers draws nothing. -/
theorem rampStep_finite {nan : FpSite → NaNPattern} {target current : F32} {frames : Nat}
    (ht : F32.isFinite target = true) (hc : F32.isFinite current = true) :
    rampStep nan target current frames = F32.div (nan .acceptDiv)
      (F32.ofUnits (F32.sign target && !F32.sign current) (F32.val target - F32.val current)) (F32.ofInt frames) := by
  rw [rampStep, F32.sub_finite ht hc]

/-- Settles O40: each sample step adds C.step once; the three ramps stay finite, so they draw nothing. -/
theorem lfoRampAddsTheStepPerSample : Obligations.LfoRampAddsTheStepPerSample := by
  refine ⟨fun c s q n hq hn hmax =>
      ⟨s.samples c n, State.sampleRun_eq_samples hq hn hmax, State.samples_lfoCurrent hq hn⟩,
    fun nan p => ⟨?_, ?ramp4⟩, fun nan p => ⟨?_, ?ramp3⟩, fun nan p => ⟨?_, ?ramp10⟩⟩
  case ramp4 => exact lfoAfter_of_default (by decide) (by decide)
  case ramp3 => exact lfoAfter_of_default (by decide) (by decide)
  case ramp10 =>
    have hhalf : ∀ p, lfoAfter p 0x00000000#32 0x3C23D70A#32 5 = 0x3D4CCCCC#32 := fun p =>
      lfoAfter_of_default (by decide) (by decide)
    rw [lfoAfter_add p _ _ 5 5, hhalf]
    exact lfoAfter_of_default (by decide) (by decide)
  all_goals
    rw [rampStep_finite (by decide) (by decide), F32.div_finite_of_val_ne_zero (by decide) (by decide) (by decide)]
    decide

/-! ### The words of an accepted CYCLE (R42, R54) -/

theorem State.busy_of_cyc_eq_none {s : State} (h : s.cyc = none) : s.busy = false := by
  simp [State.busy, h]

/-- All F sample steps of a CYCLE, F ≥ 1, that has made none yet: they leave the block idle. -/
theorem State.samples_all_idle {c : Config} {s : State} {frames : Nat} {d : F32} (hq : s.cyc = some ⟨frames, 0, d⟩)
    (hpos : 0 < frames) : (s.samples c frames).busy = false := by
  obtain ⟨n, rfl⟩ := Nat.exists_eq_succ_of_ne_zero hpos.ne'
  exact State.busy_of_cyc_eq_none (State.samples_cyc_last hq (Nat.zero_add _))

/-- Settles O44: the states are those of the accepted CYCLE's sample steps. -/
theorem cycleWritesItsWordsAndNoOthers : Obligations.CycleWritesItsWordsAndNoOthers := by
  intro note fine frames s hidle hframes
  have hmax : frames.toNat ≤ Config.machine.maxFrames := Nat.le_of_lt_succ frames.isLt
  have hq := acceptCycle_cyc Config.machine note fine frames.toNat s
  refine ⟨fun k => (acceptCycle Config.machine note fine frames.toNat s).samples Config.machine k, ?accept,
    fun k hk => ⟨?busy, ?step⟩, State.samples_all_idle hq (toNat_pos_of_ne_zero hframes), fun k hk => ?word,
    fun a ha => ?outside⟩
  case accept => rw [exec_cycle_idle hidle, cycleEffect_of_frames_ne_zero _ _ _ _ hframes]; rfl
  case busy => exact State.busy_of_cyc_eq_some (State.samples_cyc hq (by dsimp only; omega))
  case step => exact State.sampleStep_samples hq (by dsimp only; omega) hmax
  case word =>
    have hword := State.outWord_samples (c := Config.machine) hq (n := frames.toNat) (Nat.zero_add _).le hk
    rwa [Nat.zero_add] at hword
  case outside =>
    have hread := State.read_samples_outside (c := Config.machine) hq (n := frames.toNat) (a := a) (Nat.zero_add _).le
      (by simpa using ha)
    rw [hread, acceptCycle_outbuf]

end Machine
end Sys2Proof
end

section
/-! PROOFS. The block and its host while a CYCLE is in flight (70_reset_and_hazards.md R137, R141): that the CYCLE ends
after exactly its sample steps, with no access pending and under any schedule, and where a PARAM can land. -/

namespace Sys2Proof.Machine

/-! ### Runs of steps -/

/-- A run of steps in two parts. -/
theorem stepRun_add {m : Nat} (n : Nat) {s t : State} (h : stepRun m s = .next t) :
    stepRun (m + n) s = stepRun n t := by
  induction m generalizing s with
  | zero => cases h; rw [Nat.zero_add]
  | succ m ih =>
    rw [Nat.succ_add]
    simp only [stepRun] at h ⊢
    split at h
    · exact ih h
    · cases h
    · cases h

/-- The last of several steps. -/
theorem stepRun_succ_last {s t u : State} {n : Nat} (h : stepRun n s = .next u) (hu : step u = .next t) :
    stepRun (n + 1) s = .next t := by
  rw [stepRun_add 1 h, stepRun_succ hu]
  rfl

/-! ### No access pending (R141) -/

section
variable {s : State} {q : InFlight} (hq : s.cyc = some q)
include hq

/-- With no access pending the steps of a busy block are its sample steps. -/
theorem stepRun_eq_samples (hp : s.pending = []) (hmax : q.frames ≤ Config.machine.maxFrames) {n : Nat}
    (hn : q.index + n ≤ q.frames) : stepRun n s = .next (s.samples Config.machine n) := by
  induction n with
  | zero => rfl
  | succ n ih =>
    have hbusy := State.busy_of_cyc_eq_some (State.samples_cyc (c := Config.machine) hq (k := n) (by omega))
    have hnone : (s.samples Config.machine n).pending = [] := by rw [State.samples_pending, hp]
    refine stepRun_succ_last (ih (by omega)) ?_
    exact (step_of_sequencer (nextAgent_no_access hbusy hnone)).trans
      (State.sampleStep_samples (c := Config.machine) hq (by omega) hmax)

theorem State.samples_remaining_idle {c : Config} (h : q.index < q.frames) :
    (s.samples c (q.frames - q.index)).busy = false := by
  obtain ⟨n, hn⟩ := Nat.exists_eq_succ_of_ne_zero (Nat.sub_ne_zero_of_lt h)
  rw [hn]
  exact State.busy_of_cyc_eq_none (State.samples_cyc_last hq (by omega))

end

/-- Settles O42: the steps are the CYCLE's sample steps. -/
theorem cycleCompletesAfterExactlyItsSamples : Obligations.CycleCompletesAfterExactlyItsSamples := by
  intro s q hinv hp hq
  obtain ⟨hlt, hmax⟩ := hinv.inFlight q hq
  exact ⟨fun n hn => ⟨_, stepRun_eq_samples hq hp hmax (by omega), State.samples_cyc hq (by omega)⟩,
    _, stepRun_eq_samples hq hp hmax (by omega), State.samples_remaining_idle hq hlt⟩

/-! ### Any schedule (R53, R141) -/

/-- A command performed on a busy block leaves the CYCLE in flight, the draws and the schedule alone. -/
theorem exec_busy {i : Instr} {s t : State} (hbusy : s.busy = true) (h : exec i s = .next t) :
    t.cyc = s.cyc ∧ t.draws = s.draws ∧ t.turns = s.turns := by
  rcases (exec_cases h).2 t rfl with ⟨-, hidle, -⟩ | ⟨_, _, _, -, hidle, -⟩ | ⟨-, rfl⟩ | ⟨-, rfl⟩ | ⟨w, -, rfl⟩ |
    ⟨-, rfl⟩ | ⟨-, rfl⟩ | ⟨-, -, rfl⟩
  · simp [hbusy] at hidle
  · simp [hbusy] at hidle
  all_goals exact ⟨rfl, rfl, rfl⟩

/-- So does every host operation but a power-on. -/
theorem hostOp_busy {op : HostOp} {s t : State} (hbusy : s.busy = true) (h : hostOp op s = .next t) :
    (op = .powerOn ∧ t = s.powerOn) ∨ t.cyc = s.cyc ∧ t.draws = s.draws ∧ t.turns = s.turns := by
  rcases hostOp_cases h with ⟨w, -, hexec⟩ | ⟨w, -, rfl⟩ | ⟨o, w, -, -, -, rfl⟩ | ⟨o, -, rfl⟩ | ⟨-, rfl⟩ | hon
  · exact .inr (exec_busy hbusy hexec)
  · exact .inr ⟨rfl, rfl, rfl⟩
  · exact .inr ⟨rfl, rfl, rfl⟩
  · exact .inr ⟨rfl, rfl, rfl⟩
  · refine .inr ?_
    unfold pollStatus
    split <;> exact ⟨rfl, rfl, rfl⟩
  · exact .inl hon

/-- Within `m` steps the run of `s` is refused, or the CYCLE in flight ends, by a power-on or when the draws have gone
up by `left`. -/
def State.EndsWithin (s : State) (m left : Nat) : Prop :=
  (∃ n r, n ≤ m ∧ stepRun n s = .refused r) ∨
  ∃ n u t, n < m ∧ stepRun n s = .next u ∧ u.busy = true ∧ step u = .next t ∧ t.busy = false ∧
    (u.hostPerforms .powerOn ∨ t.draws = s.draws + left)

theorem State.EndsWithin.of_step {s s' : State} {m left left' : Nat} (hs : step s = .next s')
    (hdraws : s'.draws + left' = s.draws + left) (h : s'.EndsWithin m left') : s.EndsWithin (m + 1) left := by
  rcases h with ⟨n, r, hn, hr⟩ | ⟨n, u, t, hn, hu, hbusy, ht, hidle, hend⟩
  · exact .inl ⟨n + 1, r, by omega, (stepRun_succ hs).trans hr⟩
  · exact .inr ⟨n + 1, u, t, by omega, (stepRun_succ hs).trans hu, hbusy, ht, hidle, hdraws ▸ hend⟩

/-- The step that ends the CYCLE in flight, or is refused, is the first one. -/
theorem State.EndsWithin.now {s t : State} {m left : Nat} (hm : 0 < m) (hbusy : s.busy = true) (hs : step s = .next t)
    (hidle : t.busy = false) (hend : s.hostPerforms .powerOn ∨ t.draws = s.draws + left) : s.EndsWithin m left :=
  .inr ⟨0, s, t, hm, rfl, hbusy, hs, hidle, hend⟩

theorem State.EndsWithin.refused {s : State} {m left : Nat} {r : Refusal} (hm : 0 < m) (hs : step s = .refused r) :
    s.EndsWithin m left :=
  .inl ⟨1, r, hm, by simp only [stepRun, hs]⟩

/-- A step of a busy block ends the CYCLE in flight, is refused, or takes one of the remaining sample steps or one entry
of the schedule. -/
theorem step_busy {s : State} {q : InFlight} (hinv : s.Inv) (hq : s.cyc = some q) :
    (∃ r, step s = .refused r) ∨
    (∃ t, step s = .next t ∧ t.busy = false ∧
      (s.hostPerforms .powerOn ∨ q.index + 1 = q.frames ∧ t.draws = s.draws + 1)) ∨
    ∃ t q', step s = .next t ∧ t.cyc = some q' ∧ q'.frames = q.frames ∧
      (q'.index = q.index + 1 ∧ t.draws = s.draws + 1 ∧ t.turns.length ≤ s.turns.length ∨
        q'.index = q.index ∧ t.draws = s.draws ∧ t.turns.length < s.turns.length) := by
  have hbusy := State.busy_of_cyc_eq_some hq
  rcases step_outcome s with ⟨hn, -⟩ | ⟨rest, hn, hs⟩ | ⟨rest, op, ops, hn, hp, -, hs⟩
  · simp [(nextAgent_none hn).2] at hbusy
  · rw [sampleStep_next (s := { s with turns := rest }) hq (hinv.index_lt hq)] at hs
    by_cases hlast : q.index + 1 = q.frames
    · exact .inr (.inl ⟨_, hs, State.busy_of_cyc_eq_none (InFlight.advance_eq_none_iff.mpr hlast), .inr ⟨hlast, rfl⟩⟩)
    · exact .inr (.inr ⟨_, _, hs, InFlight.advance_eq_some_iff.mpr ⟨hlast, rfl⟩, rfl,
        .inl ⟨rfl, rfl, (nextAgent_sequencer hn).2⟩⟩)
  · rcases hostOp_next_or_refused op { s with turns := rest, pending := ops } with ⟨t, ht⟩ | ⟨_, _, r, -, -, hr⟩
    · rcases hostOp_busy (s := { s with turns := rest, pending := ops }) hbusy ht with ⟨rfl, rfl⟩ |
        ⟨hcyc, hdraws, hturns⟩
      · exact .inr (.inl ⟨_, hs.trans ht, rfl, .inl (hostPerforms_of hn hp)⟩)
      · refine .inr (.inr ⟨t, q, hs.trans ht, hcyc.trans hq, rfl, .inr ⟨rfl, hdraws, ?_⟩⟩)
        rw [hturns, (nextAgent_host hn).2 hbusy]
        exact Nat.lt_succ_self _
    · exact .inl ⟨r, hs.trans hr⟩

/-- By induction on the bound, which each step of a busy block lowers. -/
theorem State.Inv.endsWithin {m : Nat} : ∀ {s : State} {q : InFlight}, s.Inv → s.cyc = some q →
    s.turns.length + (q.frames - q.index) ≤ m → s.EndsWithin m (q.frames - q.index) := by
  induction m with
  | zero =>
    intro s q hinv hq hm
    have hlt := (hinv.inFlight q hq).1
    omega
  | succ m ih =>
    intro s q hinv hq hm
    have hlt := (hinv.inFlight q hq).1
    rcases step_busy hinv hq with ⟨r, hs⟩ | ⟨t, hs, hidle, hend⟩ | ⟨t, q', hs, hq', hframes, hmove⟩
    · exact .refused m.succ_pos hs
    · refine .now m.succ_pos (State.busy_of_cyc_eq_some hq) hs hidle (hend.imp_right fun ⟨hlast, hdraws⟩ => ?_)
      omega
    · have hinv' := everyStepKeepsTheStateInvariant s t hinv hs
      have hlt' := (hinv'.inFlight q' hq').1
      exact .of_step hs (by omega) (ih hinv' hq' (by omega))

/-- Settles O43: each step of a busy block lowers the number of sample steps left or of entries in the schedule. -/
theorem everyCycleCompletesUnderAnySchedule : Obligations.EveryCycleCompletesUnderAnySchedule :=
  fun _ _ hinv hq => hinv.endsWithin hq le_rfl

/-! ### A PARAM that races a CYCLE (R137) -/

/-- The schedule takes no part in a sample step. -/
theorem sampleStep_with_turns {c : Config} {s t : State} (turns : List Agent) (h : sampleStep c s = .next t) :
    sampleStep c { s with turns := turns } = .next { t with turns := turns } := by
  rcases sampleStep_cases h with ⟨hidle, rfl⟩ | ⟨q, hq, hi, rfl⟩
  · exact sampleStep_of_cyc_eq_none hidle
  · exact sampleStep_next hq hi

/-- Where the schedule names the sequencer next, a busy block makes a sample step before the host's PARAM. -/
theorem step_sampled_scheduled {u : State} {w : Word} {rest : List HostOp} (hbusy : u.busy = true)
    (hp : u.pending = cmdWrite w :: rest) (hw : waitsForIdle (decode w) = false) (turns : List Agent) :
    step { u with turns := .sequencer :: turns } = sampleStep Config.machine { u with turns := turns } := by
  have hstall : ({ u with turns := .sequencer :: turns } : State).stalls (cmdWrite w) = false := by
    rw [stalls_cmdWrite, hw, Bool.and_false]
  exact step_of_sequencer (nextAgent_scheduled (s := { u with turns := .sequencer :: turns }) hbusy hp hstall rfl)

/-- While the schedule names the sequencer and the host's next access is a PARAM, the steps are sample steps. -/
theorem stepRun_scheduled_samples {s : State} {q : InFlight} {w : Word} {rest : List HostOp} {turns : List Agent}
    (hq : s.cyc = some q) (hmax : q.frames ≤ Config.machine.maxFrames) (hp : s.pending = cmdWrite w :: rest)
    (hw : waitsForIdle (decode w) = false) {k : Nat} : ∀ {j : Nat}, q.index + k ≤ q.frames →
    s.turns = List.replicate (k + j) .sequencer ++ turns →
    stepRun k s = .next { s.samples Config.machine k with turns := List.replicate j .sequencer ++ turns } := by
  induction k with
  | zero =>
    intro j _ ht
    rw [Nat.zero_add] at ht
    rw [← ht]
    rfl
  | succ k ih =>
    intro j hk ht
    have hcyc := State.samples_cyc (c := Config.machine) hq (k := k) (by omega)
    refine stepRun_succ_last (ih (j := j + 1) (by omega) (by rw [ht, Nat.succ_add_eq_add_succ])) ?_
    have hpending : (s.samples Config.machine k).pending = cmdWrite w :: rest := by rw [State.samples_pending, hp]
    exact (step_sampled_scheduled (State.busy_of_cyc_eq_some hcyc) hpending hw _).trans
      (sampleStep_with_turns _ (State.sampleStep_samples hq (by omega) hmax))

/-- Where the schedule names the host next, a PARAM is performed, busy or not. -/
theorem step_performs_scheduled {u : State} {w : Word} {rest : List HostOp} {turns : List Agent}
    (hp : u.pending = cmdWrite w :: rest) (hw : waitsForIdle (decode w) = false) (ht : u.turns = .host :: turns) :
    ∃ turns', step u = exec (decode w) { u with turns := turns', pending := rest } := by
  cases hbusy : u.busy
  case false => exact ⟨u.turns, by rw [step_of_host (nextAgent_idle hbusy hp) hp, hostOp_cmdWrite]⟩
  case true =>
    have hstall : u.stalls (cmdWrite w) = false := by rw [stalls_cmdWrite, hw, Bool.and_false]
    exact ⟨turns, by rw [step_of_host (nextAgent_scheduled hbusy hp hstall ht) hp, hostOp_cmdWrite]⟩

/-- C.i after k of the remaining sample steps, or no CYCLE after the last one. -/
theorem State.samples_cyc_eq {c : Config} {s : State} {q : InFlight} (hq : s.cyc = some q) (hlt : q.index < q.frames)
    {k : Nat} (hk : q.index + k ≤ q.frames) :
    (s.samples c k).cyc = if q.index + k = q.frames then none else some { q with index := q.index + k } := by
  split
  case isTrue hlast =>
    obtain ⟨n, rfl⟩ : ∃ n, k = n + 1 := Nat.exists_eq_succ_of_ne_zero (by omega)
    exact State.samples_cyc_last hq hlast
  case isFalse hne => exact State.samples_cyc hq (by omega)

/-- Settles O45: k sample steps, which the schedule gives to the sequencer, then the PARAM, which the host performs. -/
theorem paramMayLandAfterAnyNumberOfSamples : Obligations.ParamMayLandAfterAnyNumberOfSamples := by
  intro s q k w rest turns hinv hq hk hw hp ht
  obtain ⟨hlt, hmax⟩ := hinv.inFlight q hq
  have hgo : waitsForIdle (decode w) = false := by rcases hw with h | h <;> rw [h] <;> rfl
  have hrun := stepRun_scheduled_samples (j := 0) hq hmax hp hgo (by omega) ht
  have hcyc := State.samples_cyc_eq (c := Config.machine) hq hlt (k := k) (by omega)
  refine ⟨_, hrun, State.samples_morph .., State.samples_shape .., State.samples_pending .., hcyc, ?_⟩
  obtain ⟨turns', hstep⟩ := step_performs_scheduled
    (u := { s.samples Config.machine k with turns := List.replicate 0 .sequencer ++ .host :: turns })
    ((State.samples_pending ..).trans hp) hgo rfl
  rcases hw with hw | hw <;> rw [hw] at hstep ⊢
  · exact ⟨_, hstep, rfl, rfl, fun _ => by rw [setMorph_osc, State.samples_arg], nofun⟩
  · exact ⟨_, hstep, rfl, rfl, nofun, fun _ => by rw [setShape_osc, State.samples_arg]⟩

end Sys2Proof.Machine
end

section
/-! PROOFS. A CYCLE whose target is already reached (41_block_generator.md R104): its ramp is flat, so two of them make
the samples of one CYCLE of both lengths. -/

namespace Sys2Proof

/-- Rounding a finite value gives its pattern back, if a zero is to have the sign it has. -/
theorem F32.ofUnits_val {z : Bool} {x : F32} (hfin : F32.isFinite x = true) (hz : F32.val x = 0 → F32.sign x = z) :
    F32.ofUnits z (F32.val x) = x := by
  obtain ⟨-, hval, hsign⟩ := F32.ofUnits_exact (z := z) (F32.rep_val hfin)
  refine F32.ext_sign_mag ?_ (F32.magUnits_strictMono.injective ?_)
  · rw [hsign]
    split
    case isTrue h0 => exact (hz h0).symm
    case isFalse h0 => exact (F32.sign_eq_decide_val_neg h0).symm
  · rw [← F32.natAbs_val, ← F32.natAbs_val, hval]

namespace Machine

/-! ### The flat ramp -/

/-- FROM_FIXED is never −0.0, so its zero has no sign. -/
theorem sign_fromFixed_of_val_eq_zero {q : Word} (h : F32.val (fromFixed q) = 0) : F32.sign (fromFixed q) = false := by
  obtain ⟨hexact, -⟩ := fromFixedIsExactAndBounded
  obtain ⟨-, -, -, -, hne⟩ := hexact q
  by_contra hsign
  rw [Bool.not_eq_false] at hsign
  refine hne (F32.ext_sign_mag (hsign.trans (by decide)) (F32.magUnits_strictMono.injective ?_))
  rw [← F32.natAbs_val, ← F32.natAbs_val, h]
  decide

theorem nextLfo_fromFixed_zero (nan : FpSite → NaNPattern) (q : Word) :
    nextLfo nan (fromFixed q) 0x00000000#32 = fromFixed q := by
  have hfin := (fromFixed_between q).1
  have hzero : F32.val 0x00000000#32 = 0 ∧ F32.sign 0x00000000#32 = false := by decide
  rw [nextLfo, F32.add_finite hfin (by decide), hzero.1, hzero.2, add_zero, Bool.and_false]
  exact F32.ofUnits_val hfin sign_fromFixed_of_val_eq_zero

/-- The step from a reached target is +0.0. -/
theorem rampStep_reached (nan : FpSite → NaNPattern) (q : Word) {frames : Nat} (hpos : 1 ≤ frames)
    (hmax : frames ≤ 4095) : rampStep nan (fromFixed q) (fromFixed q) frames = 0x00000000#32 := by
  obtain ⟨hcountFin, hcountVal⟩ := F32.ofInt_exact (n := frames) (by rw [Nat.abs_cast]; omega)
  have hcount : F32.val (F32.ofInt frames) ≠ 0 := by rw [hcountVal]; unfold F32.unitOne; omega
  have hsign : F32.sign (F32.ofInt frames) = false := by
    rw [F32.sign_eq_decide_val_neg hcount, hcountVal]
    exact decide_eq_false (by unfold F32.unitOne; omega)
  have hfin := (fromFixed_between q).1
  have hzero : F32.ofUnits false 0 = 0x00000000#32 := by decide
  have hunits : F32.units 0x00000000#32 = 0 := by decide
  have hzsign : F32.sign 0x00000000#32 = false := by decide
  rw [rampStep_finite hfin hfin, Bool.and_not_self, sub_self, hzero,
    F32.div_finite_of_val_ne_zero (by decide) hcountFin hcount, hunits, hzsign, hsign, Nat.zero_mul,
    F32.roundMag_zero (Nat.pos_of_ne_zero ((F32.units_eq_zero_iff _).not.mpr hcount))]
  rfl

/-- Adding +0.0 any number of times leaves FROM_FIXED of a word as it is. -/
theorem lfoAfter_fromFixed_zero (p : Nat → NaNPattern) (q : Word) (n : Nat) :
    lfoAfter p (fromFixed q) 0x00000000#32 n = fromFixed q := by
  induction n with
  | zero => rfl
  | succ n ih => rw [lfoAfter, ih]; exact nextLfo_fromFixed_zero (fun _ => p n) q

/-! ### A CYCLE that starts at its target -/

section
variable {c : Config} {note fine : BitVec 8} {frames : Nat} {s : State} (hlfo : s.osc.lfoCurrent = fromFixed s.arg)
include hlfo

/-- The acceptance sets C.step to +0.0. -/
theorem acceptCycle_cyc_reached (hpos : 1 ≤ frames) (hmax : frames ≤ 4095) :
    (acceptCycle c note fine frames s).cyc = some ⟨frames, 0, 0x00000000#32⟩ := by
  rw [acceptCycle_cyc, hlfo, rampStep_reached _ _ hpos hmax]

/-- No sample step of it changes lfoCurrent. -/
theorem samples_lfoCurrent_reached (hpos : 1 ≤ frames) (hmax : frames ≤ 4095) {n : Nat} (hn : n ≤ frames) :
    ((acceptCycle c note fine frames s).samples c n).osc.lfoCurrent = fromFixed s.arg := by
  rw [State.samples_lfoCurrent (acceptCycle_cyc_reached hlfo hpos hmax) (by dsimp only; omega), acceptCycle_osc]
  dsimp only
  rw [hlfo, lfoAfter_fromFixed_zero]

end

/-- A second CYCLE of the same NOTE, FINE and ARG, accepted after sample steps of the first, changes no register. -/
theorem acceptCycle_osc_again (c : Config) (note fine : BitVec 8) (frames frames' n : Nat) (s : State) :
    (acceptCycle c note fine frames' ((acceptCycle c note fine frames s).samples c n)).osc =
      ((acceptCycle c note fine frames s).samples c n).osc := by
  obtain ⟨_, _, _, _, _, hframe⟩ := (acceptCycle c note fine frames s).samples_frame c n
  rw [hframe]
  rfl

theorem State.samples_add (c : Config) (s : State) (m n : Nat) : s.samples c (m + n) = (s.samples c m).samples c n := by
  rw [State.samples, Nat.add_comm, Function.iterate_add_apply]
  rfl

/-- Two runs that start with the same registers, have one step and draw the same patterns write the same words. -/
theorem State.outWord_samples_congr {c : Config} {nan' : Nat → FpSite → NaNPattern} {s s' : State} {q q' : InFlight}
    (hq : s.cyc = some q) (hq' : s'.cyc = some q') (hosc : s.osc = s'.osc) (hstep : q.step = q'.step) {n k : Nat}
    (hn : q.index + n ≤ q.frames) (hk : k < n) {n' : Nat} (hn' : q'.index + n' ≤ q'.frames) (hk' : k < n')
    (hnan : ∀ j ≤ k, c.nan (s.draws + j) = nan' (s'.draws + j)) :
    (s.samples c n).outWord c (q.index + k) = (s'.samples { c with nan := nan' } n').outWord c (q'.index + k) := by
  have hword' := State.outWord_samples (c := { c with nan := nan' }) hq' hn' hk'
  have hregs := State.samples_osc_congr (c := c) (c' := { c with nan := nan' }) hq hq' hosc hstep (k := k) (by omega)
    (by omega) fun j hj => hnan j hj.le
  rw [State.samples_draws hq' (by omega), ← hregs] at hword'
  rw [State.outWord_samples hq hn hk, State.samples_draws hq (by omega), hnan k le_rfl]
  exact hword'.symm

/-! ### Two CYCLEs and one of both lengths -/

/-- Two CYCLEs of f1 and f2 frames, before their first sample steps, and one of f1 + f2 frames that draws from `nan'`:
all have one C.step, the first and the long one start with the same registers, the second takes over those the first
leaves, and the draws agree sample by sample, the second acceptance having taken a draw number. -/
structure JoinedCycles (c : Config) (nan' : Nat → FpSite → NaNPattern) (f1 f2 : Nat) (d : F32)
    (first second long : State) : Prop where
  first_cyc    : first.cyc = some ⟨f1, 0, d⟩
  second_cyc   : second.cyc = some ⟨f2, 0, d⟩
  long_cyc     : long.cyc = some ⟨f1 + f2, 0, d⟩
  second_pos   : 0 < f2
  long_osc     : first.osc = long.osc
  second_osc   : second.osc = (first.samples c f1).osc
  long_draws   : long.draws = first.draws
  second_draws : second.draws = first.draws + f1 + 1
  nan_first    : ∀ n, n < first.draws + f1 → c.nan n = nan' n
  nan_second   : ∀ n, first.draws + f1 ≤ n → c.nan (n + 1) = nan' n

namespace JoinedCycles

variable {c : Config} {nan' : Nat → FpSite → NaNPattern} {f1 f2 : Nat} {d : F32} {first second long : State}
  (h : JoinedCycles c nan' f1 f2 d first second long)
include h

/-- The draws of the first CYCLE's samples. -/
theorem nan_first_sample {j : Nat} (hj : j < f1) : c.nan (first.draws + j) = nan' (long.draws + j) := by
  rw [h.long_draws]
  exact h.nan_first _ (by omega)

/-- After f1 samples the long CYCLE has the registers with which the second one starts. -/
theorem second_osc_eq_long : second.osc = (long.samples { c with nan := nan' } f1).osc := by
  rw [h.second_osc]
  exact State.samples_osc_congr h.first_cyc h.long_cyc h.long_osc rfl (by dsimp only; omega) (by dsimp only; omega)
    fun j hj => h.nan_first_sample hj

theorem long_cyc_second : (long.samples { c with nan := nan' } f1).cyc = some ⟨f1 + f2, 0 + f1, d⟩ :=
  State.samples_cyc h.long_cyc (by have := h.second_pos; dsimp only; omega)

/-- The draws of the second CYCLE's samples. -/
theorem nan_second_sample (j : Nat) :
    c.nan (second.draws + j) = nan' ((long.samples { c with nan := nan' } f1).draws + j) := by
  rw [State.samples_draws h.long_cyc (by dsimp only; omega), h.long_draws, h.second_draws, Nat.add_right_comm]
  exact h.nan_second _ (by omega)

theorem outWord_first {k : Nat} (hk : k < f1) :
    (first.samples c f1).outWord c k = (long.samples { c with nan := nan' } (f1 + f2)).outWord c k := by
  have hword := State.outWord_samples_congr (n := f1) (n' := f1 + f2) h.first_cyc h.long_cyc h.long_osc rfl
    (by dsimp only; omega) hk (by dsimp only; omega) (by omega) fun j hj => h.nan_first_sample (by omega)
  rwa [Nat.zero_add] at hword

theorem outWord_second {k : Nat} (hk : k < f2) :
    (second.samples c f2).outWord c k = (long.samples { c with nan := nan' } (f1 + f2)).outWord c (f1 + k) := by
  have hword := State.outWord_samples_congr (n := f2) (n' := f2) h.second_cyc h.long_cyc_second h.second_osc_eq_long rfl
    (by dsimp only; omega) hk (by dsimp only; omega) hk fun j _ => h.nan_second_sample j
  rwa [← State.samples_add, Nat.zero_add, Nat.zero_add] at hword

/-- Both CYCLEs leave the registers that the long one leaves. -/
theorem osc_second : (second.samples c f2).osc = (long.samples { c with nan := nan' } (f1 + f2)).osc := by
  rw [State.samples_add]
  exact State.samples_osc_congr h.second_cyc h.long_cyc_second h.second_osc_eq_long rfl (by dsimp only; omega)
    (by dsimp only; omega) fun j _ => h.nan_second_sample j

end JoinedCycles

/-- Two accepted CYCLEs of one NOTE, FINE and ARG whose target is reached join to one of both lengths. -/
theorem joinedCycles_of_reached {c : Config} {nan' : Nat → FpSite → NaNPattern} {s : State} {f1 f2 : Nat}
    (note fine : BitVec 8) (hlfo : s.osc.lfoCurrent = fromFixed s.arg) (h1 : 1 ≤ f1) (h2 : 1 ≤ f2)
    (hmax : f1 + f2 ≤ 4095) (hfirst : ∀ n, n ≤ s.draws + f1 → nan' n = c.nan n)
    (hsecond : ∀ n, s.draws + f1 < n → nan' n = c.nan (n + 1)) :
    JoinedCycles c nan' f1 f2 0x00000000#32 (acceptCycle c note fine f1 s)
      (acceptCycle c note fine f2 ((acceptCycle c note fine f1 s).samples c f1))
      (acceptCycle { c with nan := nan' } note fine (f1 + f2) s) := by
  have hcyc := acceptCycle_cyc_reached (c := c) (note := note) (fine := fine) hlfo h1 (by omega)
  have hlfo1 := samples_lfoCurrent_reached (c := c) (note := note) (fine := fine) hlfo h1 (by omega) (n := f1) le_rfl
  have harg : ((acceptCycle c note fine f1 s).samples c f1).arg = s.arg := State.samples_arg ..
  exact {
    first_cyc := hcyc
    second_cyc := acceptCycle_cyc_reached (hlfo1.trans (congrArg fromFixed harg.symm)) h2 (by omega)
    long_cyc := acceptCycle_cyc_reached hlfo (by omega) hmax
    second_pos := h2
    long_osc := rfl
    second_osc := acceptCycle_osc_again c note fine f1 f2 f1 s
    long_draws := rfl
    second_draws := by rw [acceptCycle_draws, State.samples_draws hcyc (by dsimp only; omega)]
    nan_first := fun n hn => (hfirst n (by rw [acceptCycle_draws] at hn; omega)).symm
    nan_second := fun n hn => (hsecond n (by rw [acceptCycle_draws] at hn; omega)).symm }

/-- The run of an accepted CYCLE of F ≥ 1 frames: its sample steps, after which the block is idle. -/
theorem sampleRun_cycleEffect {c : Config} (note fine : BitVec 8) {frames : BitVec 12} (s : State)
    (hframes : frames ≠ 0#12) (hmax : frames.toNat ≤ c.maxFrames) :
    sampleRun c frames.toNat (cycleEffect c note fine frames s) =
      .next ((acceptCycle c note fine frames.toNat s).samples c frames.toNat) ∧
    ((acceptCycle c note fine frames.toNat s).samples c frames.toNat).busy = false := by
  have hcyc := acceptCycle_cyc c note fine frames.toNat s
  rw [cycleEffect_of_frames_ne_zero _ _ _ _ hframes]
  exact ⟨State.sampleRun_eq_samples hcyc (Nat.zero_add _).le hmax,
    State.samples_all_idle hcyc (toNat_pos_of_ne_zero hframes)⟩

/-- Settles O41: the flat ramp, the run of an accepted CYCLE, and the two CYCLEs joined. -/
theorem reachedTargetGivesAFlatRamp : Obligations.ReachedTargetGivesAFlatRamp := by
  refine ⟨fun nan nan' q frames hpos hmax => ⟨rampStep_reached nan q hpos hmax, nextLfo_fromFixed_zero nan' q⟩,
    fun note fine frames s hidle hframes hlfo => ?accepted,
    fun c note fine nan' s f1 f2 f hidle hlfo hf1 hf2 hf hmax hfirst hsecond => ?joined⟩
  case accepted =>
    have hpos := toNat_pos_of_ne_zero hframes
    have hmax : frames.toNat ≤ 4095 := Nat.le_of_lt_succ frames.isLt
    have hcyc := acceptCycle_cyc_reached (c := Config.machine) (note := note) (fine := fine) hlfo hpos hmax
    refine ⟨acceptCycle Config.machine note fine frames.toNat s, ?_, hcyc, fun n hn => ?_⟩
    · rw [exec_cycle_idle hidle, cycleEffect_of_frames_ne_zero _ _ _ _ hframes]
    · have hrun := State.sampleRun_eq_samples (c := Config.machine) hcyc (k := n) (by dsimp only; omega) hmax
      exact ⟨_, hrun, (samples_lfoCurrent_reached hlfo hpos hmax hn).trans hlfo.symm⟩
  case joined =>
    have hlt := f.isLt
    have hpos1 := toNat_pos_of_ne_zero hf1
    have hpos2 := toNat_pos_of_ne_zero hf2
    have hfne : f ≠ 0#12 := fun h0 => by simp [h0] at hf; omega
    have hjoin := joinedCycles_of_reached (c := c) note fine hlfo hpos1 hpos2 (by omega) hfirst hsecond
    obtain ⟨hrunA, hidleA⟩ := sampleRun_cycleEffect (c := c) note fine s hf1 (by omega)
    obtain ⟨hrunB, hidleB⟩ := sampleRun_cycleEffect (c := c) note fine
      ((acceptCycle c note fine f1.toNat s).samples c f1.toNat) hf2 (by omega)
    obtain ⟨hrunT, hidleT⟩ := sampleRun_cycleEffect (c := { c with nan := nan' }) note fine s hfne hmax
    rw [hf] at hrunT hidleT ⊢
    exact ⟨_, _, _, hrunA, hrunB, hrunT, fun k => hjoin.outWord_first, fun k => hjoin.outWord_second, hidleA, hidleB,
      hidleT, hjoin.osc_second⟩

end Machine
end Sys2Proof
end
